-- ==== Sys2Proof/Word.lean ====
section
/-! DEFINITION. The widths the engine computes with (00_scope.md R8, R9). -/

namespace Sys2Proof

/-- A command or response word: 32 bits (00_scope.md R8, 30_encoding.md R66). -/
abbrev Word := BitVec 32

/-- A byte of the frame buffer (20_memory.md R50). -/
abbrev Byte := BitVec 8

/-- A character key: 21 bits, compared only for equality (30_encoding.md R76). -/
abbrev Key := BitVec 21

/-- An RGB565 code: 16 bits (00_scope.md R12). -/
abbrev Code565 := BitVec 16

end Sys2Proof
end

