-- ==== Sys2Proof/Config.lean ====
section
/-! DEFINITION. The engine's parameters (00_scope.md R8, 10_state.md R34) and the values the spec
leaves free (93_implementation_defined.md). A free value is an opaque constant: no proof can see
what it is, so a theorem holds whatever it is. -/

namespace Sys2Proof.Config

/-- `W`: matrix width and height in cells (00_scope.md R8). -/
abbrev matrixWidth : Nat := 8
/-- `CELLS` (00_scope.md R8). -/
abbrev cells : Nat := 64
/-- `FB_BYTES` (00_scope.md R8). -/
abbrev fbBytes : Nat := 128
/-- `GLYPH_ROWS` (00_scope.md R8). -/
abbrev glyphRows : Nat := 5
/-- `GLYPH_COLS` (00_scope.md R8). -/
abbrev glyphCols : Nat := 8
/-- `LEN_MAX`: most payload words in one command (00_scope.md R8). -/
abbrev lenMax : Nat := 65535
/-- `WAIT_UNIT`: microseconds in one unit of SHOW_MESSAGE's SPEED operand (00_scope.md R8). -/
abbrev waitUnit : Nat := 1
/-- `FB_EXCLUSIVE`: only the engine writes the frame buffer (00_scope.md R8, 92_eei_decisions.md D19). -/
abbrev fbExclusive : Bool := true

/-- `GLYPH_CAP` less one: OPEN (92_eei_decisions.md D14, log 10). -/
opaque glyphCapLessOne : Nat

/-- `GLYPH_CAP`, a positive integer the spec leaves open (00_scope.md R8, log 10). -/
def glyphCap : Nat := glyphCapLessOne + 1

/-- What befalls one device transaction. `ok`, `failOpen` and `failAccess` are the oracle's answers
(20_memory.md R54): `failAccess` is cause READ of a read and cause WRITE of a write, so a read never
fails with WRITE nor a write with READ (60_exceptions.md R256). `reset` says that the reset input was
asserted and released while the transaction was in flight (70_reset_and_hazards.md R303, log 5). -/
inductive DeviceEvent where
  | ok
  | failOpen
  | failAccess
  | reset
deriving DecidableEq, Repr, Inhabited

/-- What befalls the transaction made as draw number `n`, where nothing has fixed it yet
(20_memory.md R54, 93_implementation_defined.md U6, log 2). -/
opaque deviceEvent : Nat → DeviceEvent

/-- The byte at an address of a failed or reset-cut write's range after draw `n`: any value, byte by
byte (20_memory.md R55, 70_reset_and_hazards.md R303, 93_implementation_defined.md U3, U4, log 3). -/
opaque failedWriteByte : Nat → Nat → Byte

/-- The byte a read made as draw `n` returns at an address when `FB_EXCLUSIVE` is false: any value
(20_memory.md R54, 93_implementation_defined.md U7, log 11). -/
opaque foreignByte : Nat → Nat → Byte

/-- How many microseconds beyond its deadline the wait ended by draw `n` lasts
(60_exceptions.md R268, 93_implementation_defined.md U8, log 9). -/
opaque waitExtra : Nat → Nat

end Sys2Proof.Config
end

