-- ==== Sys2Proof/Operand.lean ====
section
/-! DEFINITION. The operand words of a payload, field by field (30_encoding.md R72 to R78), and what
a payload is once its length has been looked at. Reserved bits are kept: the command that holds the
word checks them (R80). -/

namespace Sys2Proof

/-- PIX: three signed 10-bit channels and two reserved bits (30_encoding.md R72). -/
structure PixWord where
  rsv : BitVec 2
  b : BitVec 10
  g : BitVec 10
  r : BitVec 10
deriving DecidableEq, Repr

/-- XY: a logical coordinate and 16 reserved bits (30_encoding.md R73). -/
structure XyWord where
  rsv : BitVec 16
  y : BitVec 8
  x : BitVec 8
deriving DecidableEq, Repr

/-- XYD: a coordinate and a degree value, no reserved bit (30_encoding.md R74). -/
structure XydWord where
  deg : BitVec 16
  y : BitVec 8
  x : BitVec 8
deriving DecidableEq, Repr

/-- DEG: a degree value and 16 reserved bits (30_encoding.md R75). -/
structure DegWord where
  rsv : BitVec 16
  deg : BitVec 16
deriving DecidableEq, Repr

/-- CHAR: a 21-bit key and 11 reserved bits (30_encoding.md R76). -/
structure CharWord where
  rsv : BitVec 11
  key : Key
deriving DecidableEq, Repr

/-- CODE: an RGB565 code and 16 reserved bits (30_encoding.md R77). -/
structure CodeWord where
  rsv : BitVec 16
  code : Code565
deriving DecidableEq, Repr

/-- LOAD_FONT's operands after its COUNT word: the atlas pixels and the order string
(43_glyph.md R160). COUNT is the length of `atlas`. -/
structure FontOperands where
  atlas : List PixWord
  order : List CharWord
deriving DecidableEq, Repr

/-- SHOW_LETTER's operands (44_text.md R210). -/
structure LetterOperands where
  text : PixWord
  back : PixWord
  chars : List CharWord
deriving DecidableEq, Repr

/-- SHOW_MESSAGE's operands (44_text.md R211); SPEED has no reserved bit (30_encoding.md R78). -/
structure MessageOperands where
  speed : Word
  text : PixWord
  back : PixWord
  chars : List CharWord
deriving DecidableEq, Repr

/-- A command's payload: operands in the formats of 30_encoding.md R70 when `LEN` is one the command
accepts, else the words as they came. The length decides which format each word has (R80), so a
payload of another length has no operands; the command answers it with BAD_LENGTH
(60_exceptions.md R252). -/
inductive Payload (α : Type) where
  | accepted (operands : α)
  | badLength (words : List Word)
deriving DecidableEq, Repr

end Sys2Proof
end

