-- ==== Sys2Proof/Syntax.lean ====
section
/-! DEFINITION. The commands: one constructor per row of spec/opcode_table.json (30_encoding.md R70). -/

namespace Sys2Proof

/-- A command of the engine. `rf` is the header's redraw flag, which only FLIP_H, FLIP_V and SET_ROT
define (30_encoding.md R69). GLYPH and GLYPH_TRIM accept every length, so their payload is their
string. -/
inductive Instr where
  /-- ENC, 40_codec.md R90. -/
  | enc (p : Payload (List PixWord))
  /-- DEC, 40_codec.md R91. -/
  | dec (p : Payload (List CodeWord))
  /-- XLAT, 41_rotation.md R107. -/
  | xlat (p : Payload XydWord)
  /-- SET_PIXELS, 42_surface.md R124. -/
  | setPixels (p : Payload (List PixWord))
  /-- GET_PIXELS, 42_surface.md R125. -/
  | getPixels (p : Payload Unit)
  /-- SET_PIXEL, 42_surface.md R126. -/
  | setPixel (p : Payload (XyWord × PixWord))
  /-- GET_PIXEL, 42_surface.md R127. -/
  | getPixel (p : Payload XyWord)
  /-- FLIP_H, 42_surface.md R130. -/
  | flipH (rf : Bool) (p : Payload Unit)
  /-- FLIP_V, 42_surface.md R131. -/
  | flipV (rf : Bool) (p : Payload Unit)
  /-- CLEAR, 42_surface.md R132: no operand or one colour. -/
  | clear (p : Payload (Option PixWord))
  /-- SET_ROT, 41_rotation.md R108. -/
  | setRot (rf : Bool) (p : Payload DegWord)
  /-- GET_ROT, 41_rotation.md R110. -/
  | getRot (p : Payload Unit)
  /-- LOAD_FONT, 43_glyph.md R160. -/
  | loadFont (p : Payload FontOperands)
  /-- GLYPH, 43_glyph.md R166. -/
  | glyph (chars : List CharWord)
  /-- GLYPH_TRIM, 43_glyph.md R168. -/
  | glyphTrim (chars : List CharWord)
  /-- SHOW_LETTER, 44_text.md R210. -/
  | showLetter (p : Payload LetterOperands)
  /-- SHOW_MESSAGE, 44_text.md R211. -/
  | showMessage (p : Payload MessageOperands)
deriving DecidableEq, Repr

end Sys2Proof
end

