-- ==== Sys2Proof/WellFormed.lean ====
section
/-! DEFINITION. Which commands an encoding exists for: the payload fits `LEN`, operands stand where
the command accepts the length, and a payload marked `badLength` has a length (for LOAD_FONT, a
COUNT) the command does not accept (30_encoding.md R66, R70, 60_exceptions.md R252). -/

namespace Sys2Proof

/-- `words` fit a payload: at most `LEN_MAX` of them (00_scope.md R8). -/
abbrev lenFits (n : Nat) : Prop := n ≤ Config.lenMax

/-- A payload is well formed: its operands satisfy `ok`, or its words fit and satisfy `bad`. -/
def Payload.WellFormed {α : Type} (ok : α → Bool) (bad : List Word → Bool) : Payload α → Bool
  | .accepted a => ok a
  | .badLength ws => decide (lenFits ws.length) && bad ws

/-- A length LOAD_FONT refuses: no COUNT word, or a COUNT above the words that follow it
(60_exceptions.md R252). -/
def badFontLength : List Word → Bool
  | [] => true
  | count :: rest => decide (rest.length < count.toNat)

/-- The well-formed commands (30_encoding.md R70). -/
def Instr.WellFormed : Instr → Bool
  | .enc p => p.WellFormed (fun ps => ps.length == 1 || ps.length == 64)
      (fun ws => ws.length != 1 && ws.length != 64)
  | .dec p => p.WellFormed (fun cs => cs.length == 1 || cs.length == 64)
      (fun ws => ws.length != 1 && ws.length != 64)
  | .xlat p => p.WellFormed (fun _ => true) (fun ws => ws.length != 1)
  | .setPixels p => p.WellFormed (fun ps => ps.length == 64) (fun ws => ws.length != 64)
  | .getPixels p => p.WellFormed (fun _ => true) (fun ws => ws.length != 0)
  | .setPixel p => p.WellFormed (fun _ => true) (fun ws => ws.length != 2)
  | .getPixel p => p.WellFormed (fun _ => true) (fun ws => ws.length != 1)
  | .flipH _ p => p.WellFormed (fun _ => true) (fun ws => ws.length != 0)
  | .flipV _ p => p.WellFormed (fun _ => true) (fun ws => ws.length != 0)
  | .clear p => p.WellFormed (fun _ => true) (fun ws => ws.length != 0 && ws.length != 1)
  | .setRot _ p => p.WellFormed (fun _ => true) (fun ws => ws.length != 1)
  | .getRot p => p.WellFormed (fun _ => true) (fun ws => ws.length != 0)
  | .loadFont p => p.WellFormed
      (fun f => decide (lenFits (1 + f.atlas.length + f.order.length))) badFontLength
  | .glyph cs => decide (lenFits cs.length)
  | .glyphTrim cs => decide (lenFits cs.length)
  | .showLetter p => p.WellFormed (fun a => decide (lenFits (2 + a.chars.length)))
      (fun ws => decide (ws.length < 2))
  | .showMessage p => p.WellFormed (fun a => decide (lenFits (3 + a.chars.length)))
      (fun ws => decide (ws.length < 3))

end Sys2Proof
end

