-- ==== Sys2Proof/Decode.lean ====
section
/-! DEFINITION. From words to commands and back (30_encoding.md). `fetch` reads one command from the
command stream; `encode` writes the words of a command from the same tables. -/

namespace Sys2Proof

/-! ### Operand words (30_encoding.md R72 to R78, R81) -/

/-- PIX word to fields (30_encoding.md R72). -/
def PixWord.ofWord (w : Word) : PixWord where
  rsv := w.extractLsb' 30 2
  b := w.extractLsb' 20 10
  g := w.extractLsb' 10 10
  r := w.extractLsb' 0 10

/-- PIX fields to word (30_encoding.md R72). -/
def PixWord.toWord (p : PixWord) : Word := p.rsv ++ p.b ++ p.g ++ p.r

/-- XY word to fields (30_encoding.md R73). -/
def XyWord.ofWord (w : Word) : XyWord where
  rsv := w.extractLsb' 16 16
  y := w.extractLsb' 8 8
  x := w.extractLsb' 0 8

/-- XY fields to word (30_encoding.md R73). -/
def XyWord.toWord (p : XyWord) : Word := p.rsv ++ p.y ++ p.x

/-- XYD word to fields (30_encoding.md R74). -/
def XydWord.ofWord (w : Word) : XydWord where
  deg := w.extractLsb' 16 16
  y := w.extractLsb' 8 8
  x := w.extractLsb' 0 8

/-- XYD fields to word (30_encoding.md R74). -/
def XydWord.toWord (p : XydWord) : Word := p.deg ++ p.y ++ p.x

/-- DEG word to fields (30_encoding.md R75). -/
def DegWord.ofWord (w : Word) : DegWord where
  rsv := w.extractLsb' 16 16
  deg := w.extractLsb' 0 16

/-- DEG fields to word (30_encoding.md R75). -/
def DegWord.toWord (p : DegWord) : Word := p.rsv ++ p.deg

/-- CHAR word to fields (30_encoding.md R76). -/
def CharWord.ofWord (w : Word) : CharWord where
  rsv := w.extractLsb' 21 11
  key := w.extractLsb' 0 21

/-- CHAR fields to word (30_encoding.md R76). -/
def CharWord.toWord (p : CharWord) : Word := p.rsv ++ p.key

/-- CODE word to fields (30_encoding.md R77). -/
def CodeWord.ofWord (w : Word) : CodeWord where
  rsv := w.extractLsb' 16 16
  code := w.extractLsb' 0 16

/-- CODE fields to word (30_encoding.md R77). -/
def CodeWord.toWord (p : CodeWord) : Word := p.rsv ++ p.code

/-! ### Headers (30_encoding.md R66) -/

/-- `OPC`, header bits 7:0. -/
def headerOpc (h : Word) : BitVec 8 := h.extractLsb' 0 8

/-- `RF`, header bit 8. -/
def headerRf (h : Word) : Bool := h.getLsbD 8

/-- The reserved header bits 15:9. -/
def headerReserved (h : Word) : BitVec 7 := h.extractLsb' 9 7

/-- `LEN`, header bits 31:16: how many payload words follow. -/
def headerLen (h : Word) : Nat := (h.extractLsb' 16 16).toNat

/-- The header word `OPC | (RF << 8) | (LEN << 16)` (30_encoding.md R66). -/
def headerWord (opc : BitVec 8) (rf : Bool) (len : Nat) : Word :=
  BitVec.ofNat 16 len ++ (0#7 ++ (BitVec.ofBool rf ++ opc))

/-! ### Decoding -/

/-- Why a header names no command. -/
inductive Reject where
  /-- `OPC` is reserved (30_encoding.md R71). -/
  | reservedOpcode
  /-- A reserved header bit is set (30_encoding.md R69). -/
  | reservedBits
deriving DecidableEq, Repr

/-- What a header and its payload words are: a command, or rejected by name. -/
inductive Decoded where
  | command (i : Instr)
  | rejected (why : Reject)
deriving DecidableEq, Repr

/-- A command whose `RF` bit is reserved (30_encoding.md R69). -/
def plainCommand (h : Word) (i : Instr) : Decoded :=
  if headerReserved h = 0 ∧ headerRf h = false then .command i else .rejected .reservedBits

/-- A command that defines `RF` (30_encoding.md R69). -/
def redrawCommand (h : Word) (i : Instr) : Decoded :=
  if headerReserved h = 0 then .command i else .rejected .reservedBits

/-- A payload of one or 64 words of one format (40_codec.md R90, R91). -/
def oneOr64 {α : Type} (f : Word → α) (ws : List Word) : Payload (List α) :=
  if ws.length = 1 ∨ ws.length = 64 then .accepted (ws.map f) else .badLength ws

/-- A payload of no word. -/
def noOperand : List Word → Payload Unit
  | [] => .accepted ()
  | ws => .badLength ws

/-- A payload of one word. -/
def oneOperand {α : Type} (f : Word → α) : List Word → Payload α
  | [w] => .accepted (f w)
  | ws => .badLength ws

/-- SET_PIXELS: 64 PIX words (42_surface.md R124). -/
def parsePixels (ws : List Word) : Payload (List PixWord) :=
  if ws.length = 64 then .accepted (ws.map PixWord.ofWord) else .badLength ws

/-- SET_PIXEL: XY, PIX (42_surface.md R126). -/
def parseSetPixel : List Word → Payload (XyWord × PixWord)
  | [a, b] => .accepted (XyWord.ofWord a, PixWord.ofWord b)
  | ws => .badLength ws

/-- CLEAR: nothing or one PIX word (42_surface.md R132). -/
def parseClear : List Word → Payload (Option PixWord)
  | [] => .accepted none
  | [w] => .accepted (some (PixWord.ofWord w))
  | ws => .badLength ws

/-- LOAD_FONT: COUNT `A`, `A` PIX words, then CHAR words; `A` may not exceed `LEN - 1`
(43_glyph.md R160, 30_encoding.md R80). -/
def parseFont : List Word → Payload FontOperands
  | [] => .badLength []
  | count :: rest =>
    if rest.length < count.toNat then .badLength (count :: rest)
    else .accepted { atlas := (rest.take count.toNat).map PixWord.ofWord
                     order := (rest.drop count.toNat).map CharWord.ofWord }

/-- SHOW_LETTER: PIX, PIX, CHAR words (44_text.md R210). -/
def parseLetter : List Word → Payload LetterOperands
  | t :: b :: cs => .accepted { text := PixWord.ofWord t, back := PixWord.ofWord b
                                chars := cs.map CharWord.ofWord }
  | ws => .badLength ws

/-- SHOW_MESSAGE: SPEED, PIX, PIX, CHAR words (44_text.md R211). -/
def parseMessage : List Word → Payload MessageOperands
  | v :: t :: b :: cs => .accepted { speed := v, text := PixWord.ofWord t, back := PixWord.ofWord b
                                     chars := cs.map CharWord.ofWord }
  | ws => .badLength ws

/-- The command of a header and the payload words taken with it (30_encoding.md R70). The opcode is
looked at first, then the reserved header bits (60_exceptions.md R259 steps 1 and 2). -/
def decode (h : Word) (ws : List Word) : Decoded :=
  match (headerOpc h).toNat with
  | 0x01 => plainCommand h (.enc (oneOr64 PixWord.ofWord ws))
  | 0x02 => plainCommand h (.dec (oneOr64 CodeWord.ofWord ws))
  | 0x03 => plainCommand h (.xlat (oneOperand XydWord.ofWord ws))
  | 0x10 => plainCommand h (.setPixels (parsePixels ws))
  | 0x11 => plainCommand h (.getPixels (noOperand ws))
  | 0x12 => plainCommand h (.setPixel (parseSetPixel ws))
  | 0x13 => plainCommand h (.getPixel (oneOperand XyWord.ofWord ws))
  | 0x14 => redrawCommand h (.flipH (headerRf h) (noOperand ws))
  | 0x15 => redrawCommand h (.flipV (headerRf h) (noOperand ws))
  | 0x16 => plainCommand h (.clear (parseClear ws))
  | 0x18 => redrawCommand h (.setRot (headerRf h) (oneOperand DegWord.ofWord ws))
  | 0x19 => plainCommand h (.getRot (noOperand ws))
  | 0x20 => plainCommand h (.loadFont (parseFont ws))
  | 0x21 => plainCommand h (.glyph (ws.map CharWord.ofWord))
  | 0x22 => plainCommand h (.glyphTrim (ws.map CharWord.ofWord))
  | 0x30 => plainCommand h (.showLetter (parseLetter ws))
  | 0x31 => plainCommand h (.showMessage (parseMessage ws))
  | _ => .rejected .reservedOpcode

/-- The first command of a word stream and the words after it: exactly `1 + LEN` words are taken,
whatever the command is (30_encoding.md R67). `none` while they have not all arrived. -/
def fetch : List Word → Option (Decoded × List Word)
  | [] => none
  | h :: rest =>
    if rest.length < headerLen h then none
    else some (decode h (rest.take (headerLen h)), rest.drop (headerLen h))

/-! ### Encoding -/

/-- A payload's words, `f` writing those of its operands. -/
def payloadWords {α : Type} (f : α → List Word) : Payload α → List Word
  | .accepted a => f a
  | .badLength ws => ws

/-- The payload words of a command, in the order of 30_encoding.md R70. -/
def Instr.payload : Instr → List Word
  | .enc p => payloadWords (·.map PixWord.toWord) p
  | .dec p => payloadWords (·.map CodeWord.toWord) p
  | .xlat p => payloadWords (fun a => [a.toWord]) p
  | .setPixels p => payloadWords (·.map PixWord.toWord) p
  | .getPixels p => payloadWords (fun _ => []) p
  | .setPixel p => payloadWords (fun a => [a.1.toWord, a.2.toWord]) p
  | .getPixel p => payloadWords (fun a => [a.toWord]) p
  | .flipH _ p => payloadWords (fun _ => []) p
  | .flipV _ p => payloadWords (fun _ => []) p
  | .clear p => payloadWords (fun a => (a.map PixWord.toWord).toList) p
  | .setRot _ p => payloadWords (fun a => [a.toWord]) p
  | .getRot p => payloadWords (fun _ => []) p
  | .loadFont p => payloadWords (fun f => BitVec.ofNat 32 f.atlas.length ::
      (f.atlas.map PixWord.toWord ++ f.order.map CharWord.toWord)) p
  | .glyph cs => cs.map CharWord.toWord
  | .glyphTrim cs => cs.map CharWord.toWord
  | .showLetter p => payloadWords (fun a => a.text.toWord :: a.back.toWord ::
      a.chars.map CharWord.toWord) p
  | .showMessage p => payloadWords (fun a => a.speed :: a.text.toWord :: a.back.toWord ::
      a.chars.map CharWord.toWord) p

/-- The opcode of a command (30_encoding.md R70). -/
def Instr.opcode : Instr → BitVec 8
  | .enc _ => 0x01
  | .dec _ => 0x02
  | .xlat _ => 0x03
  | .setPixels _ => 0x10
  | .getPixels _ => 0x11
  | .setPixel _ => 0x12
  | .getPixel _ => 0x13
  | .flipH _ _ => 0x14
  | .flipV _ _ => 0x15
  | .clear _ => 0x16
  | .setRot _ _ => 0x18
  | .getRot _ => 0x19
  | .loadFont _ => 0x20
  | .glyph _ => 0x21
  | .glyphTrim _ => 0x22
  | .showLetter _ => 0x30
  | .showMessage _ => 0x31

/-- The redraw flag of a command: false where the bit is reserved (30_encoding.md R69). -/
def Instr.redraw : Instr → Bool
  | .flipH rf _ => rf
  | .flipV rf _ => rf
  | .setRot rf _ => rf
  | .enc _ => false
  | .dec _ => false
  | .xlat _ => false
  | .setPixels _ => false
  | .getPixels _ => false
  | .setPixel _ => false
  | .getPixel _ => false
  | .clear _ => false
  | .getRot _ => false
  | .loadFont _ => false
  | .glyph _ => false
  | .glyphTrim _ => false
  | .showLetter _ => false
  | .showMessage _ => false

/-- The words of a command: its header, then its payload (30_encoding.md R66). -/
def encode (i : Instr) : List Word :=
  headerWord i.opcode i.redraw i.payload.length :: i.payload

/-! ### Byte transports (30_encoding.md R68) -/

/-- The bytes of a word on a byte transport: bits 7:0 first. -/
def bytesOfWord (w : Word) : List Byte :=
  [w.extractLsb' 0 8, w.extractLsb' 8 8, w.extractLsb' 16 8, w.extractLsb' 24 8]

/-- The words a byte transport has delivered: four bytes each, bits 7:0 first; a tail of fewer than
four bytes is no word yet. -/
def wordsOfBytes : List Byte → List Word
  | b0 :: b1 :: b2 :: b3 :: rest => (b3 ++ b2 ++ b1 ++ b0) :: wordsOfBytes rest
  | _ => []

/-! ### The host's table words -/

/-- The command words whose bits are the low `nbits` bits of `w`, the header lowest, and zero above:
the header and as many payload words as its `LEN` says (30_encoding.md R66, R67). -/
def tableWords (nbits w : Nat) : List Word :=
  let v := w % 2 ^ nbits
  let h : Word := BitVec.ofNat 32 v
  h :: (List.range (headerLen h)).map fun k => BitVec.ofNat 32 (v >>> (32 * (k + 1)))

/-- The command this decoder reads from those words, `none` where it refuses. -/
def decodeTableWord (nbits w : Nat) : Option Instr :=
  match fetch (tableWords nbits w) with
  | some (.command i, _) => some i
  | some (.rejected _, _) => none
  | none => none

end Sys2Proof
end

