-- ==== Sys2Proof/Machine/State.lean ====
section
/-! DEFINITION. The engine's state as plain data (10_state.md), its reset value
(70_reset_and_hazards.md R300), and the reasons a step can stop. -/

namespace Sys2Proof.Machine

/-- A pixel: three channels in 0..255 (00_scope.md R12). -/
structure Pixel where
  r : BitVec 8
  g : BitVec 8
  b : BitVec 8
deriving DecidableEq, Repr

/-- Black, (0, 0, 0) (00_scope.md R12). -/
def Pixel.black : Pixel := ⟨0, 0, 0⟩

/-- White, (255, 255, 255) (00_scope.md R12). -/
def Pixel.white : Pixel := ⟨255, 255, 255⟩

/-- A MatrixBuffer: 64 pixels, index `x + 8*y` in logical order, or cell `p` in physical order
(00_scope.md R12). -/
abbrev Grid := List Pixel

/-- A glyph: 40 pixels, `j = 8*row + col` (10_state.md R26). -/
abbrev Glyph := List Pixel

/-- A line of the scroll strip: 8 pixels (44_text.md R205). -/
abbrev Line := List Pixel

/-- The glyph store: keys strictly rising, one glyph each (10_state.md R26, log 12). -/
abbrev GlyphMap := List (Key × Glyph)

/-- The frame buffer's bytes: addresses strictly rising, no entry equal to what an unlisted address
reads as (10_state.md R30, log 1). -/
abbrev Memory := List Host.Cell

/-- A rotation, in degrees (00_scope.md R12). -/
inductive Rotation where
  | deg0
  | deg90
  | deg180
  | deg270
deriving DecidableEq, Repr

/-- The context of a running SHOW_MESSAGE: its operands, its strip and its window index
(10_state.md R33). -/
structure Scroll where
  speed : Word
  text : Pixel
  back : Pixel
  strip : List Line
  window : Nat
deriving DecidableEq, Repr

/-- The engine's control state: the phase and the command context (10_state.md R33, log 18). -/
inductive Control where
  /-- IDLE: no command in progress. -/
  | idle
  /-- EXEC: a command has ended, and its response waits for room on RSP (10_state.md R32). -/
  | responding (response : List Word)
  /-- EXEC: SHOW_MESSAGE is about to write its window. -/
  | scrolling (c : Scroll)
  /-- WAIT: SHOW_MESSAGE has written its window and waits for the deadline, in microseconds. -/
  | waiting (c : Scroll) (deadline : Nat)
deriving DecidableEq, Repr

/-- The three phases (10_state.md R33). -/
inductive Phase where
  | idle
  | exec
  | wait
deriving DecidableEq, Repr

/-- The engine, its streams, the frame buffer behind its device port, and the inputs a step reads.
INVENTORY.md lists each field with its rule. -/
structure State where
  /-- ROT (10_state.md R23). -/
  rot : Rotation
  /-- FONT_LOADED (10_state.md R25). -/
  fontLoaded : Bool
  /-- GLYPHS (10_state.md R26). -/
  glyphs : GlyphMap
  /-- PHASE and the command context (10_state.md R33). -/
  ctl : Control
  /-- CMD, the oldest word first (10_state.md R32). -/
  cmd : List Word
  /-- RSP, the oldest word first (10_state.md R32). -/
  rsp : List Word
  /-- FB (10_state.md R30). -/
  mem : Memory
  /-- The model's: the reset input is asserted (70_reset_and_hazards.md R300, log 5). -/
  resetIn : Bool
  /-- The model's: RSP has no room now (10_state.md R32, log 6). -/
  rspFull : Bool
  /-- The model's: the monotonic time in microseconds (60_exceptions.md R268, log 9). -/
  now : Nat
  /-- The model's: what befalls the coming device transactions, as far as it is fixed (log 2). -/
  events : List Config.DeviceEvent
  /-- The model's: how many free draws have been made (log 2). -/
  draws : Nat
deriving DecidableEq, Repr

/-- The reasons a step can fault. -/
inductive Fault where
  /-- A device transaction would reach a byte outside `FB[0..127]` (20_memory.md R59). Raised by
  `onDevice` in Machine/Ops.lean. Safe: no command can reach it (20_memory.md R56, log 14). -/
  | noSuchAddress (addr : Nat)
deriving DecidableEq, Repr

/-- The reasons a step can refuse. -/
inductive Refusal where
  /-- The instruction has no meaning yet. Raised by an arm of `exec`; no arm does now. Safe. -/
  | notModelled (mnemonic : String)
deriving DecidableEq, Repr

/-- The machine right after reset (10_state.md R35, 70_reset_and_hazards.md R300). `mem` lists
nothing (log 1); the model's own fields start as log 16 says. -/
def State.reset : State where
  rot := .deg0
  fontLoaded := false
  glyphs := []
  ctl := .idle
  cmd := []
  rsp := []
  mem := []
  resetIn := false
  rspFull := false
  now := 0
  events := []
  draws := 0

end Sys2Proof.Machine
end

