-- ==== Sys2Proof/Machine/Flags.lean ====
section
/-! DEFINITION. The engine has no flags (10_state.md R21). What a command reports is the status word
of its own response: this file holds the causes and the status word (60_exceptions.md R251,
30_encoding.md R79). -/

namespace Sys2Proof.Machine

/-- The causes of an error (60_exceptions.md R251). -/
inductive ErrorCause where
  | badLength
  | channelRange
  | coordRange
  | textLength
  | invalidRotation
  | atlasNotMultiple
  | atlasTooShort
  | noFallback
  | atlasChannel
  | capacity
  | fontLocked
  | noFont
  | deviceOpen
  | deviceRead
  | deviceWrite
  | reservedOpcode
  | reservedBits
deriving DecidableEq, Repr

/-- `CLASS` of an error: 1 ValidationError, 2 ConfigurationError, 3 AssetError, 4 DeviceError,
5 IllegalCommand (30_encoding.md R79, 60_exceptions.md R251). -/
def ErrorCause.classCode : ErrorCause → BitVec 8
  | .badLength => 1
  | .channelRange => 1
  | .coordRange => 1
  | .textLength => 1
  | .invalidRotation => 2
  | .atlasNotMultiple => 3
  | .atlasTooShort => 3
  | .noFallback => 3
  | .atlasChannel => 3
  | .capacity => 3
  | .fontLocked => 3
  | .noFont => 3
  | .deviceOpen => 4
  | .deviceRead => 4
  | .deviceWrite => 4
  | .reservedOpcode => 5
  | .reservedBits => 5

/-- `CAUSE` of an error, a number within its class (60_exceptions.md R251). -/
def ErrorCause.causeCode : ErrorCause → BitVec 8
  | .badLength => 1
  | .channelRange => 2
  | .coordRange => 3
  | .textLength => 4
  | .invalidRotation => 1
  | .atlasNotMultiple => 1
  | .atlasTooShort => 2
  | .noFallback => 3
  | .atlasChannel => 4
  | .capacity => 5
  | .fontLocked => 6
  | .noFont => 7
  | .deviceOpen => 1
  | .deviceRead => 2
  | .deviceWrite => 3
  | .reservedOpcode => 1
  | .reservedBits => 2

/-- The status word: `CLASS` in bits 7:0, `CAUSE` in bits 15:8, `RLEN` in bits 31:16
(30_encoding.md R79). -/
def statusWord (cls cause : BitVec 8) (rlen : Nat) : Word :=
  BitVec.ofNat 16 rlen ++ (cause ++ cls)

/-- The status word of a command that ends OK with `rlen` result words (30_encoding.md R79). -/
def okStatus (rlen : Nat) : Word := statusWord 0 0 rlen

/-- The status word of an error: `RLEN` is 0 (60_exceptions.md R250). -/
def ErrorCause.status (e : ErrorCause) : Word := statusWord e.classCode e.causeCode 0

end Sys2Proof.Machine
end

