-- ==== Sys2Proof/Machine/Operands.lean ====
section
/-! DEFINITION. What operand words mean and the checks a command makes of them (30_encoding.md R72 to
R81), and the result words (R79). -/

namespace Sys2Proof.Machine

/-! ### Checks of a payload word -/

/-- A reserved bit of a PIX word is set (30_encoding.md R80). -/
def pixReserved (p : PixWord) : Bool := p.rsv != 0

/-- A reserved bit of an XY word is set (30_encoding.md R80). -/
def xyReserved (p : XyWord) : Bool := p.rsv != 0

/-- A reserved bit of a DEG word is set (30_encoding.md R80). -/
def degReserved (p : DegWord) : Bool := p.rsv != 0

/-- A reserved bit of a CHAR word is set (30_encoding.md R80). -/
def charReserved (p : CharWord) : Bool := p.rsv != 0

/-- A reserved bit of a CODE word is set (30_encoding.md R80). -/
def codeReserved (p : CodeWord) : Bool := p.rsv != 0

/-- A channel read as a signed 10-bit integer lies in 0..255 (30_encoding.md R72). -/
def channelInRange (c : BitVec 10) : Bool := decide (0 ≤ c.toInt) && decide (c.toInt ≤ 255)

/-- `ValidPix`: all three channels lie in 0..255 (42_surface.md R120). -/
def validPix (p : PixWord) : Bool := channelInRange p.r && channelInRange p.g && channelInRange p.b

/-- `pixel`: the pixel of a valid PIX word (42_surface.md R120). -/
def pixelOf (p : PixWord) : Pixel := ⟨p.r.setWidth 8, p.g.setWidth 8, p.b.setWidth 8⟩

/-- A coordinate lies in 0..7 (60_exceptions.md R254). -/
def coordInRange (x y : BitVec 8) : Bool := decide (x.toNat ≤ 7) && decide (y.toNat ≤ 7)

/-- The rotation of a degree value, `none` where it is not 0, 90, 180 or 270 (60_exceptions.md R255). -/
def Rotation.ofDeg (d : BitVec 16) : Option Rotation :=
  if d.toNat = 0 then some .deg0
  else if d.toNat = 90 then some .deg90
  else if d.toNat = 180 then some .deg180
  else if d.toNat = 270 then some .deg270
  else none

/-- `ROTSEL`: 0, 1, 2, 3 for 0, 90, 180, 270 degrees (10_state.md R23). -/
def Rotation.sel : Rotation → BitVec 2
  | .deg0 => 0
  | .deg90 => 1
  | .deg180 => 2
  | .deg270 => 3

/-- `deg(ROT) = 90 * ROTSEL` (10_state.md R23). -/
def Rotation.deg (d : Rotation) : Nat := 90 * d.sel.toNat

/-- The keys of a string operand, in order (30_encoding.md R76, R81). -/
def keysOf (cs : List CharWord) : List Key := cs.map CharWord.key

/-! ### Result words -/

/-- PIX: a pixel as a result word, reserved bits 0 (30_encoding.md R72). -/
def pixResult (p : Pixel) : Word :=
  PixWord.toWord { rsv := 0, b := p.b.setWidth 10, g := p.g.setWidth 10, r := p.r.setWidth 10 }

/-- CODE: a code as a result word (30_encoding.md R77). -/
def codeResult (c : Code565) : Word := c.setWidth 32

/-- A number as a result word: OFS, COUNT, and DEG (30_encoding.md R75, R78). -/
def natResult (n : Nat) : Word := BitVec.ofNat 32 n

end Sys2Proof.Machine
end

