-- ==== Sys2Proof/Machine/Ops.lean ====
section
/-! DEFINITION. The named operations every command is made of: the frame buffer's bytes, the device
port, the glyph map, the response and the error, the wait and the reset. -/

namespace Sys2Proof.Machine

/-- What a step answers. -/
abbrev Out := Host.Outcome State Fault Refusal

/-! ### Bytes of the frame buffer (20_memory.md) -/

/-- What an unlisted byte of FB reads as: DESIGN CHOICE, unsafe (log 1). The spec leaves FB
unspecified at power-up (10_state.md R30). -/
def Memory.unlisted : Byte := 0

/-- The byte at an address. -/
def Memory.read : Memory → Nat → Byte
  | [], _ => Memory.unlisted
  | (a, b) :: rest, addr => if a = addr then b else Memory.read rest addr

/-- The memory with an address unlisted. -/
def Memory.erase (m : Memory) (addr : Nat) : Memory := m.filter fun cell => cell.1 != addr

/-- The memory with an entry put in its place among rising addresses. -/
def Memory.insert : Memory → Nat → Byte → Memory
  | [], addr, v => [(addr, v)]
  | (a, b) :: rest, addr, v =>
    if addr < a then (addr, v) :: (a, b) :: rest else (a, b) :: Memory.insert rest addr v

/-- The memory with one byte written, in canonical form. -/
def Memory.write (m : Memory) (addr : Nat) (v : Byte) : Memory :=
  if v = Memory.unlisted then m.erase addr else (m.erase addr).insert addr v

/-- `FB[addr .. addr+n-1]` (20_memory.md R54). -/
def Memory.readBytes (m : Memory) (addr n : Nat) : List Byte :=
  (List.range n).map fun k => m.read (addr + k)

/-- `FB[addr ..] <- v`, byte by byte (20_memory.md R54). -/
def Memory.writeBytes (m : Memory) (addr : Nat) : List Byte → Memory
  | [] => m
  | v :: vs => Memory.writeBytes (m.write addr v) (addr + 1) vs

/-- The canonical form: addresses strictly rising and inside FB, no entry equal to what an unlisted
byte reads as. `lo` is the least address that may come. -/
def Memory.wfFrom (lo : Nat) : Memory → Bool
  | [] => true
  | (a, b) :: rest =>
    decide (lo ≤ a) && decide (a < Config.fbBytes) && (b != Memory.unlisted) &&
      Memory.wfFrom (a + 1) rest

/-- The memory is in canonical form. -/
def Memory.wf (m : Memory) : Bool := Memory.wfFrom 0 m

/-! ### The glyph map (10_state.md R26) -/

/-- The glyph stored under a key. -/
def GlyphMap.find : GlyphMap → Key → Option Glyph
  | [], _ => none
  | (k, g) :: rest, key => if k = key then some g else GlyphMap.find rest key

/-- The map with an entry put in its place among rising keys. -/
def GlyphMap.insert : GlyphMap → Key → Glyph → GlyphMap
  | [], key, g => [(key, g)]
  | (k, h) :: rest, key, g =>
    if key.toNat < k.toNat then (key, g) :: (k, h) :: rest
    else (k, h) :: GlyphMap.insert rest key g

/-- The map with one glyph stored; a glyph stored before under the same key is replaced
(43_glyph.md R161). -/
def GlyphMap.store (m : GlyphMap) (key : Key) (g : Glyph) : GlyphMap :=
  GlyphMap.insert (m.filter fun entry => entry.1 != key) key g

/-- Keys strictly rise, and each glyph has 40 pixels. `lo` is the least key that may come. -/
def GlyphMap.wfFrom (lo : Nat) : GlyphMap → Bool
  | [] => true
  | (k, g) :: rest =>
    decide (lo ≤ k.toNat) && (g.length == 40) &&
      GlyphMap.wfFrom (k.toNat + 1) rest

/-! ### Responses and errors -/

/-- Put a whole response on RSP and end the command (30_encoding.md R79, 60_exceptions.md R250). With
no room on RSP the engine holds the response and stays in EXEC (10_state.md R32, log 6). -/
def putResponse (ws : List Word) (s : State) : State :=
  if s.rspFull then { s with ctl := .responding ws }
  else { s with ctl := .idle, rsp := s.rsp ++ ws }

/-- `respond(w0, ..., wk)`: end the command with status OK and these result words (00_scope.md R10). -/
def respond (results : List Word) (s : State) : State :=
  putResponse (okStatus results.length :: results) s

/-- `raise`: TAKING AN ERROR. One status word, no result word, back to IDLE; nothing is saved and no
mode changes (60_exceptions.md R250, R261). There is no return from an error (R262): the engine takes
the next command. -/
def raise (e : ErrorCause) (s : State) : State := putResponse [e.status] s

/-! ### Reset -/

/-- What reset makes of the engine: every piece of state at its reset value, FB and the model's
inputs kept (70_reset_and_hazards.md R300, R303). -/
def engineReset (s : State) : State :=
  { s with
    rot := .deg0
    fontLoaded := false
    glyphs := []
    ctl := .idle
    cmd := []
    rsp := []
    rspFull := false }

/-! ### The device port (20_memory.md R53, R54, R55) -/

/-- What befalls the next transaction: the oldest fixed event, or a free draw (20_memory.md R54, log 2). -/
def nextEvent (s : State) : Config.DeviceEvent :=
  match s.events with
  | [] => Config.deviceEvent s.draws
  | e :: _ => e

/-- The state once that event is used up. -/
def takeEvent (s : State) : State := { s with events := s.events.tail, draws := s.draws + 1 }

/-- The bytes an answered read returns: FB's bytes when the engine is FB's only writer, else any
bytes (20_memory.md R54, log 11). -/
def readAnswer (exclusive : Bool) (s : State) (addr n : Nat) : List Byte :=
  if exclusive then s.mem.readBytes addr n
  else (List.range n).map fun k => Config.foreignByte s.draws (addr + k)

/-- `MemRead(addr, n)`, going on with `k` when it is answered (20_memory.md R54, 60_exceptions.md R256). -/
def memRead (addr n : Nat) (s : State) (k : List Byte → State → State) : State :=
  match nextEvent s with
  | .ok => k (readAnswer Config.fbExclusive s addr n) (takeEvent s)
  | .failOpen => raise .deviceOpen (takeEvent s)
  | .failAccess => raise .deviceRead (takeEvent s)
  | .reset => engineReset (takeEvent s)

/-- FB after a write of `n` bytes at `addr` that failed or was cut by reset: any byte at each address
of the range (20_memory.md R55, log 3). -/
def scrambled (s : State) (addr n : Nat) : Memory :=
  s.mem.writeBytes addr ((List.range n).map fun k => Config.failedWriteByte s.draws (addr + k))

/-- `MemWrite(addr, n, v)`, going on with `k` when it is answered (20_memory.md R54, R55,
60_exceptions.md R256). -/
def memWrite (addr : Nat) (v : List Byte) (s : State) (k : State → State) : State :=
  match nextEvent s with
  | .ok => k { takeEvent s with mem := s.mem.writeBytes addr v }
  | .failOpen => raise .deviceOpen { takeEvent s with mem := scrambled s addr v.length }
  | .failAccess => raise .deviceWrite { takeEvent s with mem := scrambled s addr v.length }
  | .reset => engineReset { takeEvent s with mem := scrambled s addr v.length }

/-- A step that uses the device at `addr .. addr+n-1`: those bytes must exist (20_memory.md R59). -/
def onDevice (addr n : Nat) (s : State) : Out :=
  if addr + n ≤ Config.fbBytes then .next s else .fault (.noSuchAddress addr)

/-! ### The wait timer (60_exceptions.md R267, R268) -/

/-- Begin `wait(t)` for a nonzero `t` (60_exceptions.md R268). -/
def beginWait (c : Scroll) (s : State) : State :=
  { s with ctl := .waiting c (s.now + c.speed.toNat * Config.waitUnit) }

/-- The end of a wait: the time is at least the deadline, by a free amount (60_exceptions.md R268,
log 9). -/
def endWait (deadline : Nat) (s : State) : State :=
  { s with now := max s.now deadline + Config.waitExtra s.draws, draws := s.draws + 1 }

/-- The phase of a control state (10_state.md R33). -/
def Control.phase : Control → Phase
  | .idle => .idle
  | .responding _ => .exec
  | .scrolling _ => .exec
  | .waiting _ _ => .wait

end Sys2Proof.Machine
end

