-- ==== Sys2Proof/Machine/Codec.lean ====
section
/-! DEFINITION. PixelCodec: the RGB565 codec, frame packing, and the commands ENC and DEC
(40_codec.md). -/

namespace Sys2Proof.Machine

/-- `Encode565`: `((r & 0xF8) << 8) | ((g & 0xFC) << 3) | (b >> 3)` (40_codec.md R85). -/
def encode565 (p : Pixel) : Code565 :=
  ((p.r.setWidth 16 &&& 0xF8) <<< 8) ||| ((p.g.setWidth 16 &&& 0xFC) <<< 3) |||
    (p.b.setWidth 16 >>> 3)

/-- `Decode565`: the three fields, zeros in the vacated low bits (40_codec.md R86). -/
def decode565 (c : Code565) : Pixel where
  r := ((c &&& 0xF800) >>> 8).setWidth 8
  g := ((c &&& 0x07E0) >>> 3).setWidth 8
  b := ((c &&& 0x001F) <<< 3).setWidth 8

/-- The two bytes of a cell, the low byte first (20_memory.md R51). -/
def cellBytes (c : Code565) : List Byte := [c.extractLsb' 0 8, c.extractLsb' 8 8]

/-- The code of a cell's two bytes (20_memory.md R51). -/
def cellCode (lo hi : Byte) : Code565 := hi ++ lo

/-- `EncodeFrame`: a physical grid as 128 bytes (40_codec.md R88). -/
def encodeFrame (q : Grid) : List Byte := q.flatMap fun p => cellBytes (encode565 p)

/-- `DecodeFrame`: 128 bytes as a physical grid (40_codec.md R88). -/
def decodeFrame : List Byte → Grid
  | lo :: hi :: rest => decode565 (cellCode lo hi) :: decodeFrame rest
  | _ => []

/-- ENC (40_codec.md R90). -/
def execEnc (p : Payload (List PixWord)) (s : State) : Out :=
  match p with
  | .badLength _ => .next (raise .badLength s)
  | .accepted ps =>
    if ps.any pixReserved then .next (raise .reservedBits s)
    else if !ps.all validPix then .next (raise .channelRange s)
    else .next (respond (ps.map fun w => codeResult (encode565 (pixelOf w))) s)

/-- DEC (40_codec.md R91). -/
def execDec (p : Payload (List CodeWord)) (s : State) : Out :=
  match p with
  | .badLength _ => .next (raise .badLength s)
  | .accepted cs =>
    if cs.any codeReserved then .next (raise .reservedBits s)
    else .next (respond (cs.map fun c => pixResult (decode565 c.code)) s)

end Sys2Proof.Machine
end

