-- ==== Sys2Proof/Machine/RotationMap.lean ====
section
/-! DEFINITION. RotationMap: the cell map, the bulk rotation, frame access under a rotation, and the
commands XLAT, SET_ROT and GET_ROT (41_rotation.md). -/

namespace Sys2Proof.Machine

/-- `offset(x, y, deg)`: the physical cell of a logical cell, the corrected constants of
90_conflicts.md C1 (41_rotation.md R100). -/
def offset (x y : Nat) : Rotation → Nat
  | .deg0 => x + 8 * y
  | .deg90 => 7 + 8 * x - y
  | .deg180 => 63 - x - 8 * y
  | .deg270 => 56 - 8 * x + y

/-- The logical index `x + 8*y` of a physical cell: the inverse map (41_rotation.md R102). -/
def logicalIndex (p : Nat) : Rotation → Nat
  | .deg0 => p % 8 + 8 * (p / 8)
  | .deg90 => p / 8 + 8 * (7 - p % 8)
  | .deg180 => 7 - p % 8 + 8 * (7 - p / 8)
  | .deg270 => 7 - p / 8 + 8 * (p % 8)

/-- Entry `i` of a grid. -/
def cellAt (g : Grid) (i : Nat) : Pixel := g.getD i Pixel.black

/-- The grid whose entry `i` is `f i`. -/
def gridOf (f : Nat → Pixel) : Grid := (List.range Config.cells).map f

/-- `ToPhysical`: a logical grid in physical order (41_rotation.md R105). -/
def toPhysical (l : Grid) (d : Rotation) : Grid := gridOf fun p => cellAt l (logicalIndex p d)

/-- `ToLogical`: a physical grid in logical order (41_rotation.md R105). -/
def toLogical (q : Grid) (d : Rotation) : Grid := gridOf fun i => cellAt q (offset (i % 8) (i / 8) d)

/-- The 128 bytes `WriteFrame(L, d)` writes (42_surface.md R121). -/
def frameBytes (l : Grid) (d : Rotation) : List Byte := encodeFrame (toPhysical l d)

/-- `WriteFrame(L, d)` (42_surface.md R121). -/
def writeFrame (l : Grid) (d : Rotation) (s : State) (k : State → State) : State :=
  memWrite 0 (frameBytes l d) s k

/-- `ReadFrame(d)` (42_surface.md R122). -/
def readFrame (d : Rotation) (s : State) (k : Grid → State → State) : State :=
  memRead 0 Config.fbBytes s fun bytes => k (toLogical (decodeFrame bytes) d)

/-- XLAT (41_rotation.md R107). -/
def execXlat (p : Payload XydWord) (s : State) : Out :=
  match p with
  | .badLength _ => .next (raise .badLength s)
  | .accepted w =>
    match Rotation.ofDeg w.deg with
    | none => .next (raise .invalidRotation s)
    | some d =>
      if coordInRange w.x w.y then .next (respond [natResult (offset w.x.toNat w.y.toNat d)] s)
      else .next (raise .coordRange s)

/-- SET_ROT's last two lines: `ROT <- d / 90`, then `respond()` (41_rotation.md R108). -/
def finishSetRot (d : Rotation) (s : State) : State := respond [] { s with rot := d }

/-- SET_ROT (41_rotation.md R108). -/
def execSetRot (rf : Bool) (p : Payload DegWord) (s : State) : Out :=
  match p with
  | .badLength _ => .next (raise .badLength s)
  | .accepted w =>
    if degReserved w then .next (raise .reservedBits s)
    else match Rotation.ofDeg w.deg with
      | none => .next (raise .invalidRotation s)
      | some d =>
        if rf then
          onDevice 0 Config.fbBytes
            (readFrame s.rot s fun l s' => writeFrame l d s' (finishSetRot d))
        else .next (finishSetRot d s)

/-- GET_ROT (41_rotation.md R110). -/
def execGetRot (p : Payload Unit) (s : State) : Out :=
  match p with
  | .badLength _ => .next (raise .badLength s)
  | .accepted _ => .next (respond [natResult s.rot.deg] s)

end Sys2Proof.Machine
end

