-- ==== Sys2Proof/Machine/Surface.lean ====
section
/-! DEFINITION. MatrixSurface: SET_PIXELS, GET_PIXELS, SET_PIXEL, GET_PIXEL, FLIP_H, FLIP_V and CLEAR
(42_surface.md). -/

namespace Sys2Proof.Machine

/-- `FlipH`: each row reversed (42_surface.md R129). -/
def flipGridH (l : Grid) : Grid := gridOf fun i => cellAt l (7 - i % 8 + 8 * (i / 8))

/-- `FlipV`: the row order reversed (42_surface.md R129). -/
def flipGridV (l : Grid) : Grid := gridOf fun i => cellAt l (i % 8 + 8 * (7 - i / 8))

/-- SET_PIXELS (42_surface.md R124). -/
def execSetPixels (p : Payload (List PixWord)) (s : State) : Out :=
  match p with
  | .badLength _ => .next (raise .badLength s)
  | .accepted ps =>
    if ps.any pixReserved then .next (raise .reservedBits s)
    else if !ps.all validPix then .next (raise .channelRange s)
    else onDevice 0 Config.fbBytes (writeFrame (ps.map pixelOf) s.rot s (respond []))

/-- GET_PIXELS (42_surface.md R125). -/
def execGetPixels (p : Payload Unit) (s : State) : Out :=
  match p with
  | .badLength _ => .next (raise .badLength s)
  | .accepted _ =>
    onDevice 0 Config.fbBytes (readFrame s.rot s fun l => respond (l.map pixResult))

/-- SET_PIXEL (42_surface.md R126). -/
def execSetPixel (p : Payload (XyWord × PixWord)) (s : State) : Out :=
  match p with
  | .badLength _ => .next (raise .badLength s)
  | .accepted (a, c) =>
    if xyReserved a || pixReserved c then .next (raise .reservedBits s)
    else if !coordInRange a.x a.y then .next (raise .coordRange s)
    else if !validPix c then .next (raise .channelRange s)
    else
      let addr := 2 * offset a.x.toNat a.y.toNat s.rot
      onDevice addr 2 (memWrite addr (cellBytes (encode565 (pixelOf c))) s (respond []))

/-- The pixel of the two bytes GET_PIXEL reads (42_surface.md R127). -/
def pixelOfBytes (bytes : List Byte) : Pixel := decode565 (cellCode (bytes.getD 0 0) (bytes.getD 1 0))

/-- GET_PIXEL (42_surface.md R127). -/
def execGetPixel (p : Payload XyWord) (s : State) : Out :=
  match p with
  | .badLength _ => .next (raise .badLength s)
  | .accepted a =>
    if xyReserved a then .next (raise .reservedBits s)
    else if !coordInRange a.x a.y then .next (raise .coordRange s)
    else
      let addr := 2 * offset a.x.toNat a.y.toNat s.rot
      onDevice addr 2 (memRead addr 2 s fun bytes => respond [pixResult (pixelOfBytes bytes)])

/-- A flip by `mirror`: read the frame, mirror it, write it back when `rf` asks for a redraw, answer
the mirrored grid (42_surface.md R130, R131). -/
def flipFrame (mirror : Grid → Grid) (rf : Bool) (s : State) : State :=
  readFrame s.rot s fun l s' =>
    if rf then writeFrame (mirror l) s'.rot s' (respond ((mirror l).map pixResult))
    else respond ((mirror l).map pixResult) s'

/-- FLIP_H (42_surface.md R130). -/
def execFlipH (rf : Bool) (p : Payload Unit) (s : State) : Out :=
  match p with
  | .badLength _ => .next (raise .badLength s)
  | .accepted _ => onDevice 0 Config.fbBytes (flipFrame flipGridH rf s)

/-- FLIP_V (42_surface.md R131). -/
def execFlipV (rf : Bool) (p : Payload Unit) (s : State) : Out :=
  match p with
  | .badLength _ => .next (raise .badLength s)
  | .accepted _ => onDevice 0 Config.fbBytes (flipFrame flipGridV rf s)

/-- CLEAR: `LEN = 0` means (0, 0, 0) (42_surface.md R132). -/
def execClear (p : Payload (Option PixWord)) (s : State) : Out :=
  match p with
  | .badLength _ => .next (raise .badLength s)
  | .accepted c =>
    if c.any pixReserved then .next (raise .reservedBits s)
    else if !c.all validPix then .next (raise .channelRange s)
    else
      let colour := (c.map pixelOf).getD Pixel.black
      onDevice 0 Config.fbBytes
        (writeFrame (List.replicate Config.cells colour) s.rot s (respond []))

end Sys2Proof.Machine
end

