-- ==== Sys2Proof/Machine/GlyphStore.lean ====
section
/-! DEFINITION. GlyphStore: loading, lookup, trimming, and the commands LOAD_FONT, GLYPH and
GLYPH_TRIM (43_glyph.md). -/

namespace Sys2Proof.Machine

/-- The key of the fallback glyph, the character `?` (10_state.md R27). -/
def fallbackKey : Key := 0x3F

/-- A glyph of 40 black pixels: what a lookup answers in a store without `?`, which no loaded store is
(10_state.md R27, log 15). -/
def blankGlyph : Glyph := List.replicate (Config.glyphRows * Config.glyphCols) Pixel.black

/-- `Lookup(s)`: the stored glyph of exactly one stored key, else the fallback glyph
(43_glyph.md R165). -/
def lookup (m : GlyphMap) (s : List Key) : Glyph :=
  let fallback := (m.find fallbackKey).getD blankGlyph
  match s with
  | [k] => (m.find k).getD fallback
  | _ => fallback

/-- How many distinct keys a list holds (43_glyph.md R160). -/
def countDistinct : List Key → Nat
  | [] => 0
  | k :: ks => if ks.contains k then countDistinct ks else countDistinct ks + 1

/-- Store one 40-pixel block of the atlas for each key, in order, from a map on: a later block
replaces an earlier one (43_glyph.md R160, R161). -/
def storeBlocks : GlyphMap → List Pixel → List Key → GlyphMap
  | m, _, [] => m
  | m, atlas, k :: ks => storeBlocks (m.store k (atlas.take 40)) (atlas.drop 40) ks

/-- The first asset error of a load, in the order of 60_exceptions.md R259 step 9, for a store of
capacity `cap` (43_glyph.md R160, R162 to R164). -/
def fontError (cap : Nat) (f : FontOperands) (s : State) : Option ErrorCause :=
  if s.fontLoaded then some .fontLocked
  else if !f.atlas.all validPix then some .atlasChannel
  else if f.atlas.length % 40 != 0 then some .atlasNotMultiple
  else if f.atlas.length < 40 * f.order.length then some .atlasTooShort
  else if !(keysOf f.order).contains fallbackKey then some .noFallback
  else if cap < countDistinct (keysOf f.order) then some .capacity
  else none

/-- The state LOAD_FONT leaves, for a store of capacity `cap` (43_glyph.md R160). -/
def loadFontIn (cap : Nat) (f : FontOperands) (s : State) : State :=
  if f.atlas.any pixReserved || f.order.any charReserved then raise .reservedBits s
  else match fontError cap f s with
    | some e => raise e s
    | none => respond [] { s with
        glyphs := storeBlocks [] (f.atlas.map pixelOf) (keysOf f.order)
        fontLoaded := true }

/-- LOAD_FONT (43_glyph.md R160), with the open capacity `GLYPH_CAP` (log 10). -/
def execLoadFont (p : Payload FontOperands) (s : State) : Out :=
  match p with
  | .badLength _ => .next (raise .badLength s)
  | .accepted f => .next (loadFontIn Config.glyphCap f s)

/-- GLYPH (43_glyph.md R166). -/
def execGlyph (cs : List CharWord) (s : State) : Out :=
  if cs.any charReserved then .next (raise .reservedBits s)
  else if !s.fontLoaded then .next (raise .noFont s)
  else .next (respond ((lookup s.glyphs (keysOf cs)).map pixResult) s)

/-- Row `r` of a glyph: 8 pixels (43_glyph.md R161). -/
def glyphRow (g : Glyph) (r : Nat) : Line := (g.drop (8 * r)).take 8

/-- The sum of a line's channels (43_glyph.md R167). -/
def channelSum (l : Line) : Nat := (l.map fun p => p.r.toNat + p.g.toNat + p.b.toNat).sum

/-- `NB`: the rows that are not all black, rising (43_glyph.md R167). -/
def litRows (g : Glyph) : List Nat :=
  (List.range Config.glyphRows).filter fun r => channelSum (glyphRow g r) != 0

/-- The first lit row and how many rows the trimmed glyph has; height 0 when no row is lit
(43_glyph.md R167). -/
def trimSpan (g : Glyph) : Nat × Nat :=
  match (litRows g).head?, (litRows g).getLast? with
  | some first, some last => (first, last - first + 1)
  | _, _ => (0, 0)

/-- The height `h` of `Trim(G)` (43_glyph.md R167). -/
def trimHeight (g : Glyph) : Nat := (trimSpan g).2

/-- The pixels of `Trim(G)`: rows `first` to `last` (43_glyph.md R167). -/
def trimPixels (g : Glyph) : List Pixel := (g.drop (8 * (trimSpan g).1)).take (8 * (trimSpan g).2)

/-- GLYPH_TRIM (43_glyph.md R168). -/
def execGlyphTrim (cs : List CharWord) (s : State) : Out :=
  if cs.any charReserved then .next (raise .reservedBits s)
  else if !s.fontLoaded then .next (raise .noFont s)
  else
    let g := lookup s.glyphs (keysOf cs)
    .next (respond (natResult (trimHeight g) :: (trimPixels g).map pixResult) s)

end Sys2Proof.Machine
end

