-- ==== Sys2Proof/Machine/Text.lean ====
section
/-! DEFINITION. TextRenderer: recolouring, the letter frame, the scroll strip and its windows, the
timed driver, and the commands SHOW_LETTER and SHOW_MESSAGE (44_text.md). -/

namespace Sys2Proof.Machine

/-- `EFF = (deg(ROT) + 270) mod 360` (44_text.md R200). -/
def effRotation : Rotation → Rotation
  | .deg0 => .deg270
  | .deg90 => .deg0
  | .deg180 => .deg90
  | .deg270 => .deg180

/-- `Recolor(q, t, b)`: the text colour for a white pixel, else the background (44_text.md R202). -/
def recolor (t b q : Pixel) : Pixel := if q = Pixel.white then t else b

/-- `LetterFrame(G)`: the glyph on frame rows 1 to 5, the rest black (44_text.md R203). -/
def letterFrame (g : Glyph) : Grid :=
  gridOf fun i =>
    if 1 ≤ i / 8 ∧ i / 8 ≤ 5 then g.getD (i % 8 + 8 * (i / 8 - 1)) Pixel.black else Pixel.black

/-- A blank line (44_text.md R205). -/
def blankLine : Line := List.replicate Config.glyphCols Pixel.black

/-- `lines(G)`: the rows of the trimmed glyph (44_text.md R205). -/
def glyphLines (g : Glyph) : List Line :=
  (List.range (trimHeight g)).map fun k => glyphRow (trimPixels g) k

/-- What one character adds to the strip: its trimmed glyph, looked up alone, and a blank line
(44_text.md R205). -/
def charLines (m : GlyphMap) (k : Key) : List Line := glyphLines (lookup m [k]) ++ [blankLine]

/-- `Strip(s)` (44_text.md R205). -/
def stripOf (m : GlyphMap) (s : List Key) : List Line :=
  List.replicate 8 blankLine ++ (s.flatMap (charLines m) ++ List.replicate 8 blankLine)

/-- `Win(S, i)` (44_text.md R206). -/
def windowOf (strip : List Line) (i : Nat) : Grid :=
  gridOf fun j => (strip.getD (i + j / 8) []).getD (j % 8) Pixel.black

/-- The grid the driver writes for a window: recoloured, padding included (44_text.md R202, R207). -/
def scrollFrame (c : Scroll) : Grid := (windowOf c.strip c.window).map (recolor c.text c.back)

/-- Go on after a window and its wait: to the next window, or to the response after window `N - 9`
(44_text.md R206, R207). -/
def nextWindow (c : Scroll) (s : State) : State :=
  if c.window + 1 + 8 < c.strip.length then
    { s with ctl := .scrolling { c with window := c.window + 1 } }
  else respond [] s

/-- Go on after a window is written: wait, or not when `speed = 0` (44_text.md R207, 60_exceptions.md
R268). -/
def afterWindow (c : Scroll) (s : State) : State :=
  if c.speed = 0 then nextWindow c s else beginWait c s

/-- The driver in EXEC: write one window with the effective rotation (44_text.md R207). -/
def stepScroll (c : Scroll) (s : State) : Out :=
  onDevice 0 Config.fbBytes
    (writeFrame (scrollFrame c) (effRotation s.rot) s (afterWindow c))

/-- The driver in WAIT: the wait ends and the driver goes on (44_text.md R207, 60_exceptions.md R268). -/
def stepWait (c : Scroll) (deadline : Nat) (s : State) : Out :=
  .next (nextWindow c (endWait deadline s))

/-- SHOW_LETTER (44_text.md R210). -/
def execShowLetter (p : Payload LetterOperands) (s : State) : Out :=
  match p with
  | .badLength _ => .next (raise .badLength s)
  | .accepted a =>
    if pixReserved a.text || pixReserved a.back || a.chars.any charReserved then
      .next (raise .reservedBits s)
    else if !(validPix a.text && validPix a.back) then .next (raise .channelRange s)
    else if 2 ≤ a.chars.length then .next (raise .textLength s)
    else if !s.fontLoaded then .next (raise .noFont s)
    else
      let frame := (letterFrame (lookup s.glyphs (keysOf a.chars))).map
        (recolor (pixelOf a.text) (pixelOf a.back))
      onDevice 0 Config.fbBytes (writeFrame frame (effRotation s.rot) s (respond []))

/-- The driver's context at window 0 (44_text.md R211). -/
def startScroll (a : MessageOperands) (s : State) : Scroll where
  speed := a.speed
  text := pixelOf a.text
  back := pixelOf a.back
  strip := stripOf s.glyphs (keysOf a.chars)
  window := 0

/-- SHOW_MESSAGE: the checks, then the driver starts at window 0 (44_text.md R211). The driver's own
steps are `stepScroll` and `stepWait` (log 4). -/
def execShowMessage (p : Payload MessageOperands) (s : State) : Out :=
  match p with
  | .badLength _ => .next (raise .badLength s)
  | .accepted a =>
    if pixReserved a.text || pixReserved a.back || a.chars.any charReserved then
      .next (raise .reservedBits s)
    else if !(validPix a.text && validPix a.back) then .next (raise .channelRange s)
    else if !s.fontLoaded then .next (raise .noFont s)
    else .next { s with ctl := .scrolling (startScroll a s) }

end Sys2Proof.Machine
end

