-- ==== Sys2Proof/Machine/Dispatch.lean ====
section
/-! DEFINITION. One arm per command: the meaning of each (30_encoding.md R70). -/

namespace Sys2Proof.Machine

def exec (i : Instr) (s : State) : Host.Outcome State Fault Refusal :=
  match i with
  | .enc p => Sys2Proof.Machine.execEnc p s
  | .dec p => Sys2Proof.Machine.execDec p s
  | .xlat p => Sys2Proof.Machine.execXlat p s
  | .setPixels p => Sys2Proof.Machine.execSetPixels p s
  | .getPixels p => Sys2Proof.Machine.execGetPixels p s
  | .setPixel p => Sys2Proof.Machine.execSetPixel p s
  | .getPixel p => Sys2Proof.Machine.execGetPixel p s
  | .flipH rf p => Sys2Proof.Machine.execFlipH rf p s
  | .flipV rf p => Sys2Proof.Machine.execFlipV rf p s
  | .clear p => Sys2Proof.Machine.execClear p s
  | .setRot rf p => Sys2Proof.Machine.execSetRot rf p s
  | .getRot p => Sys2Proof.Machine.execGetRot p s
  | .loadFont p => Sys2Proof.Machine.execLoadFont p s
  | .glyph cs => Sys2Proof.Machine.execGlyph cs s
  | .glyphTrim cs => Sys2Proof.Machine.execGlyphTrim cs s
  | .showLetter p => Sys2Proof.Machine.execShowLetter p s
  | .showMessage p => Sys2Proof.Machine.execShowMessage p s

end Sys2Proof.Machine
end

