-- ==== Sys2Proof/Machine/Engine.lean ====
section
/-! DEFINITION. What the step does in each control state, and how a command leaves CMD
(10_state.md R32, R33). -/

namespace Sys2Proof.Machine

/-- The error a rejected header answers (60_exceptions.md R257). -/
def rejectCause : Reject → ErrorCause
  | .reservedOpcode => .reservedOpcode
  | .reservedBits => .reservedBits

/-- IDLE: take the next command's `1 + LEN` words and run or reject it; with fewer words on CMD, wait
for the host (30_encoding.md R67, 10_state.md R32, log 7). -/
def stepIdle (s : State) : Out :=
  match fetch s.cmd with
  | none => .next s
  | some (.command i, rest) => exec i { s with cmd := rest }
  | some (.rejected r, rest) => .next (raise (rejectCause r) { s with cmd := rest })

/-- EXEC with a response to put: put it once RSP has room, wait for the host until then
(10_state.md R32, log 6). -/
def stepRespond (response : List Word) (s : State) : Out :=
  if s.rspFull then .next s else .next (putResponse response s)

/-- The engine out of reset, by control state (10_state.md R33). -/
def stepEngine (s : State) : Out :=
  match s.ctl with
  | .idle => stepIdle s
  | .responding response => stepRespond response s
  | .scrolling c => stepScroll c s
  | .waiting c deadline => stepWait c deadline s

/-- One step: while the reset input is asserted the state is held at its reset values
(70_reset_and_hazards.md R300). -/
def stepOnce (s : State) : Out :=
  if s.resetIn then .next (engineReset s) else stepEngine s

/-- The state with these words next on CMD and the engine ready to take them. -/
def placeCommand (ws : List Word) (s : State) : State :=
  { s with cmd := ws ++ s.cmd, ctl := .idle, resetIn := false }

end Sys2Proof.Machine
end

