-- ==== Sys2Proof/Machine/HostPort.lean ====
section
/-! DEFINITION. What the host can do to the machine between steps (10_state.md R32,
70_reset_and_hazards.md R300, R302). No step calls these. -/

namespace Sys2Proof.Machine

/-- The host sends words on CMD; words sent while reset is asserted are discarded
(10_state.md R32, 70_reset_and_hazards.md R300). -/
def hostSend (ws : List Word) (s : State) : State :=
  if s.resetIn then s else { s with cmd := s.cmd ++ ws }

/-- The host takes up to `n` words from RSP; taking a word makes room (10_state.md R32). -/
def hostTake (n : Nat) (s : State) : List Word × State :=
  (s.rsp.take n, { s with
    rsp := s.rsp.drop n
    rspFull := s.rspFull && (n == 0 || s.rsp.isEmpty) })

/-- RSP has no room for another word from now on; an empty queue has room (10_state.md R32, log 6). -/
def hostFill (s : State) : State := { s with rspFull := !s.rsp.isEmpty }

/-- The host drives the reset input. Asserting it and releasing it both leave the reset values;
releasing an input that is not asserted does nothing (70_reset_and_hazards.md R300). -/
def hostReset (asserted : Bool) (s : State) : State :=
  if asserted || s.resetIn then { engineReset s with resetIn := asserted } else s

/-- Power-up: a reset, with FB holding the device's own launch value, any 128 bytes
(70_reset_and_hazards.md R302, log 1). -/
def powerUp (launch : List Byte) : State :=
  { State.reset with mem := Memory.writeBytes [] 0 (launch.take Config.fbBytes) }

end Sys2Proof.Machine
end

