-- ==== Sys2Proof/Safety.lean ====
section
/-! DEFINITION. The terms claims use: the invariant of the state, what a response is, and what the
device answers. -/

namespace Sys2Proof.Machine

/-- The error status words (60_exceptions.md R251). -/
def errorStatuses : List Word :=
  [0x00000101, 0x00000201, 0x00000301, 0x00000401, 0x00000102, 0x00000103, 0x00000203, 0x00000303,
   0x00000403, 0x00000503, 0x00000603, 0x00000703, 0x00000104, 0x00000204, 0x00000304, 0x00000105,
   0x00000205]

/-- A whole response: status OK with `RLEN` result words, at most the 64 of a frame, or one error
status word with none (30_encoding.md R79, 60_exceptions.md R260). -/
def isResponse : List Word → Bool
  | [] => false
  | st :: results =>
    (decide (results.length ≤ 64) && (st == BitVec.ofNat 16 results.length ++ 0#16)) ||
      (results.isEmpty && errorStatuses.contains st)

/-- A scroll in progress: lines of 8 pixels, and a window of the strip that is shown
(44_text.md R205, R206). -/
def scrollOk (c : Scroll) : Bool :=
  c.strip.all (fun l => l.length == 8) && decide (c.window + 8 < c.strip.length)

/-- A control state whose context has the shape its phase needs. -/
def controlOk : Control → Bool
  | .idle => true
  | .responding ws => isResponse ws
  | .scrolling c => scrollOk c
  | .waiting c _ => scrollOk c

/-- The invariant of the state. -/
structure State.Inv (s : State) : Prop where
  /-- The frame buffer is in canonical form, inside bytes 0..127 (20_memory.md R50). -/
  memCanonical : s.mem.wf = true
  /-- Keys strictly rise and every glyph has 40 pixels (10_state.md R26). -/
  glyphsCanonical : GlyphMap.wfFrom 0 s.glyphs = true
  /-- The store holds at most `GLYPH_CAP` keys (10_state.md R26). -/
  glyphsFit : s.glyphs.length ≤ Config.glyphCap
  /-- A loaded store holds `?` (10_state.md R27). -/
  fallbackStored : s.fontLoaded = true → (s.glyphs.find fallbackKey).isSome = true
  /-- A store that is not loaded is empty (10_state.md R25, R26). -/
  emptyUnloaded : s.fontLoaded = false → s.glyphs = []
  /-- The command context has the shape its phase needs (10_state.md R33). -/
  controlShaped : controlOk s.ctl = true
  /-- A full queue holds a word (10_state.md R32). -/
  fullHolds : s.rspFull = true → s.rsp ≠ []

/-- The next `n` device transactions are answered `ok`. -/
def answersOk : Nat → State → Prop
  | 0, _ => True
  | n + 1, s => nextEvent s = .ok ∧ answersOk n (takeEvent s)

/-- No reset lands while one of the next `n` device transactions is in flight. -/
def noResetPulse : Nat → State → Prop
  | 0, _ => True
  | n + 1, s => nextEvent s ≠ .reset ∧ noResetPulse n (takeEvent s)

/-- No reset lands on a device transaction that a command made on its way from `s` to `t`. Each
transaction adds one to `draws`, so a command that made none meets this on every tape. -/
def noResetBetween (s t : State) : Prop := noResetPulse (t.draws - s.draws) s

/-- What a reset leaves that lands on the `n`-th device transaction from `s` on, `m` in FB: every other
piece of the engine's state at its reset value (70_reset_and_hazards.md R300, R303). The model's own
inputs go on (logs 2, 5, 9). -/
def resetAfter (n : Nat) (m : Memory) (s : State) : State :=
  { State.reset with
    mem := m, resetIn := s.resetIn, now := s.now, events := s.events.drop n, draws := s.draws + n }

/-- A channel in 0..255 as a signed 10-bit integer (30_encoding.md R72). -/
def channelOk (c : BitVec 10) : Prop := 0 ≤ c.toInt ∧ c.toInt ≤ 255

/-- A PIX word all of whose channels are in 0..255: `ValidPix` (42_surface.md R120). -/
def pixOk (p : PixWord) : Prop := channelOk p.r ∧ channelOk p.g ∧ channelOk p.b

/-- A text command's colours and characters have no reserved bit set (30_encoding.md R80). -/
def textUnreserved (t b : PixWord) (cs : List CharWord) : Prop :=
  t.rsv = 0 ∧ b.rsv = 0 ∧ ∀ c ∈ cs, c.rsv = 0

/-- The RGB565 code in physical cell `p` (20_memory.md R51). -/
def codeAt (m : Memory) (p : Nat) : Code565 := m.read (2 * p + 1) ++ m.read (2 * p)

/-- The logical grid that FB shows under a rotation, code by code: entry `x + 8*y` is the code of
logical cell `(x, y)`. -/
def logicalCode (m : Memory) (d : Rotation) (x y : Nat) : Code565 := codeAt m (offset x y d)

/-- Every byte outside `addr .. addr+n-1` reads as it did. -/
def bytesKeptOutside (addr n : Nat) (m m' : Memory) : Prop :=
  ∀ a, a < addr ∨ addr + n ≤ a → m'.read a = m.read a

/-- The payload has a length its command does not accept. -/
def refusesLength {α : Type} : Payload α → Bool
  | .accepted _ => false
  | .badLength _ => true

/-- The command answers BAD_LENGTH (60_exceptions.md R252). -/
def lengthRefused : Instr → Bool
  | .enc p => refusesLength p
  | .dec p => refusesLength p
  | .xlat p => refusesLength p
  | .setPixels p => refusesLength p
  | .getPixels p => refusesLength p
  | .setPixel p => refusesLength p
  | .getPixel p => refusesLength p
  | .flipH _ p => refusesLength p
  | .flipV _ p => refusesLength p
  | .clear p => refusesLength p
  | .setRot _ p => refusesLength p
  | .getRot p => refusesLength p
  | .loadFont p => refusesLength p
  | .glyph _ => false
  | .glyphTrim _ => false
  | .showLetter p => refusesLength p
  | .showMessage p => refusesLength p

/-- What the host sees of a command that ended with response `ws` and no other effect: the words on
RSP, the engine idle, every other field as it was. -/
def answered (ws : List Word) (s : State) : State := { s with ctl := .idle, rsp := s.rsp ++ ws }

/-- The state after one device transaction that put the bytes `m` in FB. -/
def transacted (m : Memory) (s : State) : State :=
  { s with mem := m, events := s.events.tail, draws := s.draws + 1 }

end Sys2Proof.Machine
end

