-- ==== Sys2Proof/Certificates/Slice0/Obligations.lean ====
section
/-! DEFINITION. The statements about the engine, for the provers. Each formalises rules of spec/; its
docstring names them. `exec` runs a command whose words have left CMD. A response is stated with
`putResponse`; `EngineWaitsForHost` says what that operation does. The fields `events`, `draws`, `now`,
`resetIn` and `rspFull` are the model's own (logs 2, 5, 6, 9); `transacted`, `answersOk`,
`noResetPulse` and `noResetBetween` speak of the first two, the device oracle. -/

open Sys2Proof Sys2Proof.Machine

/-! ### Encoding -/

/-- Words written out from the encodings of 30_encoding.md R66, R72 to R78 and R84 decode to the
commands they stand for, one or more of each family. -/
def Obligations.WrittenOutWordsDecode : Prop :=
  fetch [0x00010001, 0x01E0500A] = some (.command (.enc (.accepted [⟨0, 30, 20, 10⟩])), []) ∧
  fetch [0x00010002, 0x0000ABCD] = some (.command (.dec (.accepted [⟨0, 0xABCD⟩])), []) ∧
  fetch [0x00010003, 0x005A0503] = some (.command (.xlat (.accepted ⟨90, 5, 3⟩)), []) ∧
  fetch [0x00010118, 0x0000005A] = some (.command (.setRot true (.accepted ⟨0, 90⟩)), []) ∧
  fetch [0x00020012, 0x00000503, 0x01E0500A, 7] =
    some (.command (.setPixel (.accepted (⟨0, 5, 3⟩, ⟨0, 30, 20, 10⟩))), [7]) ∧
  fetch [0x00000114] = some (.command (.flipH true (.accepted ())), []) ∧
  fetch [0x00010021, 0x0000003F] = some (.command (.glyph [⟨0, 0x3F⟩]), []) ∧
  fetch [0x00030030, 0x000000FF, 0x00000000, 0x00000041] =
    some (.command (.showLetter (.accepted ⟨⟨0, 0, 0, 255⟩, ⟨0, 0, 0, 0⟩, [⟨0, 0x41⟩]⟩)), [])

/-- Decoding the words of a well-formed command gives that command back and leaves what follows it:
no bit of an encoding is dropped (30_encoding.md R66, R70, R72 to R78). -/
def Obligations.EncodedCommandDecodesBack : Prop :=
  ∀ (i : Instr) (rest : List Word), i.WellFormed = true →
    fetch (encode i ++ rest) = some (.command i, rest)

/-- A header and its `LEN` words that decode to a command are the words of that command, and it is
well formed: each command has one encoding (30_encoding.md R66, R70). -/
def Obligations.DecodedCommandEncodesBack : Prop :=
  ∀ (h : Word) (ws : List Word) (i : Instr), ws.length = headerLen h → decode h ws = .command i →
    encode i = h :: ws ∧ i.WellFormed = true

/-- 30_encoding.md R71: the reserved opcodes are the listed ones, and a command with one answers
IllegalCommand RESERVED_OPCODE after its payload words are taken. -/
def Obligations.ReservedOpcodeIsIllegalCommand : Prop :=
  ∀ (h : Word) (ws : List Word),
    let reserved : Prop := (headerOpc h).toNat = 0x00 ∨
      (0x04 ≤ (headerOpc h).toNat ∧ (headerOpc h).toNat ≤ 0x0F) ∨ (headerOpc h).toNat = 0x17 ∨
      (0x1A ≤ (headerOpc h).toNat ∧ (headerOpc h).toNat ≤ 0x1F) ∨
      (0x23 ≤ (headerOpc h).toNat ∧ (headerOpc h).toNat ≤ 0x2F) ∨ 0x32 ≤ (headerOpc h).toNat
    (decode h ws = .rejected .reservedOpcode ↔ reserved) ∧
    ∀ (s : State) (rest : List Word), reserved → s.resetIn = false → s.ctl = .idle →
      ws.length = headerLen h → s.cmd = h :: (ws ++ rest) →
      step s = .next (putResponse [0x00000105] { s with cmd := rest })

/-- 30_encoding.md R69, 60_exceptions.md R257: with an opcode of the table, a header bit of 15:9 set, or
`RF` set on an opcode other than FLIP_H, FLIP_V and SET_ROT, is IllegalCommand RESERVED_BITS, and
no other header is. -/
def Obligations.ReservedHeaderBitIsIllegalCommand : Prop :=
  ∀ (h : Word) (ws : List Word), decode h ws ≠ .rejected .reservedOpcode →
    (decode h ws = .rejected .reservedBits ↔ headerReserved h ≠ 0 ∨
      (headerRf h = true ∧ headerOpc h ≠ 0x14 ∧ headerOpc h ≠ 0x15 ∧ headerOpc h ≠ 0x18)) ∧
    ∀ (s : State) (rest : List Word), decode h ws = .rejected .reservedBits → s.resetIn = false →
      s.ctl = .idle → ws.length = headerLen h → s.cmd = h :: (ws ++ rest) →
      step s = .next (putResponse [0x00000205] { s with cmd := rest })

/-- 60_exceptions.md R252: which payload lengths each opcode refuses, LOAD_FONT's COUNT included, and
that a refused length answers BAD_LENGTH with nothing else done; GLYPH and GLYPH_TRIM refuse none. -/
def Obligations.WrongLengthIsBadLength : Prop :=
  ∀ (h : Word) (ws : List Word) (i : Instr), decode h ws = .command i →
    (lengthRefused i = true ↔
      (((headerOpc h).toNat = 0x01 ∨ (headerOpc h).toNat = 0x02) ∧ ws.length ≠ 1 ∧ ws.length ≠ 64) ∨
      (((headerOpc h).toNat = 0x03 ∨ (headerOpc h).toNat = 0x13 ∨ (headerOpc h).toNat = 0x18) ∧
        ws.length ≠ 1) ∨
      ((headerOpc h).toNat = 0x10 ∧ ws.length ≠ 64) ∨
      (((headerOpc h).toNat = 0x11 ∨ (headerOpc h).toNat = 0x14 ∨ (headerOpc h).toNat = 0x15 ∨
        (headerOpc h).toNat = 0x19) ∧ ws.length ≠ 0) ∨
      ((headerOpc h).toNat = 0x12 ∧ ws.length ≠ 2) ∨
      ((headerOpc h).toNat = 0x16 ∧ ws.length ≠ 0 ∧ ws.length ≠ 1) ∨
      ((headerOpc h).toNat = 0x20 ∧ ∀ a, ws.head? = some a → ws.length - 1 < a.toNat) ∨
      ((headerOpc h).toNat = 0x30 ∧ ws.length < 2) ∨ ((headerOpc h).toNat = 0x31 ∧ ws.length < 3)) ∧
    ∀ s : State, lengthRefused i = true → exec i s = .next (putResponse [0x00000101] s)

/-! ### The step -/

/-- When the words at the head of CMD are a command, an idle engine's step is that command's meaning on
the state with those words taken (10_state.md R22, R32). That this is one step is the model's choice
(log 4). -/
def Obligations.StepRunsTheDecodedCommand : Prop :=
  ∀ (s : State) (i : Instr) (rest : List Word), s.resetIn = false → s.ctl = .idle →
    fetch s.cmd = some (.command i, rest) → step s = exec i { s with cmd := rest }

/-- 30_encoding.md R67: a command takes exactly `1 + LEN` words from CMD whatever its outcome, reserved
opcodes and length errors included; a reset that lands on one of the transactions it made discards
what follows too (70_reset_and_hazards.md R303). -/
def Obligations.CommandTakesOnePlusLenWords : Prop :=
  ∀ (s : State) (h : Word) (ws rest : List Word), s.resetIn = false → s.ctl = .idle →
    s.cmd = h :: (ws ++ rest) → ws.length = headerLen h →
    ∃ t, step s = .next t ∧ (noResetBetween s t → t.cmd = rest) ∧
      (¬ noResetBetween s t → t.cmd = [])

/-- 10_state.md R32: an engine whose command has not wholly arrived waits, and so does one whose
response finds no room on RSP; with room, the whole response goes on RSP and the engine is idle. That
words stay on CMD until a command's last has come, and that a response goes on RSP whole, are the
model's choices (logs 6, 7). -/
def Obligations.EngineWaitsForHost : Prop :=
  (∀ s : State, s.resetIn = false → s.ctl = .idle →
    (s.cmd = [] ∨ ∃ h ws, s.cmd = h :: ws ∧ ws.length < headerLen h) → step s = .next s) ∧
  (∀ (s : State) (ws : List Word), s.resetIn = false → s.ctl = .responding ws →
    (s.rspFull = true → step s = .next s) ∧
    (s.rspFull = false → step s = .next { s with ctl := .idle, rsp := s.rsp ++ ws })) ∧
  (∀ (s : State) (ws : List Word),
    (s.rspFull = true → putResponse ws s = { s with ctl := .responding ws }) ∧
    (s.rspFull = false → putResponse ws s = { s with ctl := .idle, rsp := s.rsp ++ ws }))

/-- No step ever faults or is refused: every command of every state has its effect, and there is no
access fault (20_memory.md R56, R64). -/
def Obligations.EveryStepAnswersNextState : Prop :=
  (∀ s : State, ∃ t, step s = .next t) ∧ ∀ (i : Instr) (s : State), ∃ t, exec i s = .next t

/-- Every step keeps the invariant: the frame buffer's canonical form, the shape and size of the glyph
store, the fallback glyph of a loaded store, and the shape of the command context
(10_state.md R26, R27, R30, R33). The canonical forms are the model's choice (logs 1, 12). -/
def Obligations.StepKeepsInvariant : Prop :=
  ∀ s t : State, s.Inv → step s = .next t → t.Inv

/-- The state after reset meets the invariant. Its memory lists nothing: the model's choice (log 1). -/
def Obligations.ResetStateMeetsInvariant : Prop := State.reset.Inv

/-- What the host can do between steps keeps the invariant, power-up with any launch value included
(10_state.md R32, 70_reset_and_hazards.md R300, R302). The actions' form is the model's (logs 5, 6). -/
def Obligations.HostActionsKeepInvariant : Prop :=
  ∀ s : State, s.Inv →
    (∀ ws, (hostSend ws s).Inv) ∧ (∀ n, (hostTake n s).2.Inv) ∧ (hostFill s).Inv ∧
    (∀ b, (hostReset b s).Inv) ∧ ∀ launch, (powerUp launch).Inv

/-- 60_exceptions.md R250, R259: a command, or a window of a scroll, whose response is an error status
leaves every register as it was; unless the error is a DeviceError it leaves the frame buffer and
the device untouched too. -/
def Obligations.FailedCommandWritesNoRegister : Prop :=
  ∀ (s t : State) (st : Word), s.rspFull = false → t.rsp = s.rsp ++ [st] → st.extractLsb' 0 8 ≠ 0 →
    ((∃ i, exec i s = .next t) ∨ (s.resetIn = false ∧ (∃ c, s.ctl = .scrolling c) ∧
      step s = .next t)) →
    t.rot = s.rot ∧ t.fontLoaded = s.fontLoaded ∧ t.glyphs = s.glyphs ∧ t.ctl = .idle ∧
    t.cmd = s.cmd ∧
    (st.extractLsb' 0 8 ≠ 4 → t.mem = s.mem ∧ t.events = s.events ∧ t.draws = s.draws)

/-- 10_state.md R24: ROT is written only by SET_ROT, and only when it completes OK; no text command, at
its start or in any of its later steps, writes it. Reset is no outcome of a command: of the device's
answers, only a reset on a transaction that the command or window made is excluded. -/
def Obligations.OnlySetRotWritesRotation : Prop :=
  (∀ (i : Instr) (s t : State), (∀ rf p, i ≠ .setRot rf p) →
    exec i s = .next t → noResetBetween s t → t.rot = s.rot) ∧
  (∀ s t : State, s.resetIn = false → s.ctl ≠ .idle →
    ((∃ c, s.ctl = .scrolling c) → nextEvent s ≠ .reset) → step s = .next t → t.rot = s.rot) ∧
  ∀ (rf : Bool) (p : Payload DegWord) (s t : State), s.rspFull = false →
    exec (.setRot rf p) s = .next t → noResetBetween s t → t.rsp ≠ s.rsp ++ [0x00000000] → t.rot = s.rot

/-- 10_state.md R25, R26: FONT_LOADED and GLYPHS are written only by LOAD_FONT, and only when it
completes OK, which sets FONT_LOADED. Of the device's answers, only a reset on a transaction that the
command or window made is excluded. -/
def Obligations.OnlyLoadFontWritesGlyphStore : Prop :=
  (∀ (i : Instr) (s t : State), (∀ p, i ≠ .loadFont p) → exec i s = .next t →
    noResetBetween s t → t.glyphs = s.glyphs ∧ t.fontLoaded = s.fontLoaded) ∧
  (∀ s t : State, s.resetIn = false → s.ctl ≠ .idle →
    ((∃ c, s.ctl = .scrolling c) → nextEvent s ≠ .reset) → step s = .next t →
    t.glyphs = s.glyphs ∧ t.fontLoaded = s.fontLoaded) ∧
  ∀ (p : Payload FontOperands) (s t : State), s.rspFull = false →
    exec (.loadFont p) s = .next t →
    (t.rsp = s.rsp ++ [0x00000000] ∧ s.fontLoaded = false ∧ t.fontLoaded = true) ∨
    (t.rsp ≠ s.rsp ++ [0x00000000] ∧ t.glyphs = s.glyphs ∧ t.fontLoaded = s.fontLoaded)

/-- 60_exceptions.md R260, 30_encoding.md R79: a well-formed command answers exactly one whole response,
OK with `RLEN` result words or one error status of 60_exceptions.md R251 with none, but for a
SHOW_MESSAGE that starts its scroll and answers at its end. Of the device's
answers, only a reset on a transaction that the command made is excluded. -/
def Obligations.CommandGivesOneResponse : Prop :=
  ∀ (i : Instr) (s t : State), i.WellFormed = true → s.Inv → s.rspFull = false →
    exec i s = .next t → noResetBetween s t →
    (∃ ws, isResponse ws = true ∧ t.rsp = s.rsp ++ ws ∧ t.ctl = .idle) ∨
    (∃ p c, i = .showMessage p ∧ t.ctl = .scrolling c ∧ t.rsp = s.rsp)

/-- 10_state.md R35: ENC, DEC, XLAT, GET_ROT, GLYPH and GLYPH_TRIM write no state: on every operand they
answer a response and nothing else changes, no byte of the frame buffer included. -/
def Obligations.ReadOnlyCommandsChangeNothing : Prop :=
  ∀ (s : State) (i : Instr),
    ((∃ p, i = .enc p) ∨ (∃ p, i = .dec p) ∨ (∃ p, i = .xlat p) ∨ (∃ p, i = .getRot p) ∨
      (∃ cs, i = .glyph cs) ∨ ∃ cs, i = .glyphTrim cs) →
    ∃ ws t, exec i s = .next t ∧ t = putResponse ws s ∧ ∀ a, t.mem.read a = s.mem.read a

/-! ### PixelCodec -/

/-- 40_codec.md R85: `Encode565` is the three fields in place; they never overlap, so `|` equals `+`. -/
def Obligations.Encode565IsThreeFields : Prop :=
  ∀ p : Pixel,
    encode565 p = p.r.extractLsb' 3 5 ++ (p.g.extractLsb' 2 6 ++ p.b.extractLsb' 3 5) ∧
    (encode565 p).toNat =
      p.r.toNat / 8 * 2048 + (p.g.toNat / 4 * 32 + p.b.toNat / 8) ∧
    ((p.r.setWidth 16 &&& 0xF8#16) <<< 8) &&& ((p.g.setWidth 16 &&& 0xFC#16) <<< 3) = 0 ∧
    ((p.r.setWidth 16 &&& 0xF8#16) <<< 8) &&& (p.b.setWidth 16 >>> 3) = 0 ∧
    ((p.g.setWidth 16 &&& 0xFC#16) <<< 3) &&& (p.b.setWidth 16 >>> 3) = 0

/-- 40_codec.md R86: `Decode565` is the three fields with zeros in the vacated low bits, so red and blue
are multiples of 8 and green of 4. -/
def Obligations.Decode565IsThreeFields : Prop :=
  ∀ c : Code565,
    (decode565 c).r = c.extractLsb' 11 5 ++ 0#3 ∧ (decode565 c).g = c.extractLsb' 5 6 ++ 0#2 ∧
    (decode565 c).b = c.extractLsb' 0 5 ++ 0#3 ∧
    (decode565 c).r.toNat % 8 = 0 ∧ (decode565 c).g.toNat % 4 = 0 ∧ (decode565 c).b.toNat % 8 = 0

/-- 40_codec.md R87: the four codec laws. -/
def Obligations.CodecRoundTripLaws : Prop :=
  (∀ p : Pixel, decode565 (encode565 p) = ⟨p.r &&& 0xF8, p.g &&& 0xFC, p.b &&& 0xF8⟩) ∧
  (∀ c : Code565, encode565 (decode565 c) = c) ∧
  (∀ p : Pixel, decode565 (encode565 (decode565 (encode565 p))) = decode565 (encode565 p)) ∧
  ∀ p : Pixel, decode565 (encode565 p) = p ↔
    p.r.toNat % 8 = 0 ∧ p.g.toNat % 4 = 0 ∧ p.b.toNat % 8 = 0

/-- 40_codec.md R88: cell `p` of a packed frame is bytes `2p` and `2p+1`, the low byte first; unpacking
quantizes each pixel of a packed grid, and packing an unpacked frame gives its 128 bytes back. -/
def Obligations.FramePackingIsLittleEndian : Prop :=
  (∀ (q : Grid) (p : Nat) (v : Pixel), q.length = 64 → q[p]? = some v →
    (encodeFrame q)[2 * p]? = some ((encode565 v).extractLsb' 0 8) ∧
    (encodeFrame q)[2 * p + 1]? = some ((encode565 v).extractLsb' 8 8)) ∧
  (∀ (bs : List Byte) (p : Nat) (lo hi : Byte), bs.length = 128 → bs[2 * p]? = some lo →
    bs[2 * p + 1]? = some hi → (decodeFrame bs)[p]? = some (decode565 (hi ++ lo))) ∧
  (∀ q : Grid, q.length = 64 →
    decodeFrame (encodeFrame q) = q.map fun p => ⟨p.r &&& 0xF8, p.g &&& 0xFC, p.b &&& 0xF8⟩) ∧
  ∀ bs : List Byte, bs.length = 128 → encodeFrame (decodeFrame bs) = bs

/-- 30_encoding.md R72, 42_surface.md R120: a channel is a signed 10-bit integer; a PIX word is valid
when all three are in 0..255, and its pixel then holds them; a result PIX word holds its pixel,
reserved bits 0. -/
def Obligations.PixelOperandsAreSignedChannels : Prop :=
  (∀ p : PixWord, validPix p = true ↔ pixOk p) ∧
  (∀ p : PixWord, pixOk p → ((pixelOf p).r.toNat : Int) = p.r.toInt ∧
    ((pixelOf p).g.toNat : Int) = p.g.toInt ∧ ((pixelOf p).b.toNat : Int) = p.b.toInt) ∧
  ∀ q : Pixel, PixWord.ofWord (pixResult q) =
      ⟨0, BitVec.ofNat 10 q.b.toNat, BitVec.ofNat 10 q.g.toNat, BitVec.ofNat 10 q.r.toNat⟩ ∧
    pixelOf (PixWord.ofWord (pixResult q)) = q

/-- 40_codec.md R90: ENC answers BAD_LENGTH, then RESERVED_BITS, then CHANNEL_RANGE, and else one code
for each pixel; it changes nothing else. -/
def Obligations.EncAnswersCodes : Prop :=
  ∀ s : State,
    (∀ ws, exec (.enc (.badLength ws)) s = .next (putResponse [0x00000101] s)) ∧
    ∀ ps : List PixWord,
      ((∃ p ∈ ps, p.rsv ≠ 0) →
        exec (.enc (.accepted ps)) s = .next (putResponse [0x00000205] s)) ∧
      ((∀ p ∈ ps, p.rsv = 0) → (∃ p ∈ ps, ¬ pixOk p) →
        exec (.enc (.accepted ps)) s = .next (putResponse [0x00000201] s)) ∧
      ((∀ p ∈ ps, p.rsv = 0 ∧ pixOk p) →
        exec (.enc (.accepted ps)) s = .next (putResponse ((BitVec.ofNat 16 ps.length ++ 0#16) ::
          ps.map fun p => (encode565 (pixelOf p)).setWidth 32) s))

/-- 40_codec.md R91: DEC answers BAD_LENGTH, then RESERVED_BITS, and else one PIX word for each code; it
changes nothing else. -/
def Obligations.DecAnswersPixels : Prop :=
  ∀ s : State,
    (∀ ws, exec (.dec (.badLength ws)) s = .next (putResponse [0x00000101] s)) ∧
    ∀ cs : List CodeWord,
      ((∃ c ∈ cs, c.rsv ≠ 0) →
        exec (.dec (.accepted cs)) s = .next (putResponse [0x00000205] s)) ∧
      ((∀ c ∈ cs, c.rsv = 0) →
        exec (.dec (.accepted cs)) s = .next (putResponse ((BitVec.ofNat 16 cs.length ++ 0#16) ::
          cs.map fun c => pixResult (decode565 c.code)) s))

/-! ### RotationMap -/

/-- 41_rotation.md R100, R101: the offset formulas with the corrected constants, and the physical row and
column each logical cell lands at. -/
def Obligations.OffsetFormulasAndPlaces : Prop :=
  ∀ x y : Nat, x < 8 → y < 8 →
    ((offset x y .deg0 : Int) = x + 8 * y ∧ (offset x y .deg90 : Int) = 7 + 8 * x - y ∧
      (offset x y .deg180 : Int) = 63 - x - 8 * y ∧ (offset x y .deg270 : Int) = 56 - 8 * x + y) ∧
    ((offset x y .deg0 / 8, offset x y .deg0 % 8) = (y, x) ∧
      (offset x y .deg90 / 8, offset x y .deg90 % 8) = (x, 7 - y) ∧
      (offset x y .deg180 / 8, offset x y .deg180 % 8) = (7 - y, 7 - x) ∧
      (offset x y .deg270 / 8, offset x y .deg270 % 8) = (7 - x, y))

/-- 41_rotation.md R102, R103: for each rotation the offset maps the 64 logical cells one to one onto
0..63, with the inverse of R102's table, and the four maps are the powers of one quarter turn
`T(col, row) = (7 - row, col)`. -/
def Obligations.OffsetIsQuarterTurnBijection : Prop :=
  (∀ (d : Rotation) (p : Nat), p < 64 →
    ∃! c : Nat × Nat, c.1 < 8 ∧ c.2 < 8 ∧ offset c.1 c.2 d = p) ∧
  (∀ p, p < 64 → offset (p % 8) (p / 8) .deg0 = p ∧ offset (p / 8) (7 - p % 8) .deg90 = p ∧
    offset (7 - p % 8) (7 - p / 8) .deg180 = p ∧ offset (7 - p / 8) (p % 8) .deg270 = p) ∧
  (∀ (d : Rotation) (x y : Nat), x < 8 → y < 8 → offset x y d < 64 ∧
    (offset x y d % 8, offset x y d / 8) =
      (fun c : Nat × Nat => (7 - c.2, c.1))^[d.sel.toNat] (x, y)) ∧
  ∀ c : Nat × Nat, c.1 < 8 → c.2 < 8 → (fun c : Nat × Nat => (7 - c.2, c.1))^[4] c = c

/-- 41_rotation.md R105, R106: the bulk rotation moves each entry as the cell map does, the two
directions are inverse on every grid, and going from one rotation to another moves each entry from
its old cell to its new one. -/
def Obligations.BulkRotationAgreesWithCells : Prop :=
  ∀ (g : Grid) (d : Rotation), g.length = 64 →
    (∀ x y : Nat, x < 8 → y < 8 →
      (toPhysical g d)[offset x y d]? = g[x + 8 * y]? ∧
      (toLogical g d)[x + 8 * y]? = g[offset x y d]?) ∧
    toLogical (toPhysical g d) d = g ∧ toPhysical (toLogical g d) d = g ∧
    ∀ (e : Rotation) (x y : Nat), x < 8 → y < 8 →
      (toPhysical (toLogical g d) e)[offset x y e]? = g[offset x y d]?

/-- 41_rotation.md R107: XLAT answers BAD_LENGTH, then INVALID_ROTATION, then COORD_RANGE, and else the
physical cell; it changes nothing else. -/
def Obligations.XlatAnswersCell : Prop :=
  ∀ s : State,
    (∀ ws, exec (.xlat (.badLength ws)) s = .next (putResponse [0x00000101] s)) ∧
    ∀ w : XydWord,
      ((∀ d : Rotation, w.deg.toNat ≠ d.deg) →
        exec (.xlat (.accepted w)) s = .next (putResponse [0x00000102] s)) ∧
      ∀ d : Rotation, w.deg.toNat = d.deg →
        (7 < w.x.toNat ∨ 7 < w.y.toNat →
          exec (.xlat (.accepted w)) s = .next (putResponse [0x00000301] s)) ∧
        (w.x.toNat ≤ 7 → w.y.toNat ≤ 7 → exec (.xlat (.accepted w)) s =
          .next (putResponse [0x00010000, BitVec.ofNat 32 (offset w.x.toNat w.y.toNat d)] s))

/-- 41_rotation.md R108, the checks and `RF = 0`: SET_ROT answers BAD_LENGTH, then RESERVED_BITS, then
INVALID_ROTATION; else, without a redraw, it writes ROT and nothing else. -/
def Obligations.SetRotWithoutRedrawWritesRot : Prop :=
  ∀ (s : State) (rf : Bool),
    (∀ ws, exec (.setRot rf (.badLength ws)) s = .next (putResponse [0x00000101] s)) ∧
    ∀ w : DegWord,
      (w.rsv ≠ 0 → exec (.setRot rf (.accepted w)) s = .next (putResponse [0x00000205] s)) ∧
      (w.rsv = 0 → (∀ d : Rotation, w.deg.toNat ≠ d.deg) →
        exec (.setRot rf (.accepted w)) s = .next (putResponse [0x00000102] s)) ∧
      ∀ d : Rotation, w.rsv = 0 → w.deg.toNat = d.deg →
        exec (.setRot false (.accepted w)) s =
          .next (putResponse [0x00000000] { s with rot := d })

/-- 41_rotation.md R108 with `RF = 1` and both transactions answered: every cell's code moves unchanged
from its old physical cell to its new one, and ROT is written. -/
def Obligations.SetRotRedrawMovesCodes : Prop :=
  ∀ (s : State) (w : DegWord) (d : Rotation), w.rsv = 0 → w.deg.toNat = d.deg → answersOk 2 s →
    ∃ m, exec (.setRot true (.accepted w)) s = .next (putResponse [0x00000000]
        { transacted m (transacted s.mem s) with rot := d }) ∧
      (∀ x y, x < 8 → y < 8 → codeAt m (offset x y d) = codeAt s.mem (offset x y s.rot)) ∧
      bytesKeptOutside 0 128 s.mem m

/-- 41_rotation.md R110: GET_ROT answers BAD_LENGTH, or `90 * ROTSEL`; it changes nothing else. -/
def Obligations.GetRotAnswersDegrees : Prop :=
  ∀ s : State,
    (∀ ws, exec (.getRot (.badLength ws)) s = .next (putResponse [0x00000101] s)) ∧
    exec (.getRot (.accepted ())) s =
      .next (putResponse [0x00010000, BitVec.ofNat 32 (90 * s.rot.sel.toNat)] s) ∧
    (s.rot = .deg0 ∨ s.rot = .deg90 ∨ s.rot = .deg180 ∨ s.rot = .deg270)

/-- 41_rotation.md R109: with no device error, from `ROT = 0`, SET_ROT 90 then SET_ROT 0, both with or
both without a redraw, leaves every byte of the frame buffer and ROT as they were; with a redraw the
logical picture is the same after each command. -/
def Obligations.RotationRoundTripRestoresFrame : Prop :=
  ∀ (s : State) (rf : Bool), s.rot = .deg0 → answersOk 4 s →
    ∃ t u, exec (.setRot rf (.accepted ⟨0, 90⟩)) s = .next t ∧
      exec (.setRot rf (.accepted ⟨0, 0⟩)) t = .next u ∧
      t.rot = .deg90 ∧ u.rot = .deg0 ∧ (∀ a, u.mem.read a = s.mem.read a) ∧
      (rf = true → ∀ x y, x < 8 → y < 8 →
        logicalCode t.mem t.rot x y = logicalCode s.mem s.rot x y)

/-! ### MatrixSurface -/

/-- 42_surface.md R124: SET_PIXELS answers BAD_LENGTH, then RESERVED_BITS, then CHANNEL_RANGE; else, its
write answered, cell `(x, y)` holds the code of pixel `x + 8*y` and no byte outside FB's 128 changes. -/
def Obligations.SetPixelsWritesFrame : Prop :=
  ∀ s : State,
    (∀ ws, exec (.setPixels (.badLength ws)) s = .next (putResponse [0x00000101] s)) ∧
    ∀ ps : List PixWord,
      ((∃ p ∈ ps, p.rsv ≠ 0) →
        exec (.setPixels (.accepted ps)) s = .next (putResponse [0x00000205] s)) ∧
      ((∀ p ∈ ps, p.rsv = 0) → (∃ p ∈ ps, ¬ pixOk p) →
        exec (.setPixels (.accepted ps)) s = .next (putResponse [0x00000201] s)) ∧
      ((∀ p ∈ ps, p.rsv = 0 ∧ pixOk p) → ps.length = 64 → answersOk 1 s →
        ∃ m, exec (.setPixels (.accepted ps)) s =
            .next (putResponse [0x00000000] (transacted m s)) ∧
          (∀ x y p, x < 8 → y < 8 → ps[x + 8 * y]? = some p →
            codeAt m (offset x y s.rot) = encode565 (pixelOf p)) ∧
          bytesKeptOutside 0 128 s.mem m)

/-- 42_surface.md R125: GET_PIXELS answers BAD_LENGTH; else, its read answered, 64 PIX words, word
`x + 8*y` decoding the code of cell `(x, y)`, and the frame buffer unchanged. -/
def Obligations.GetPixelsReadsFrame : Prop :=
  ∀ s : State,
    (∀ ws, exec (.getPixels (.badLength ws)) s = .next (putResponse [0x00000101] s)) ∧
    (answersOk 1 s → ∃ ws, exec (.getPixels (.accepted ())) s =
        .next (putResponse (0x00400000 :: ws) (transacted s.mem s)) ∧ ws.length = 64 ∧
      ∀ x y, x < 8 → y < 8 →
        ws[x + 8 * y]? = some (pixResult (decode565 (logicalCode s.mem s.rot x y))))

/-- 42_surface.md R126: SET_PIXEL answers BAD_LENGTH, RESERVED_BITS, COORD_RANGE, CHANNEL_RANGE in that
order; else, its write answered, it stores the code in the two bytes of its cell and nowhere else. -/
def Obligations.SetPixelWritesOneCell : Prop :=
  ∀ s : State,
    (∀ ws, exec (.setPixel (.badLength ws)) s = .next (putResponse [0x00000101] s)) ∧
    ∀ (a : XyWord) (c : PixWord),
      (a.rsv ≠ 0 ∨ c.rsv ≠ 0 →
        exec (.setPixel (.accepted (a, c))) s = .next (putResponse [0x00000205] s)) ∧
      (a.rsv = 0 → c.rsv = 0 → 7 < a.x.toNat ∨ 7 < a.y.toNat →
        exec (.setPixel (.accepted (a, c))) s = .next (putResponse [0x00000301] s)) ∧
      (a.rsv = 0 → c.rsv = 0 → a.x.toNat ≤ 7 → a.y.toNat ≤ 7 → ¬ pixOk c →
        exec (.setPixel (.accepted (a, c))) s = .next (putResponse [0x00000201] s)) ∧
      (a.rsv = 0 → c.rsv = 0 → a.x.toNat ≤ 7 → a.y.toNat ≤ 7 → pixOk c → answersOk 1 s →
        ∃ m, exec (.setPixel (.accepted (a, c))) s =
            .next (putResponse [0x00000000] (transacted m s)) ∧
          m.read (2 * offset a.x.toNat a.y.toNat s.rot) =
            (encode565 (pixelOf c)).extractLsb' 0 8 ∧
          m.read (2 * offset a.x.toNat a.y.toNat s.rot + 1) =
            (encode565 (pixelOf c)).extractLsb' 8 8 ∧
          bytesKeptOutside (2 * offset a.x.toNat a.y.toNat s.rot) 2 s.mem m)

/-- 42_surface.md R127: GET_PIXEL answers BAD_LENGTH, RESERVED_BITS, COORD_RANGE in that order; else, its
read answered, the decoded pixel of its cell, the frame buffer unchanged. -/
def Obligations.GetPixelReadsOneCell : Prop :=
  ∀ s : State,
    (∀ ws, exec (.getPixel (.badLength ws)) s = .next (putResponse [0x00000101] s)) ∧
    ∀ a : XyWord,
      (a.rsv ≠ 0 → exec (.getPixel (.accepted a)) s = .next (putResponse [0x00000205] s)) ∧
      (a.rsv = 0 → 7 < a.x.toNat ∨ 7 < a.y.toNat →
        exec (.getPixel (.accepted a)) s = .next (putResponse [0x00000301] s)) ∧
      (a.rsv = 0 → a.x.toNat ≤ 7 → a.y.toNat ≤ 7 → answersOk 1 s →
        exec (.getPixel (.accepted a)) s = .next (putResponse
          [0x00010000, pixResult (decode565 (logicalCode s.mem s.rot a.x.toNat a.y.toNat))]
          (transacted s.mem s)))

/-- 42_surface.md R129, R130: FLIP_H answers BAD_LENGTH; else 64 PIX words, word `x + 8*y` the pixel of
cell `(7 - x, y)`. Without a redraw the frame buffer stays; with one, cell `(x, y)` gets the code of
cell `(7 - x, y)`. -/
def Obligations.FlipHMirrorsEachRow : Prop :=
  ∀ s : State,
    (∀ rf ws, exec (.flipH rf (.badLength ws)) s = .next (putResponse [0x00000101] s)) ∧
    (answersOk 1 s → ∃ ws, ws.length = 64 ∧
      (∀ x y, x < 8 → y < 8 →
        ws[x + 8 * y]? = some (pixResult (decode565 (logicalCode s.mem s.rot (7 - x) y)))) ∧
      exec (.flipH false (.accepted ())) s =
        .next (putResponse (0x00400000 :: ws) (transacted s.mem s)) ∧
      (answersOk 2 s → ∃ m, exec (.flipH true (.accepted ())) s =
          .next (putResponse (0x00400000 :: ws) (transacted m (transacted s.mem s))) ∧
        (∀ x y, x < 8 → y < 8 →
          logicalCode m s.rot x y = logicalCode s.mem s.rot (7 - x) y) ∧
        bytesKeptOutside 0 128 s.mem m))

/-- 42_surface.md R129, R131: FLIP_V is FLIP_H with the row order reversed: `(x, 7 - y)` for
`(7 - x, y)`. -/
def Obligations.FlipVReversesRowOrder : Prop :=
  ∀ s : State,
    (∀ rf ws, exec (.flipV rf (.badLength ws)) s = .next (putResponse [0x00000101] s)) ∧
    (answersOk 1 s → ∃ ws, ws.length = 64 ∧
      (∀ x y, x < 8 → y < 8 →
        ws[x + 8 * y]? = some (pixResult (decode565 (logicalCode s.mem s.rot x (7 - y))))) ∧
      exec (.flipV false (.accepted ())) s =
        .next (putResponse (0x00400000 :: ws) (transacted s.mem s)) ∧
      (answersOk 2 s → ∃ m, exec (.flipV true (.accepted ())) s =
          .next (putResponse (0x00400000 :: ws) (transacted m (transacted s.mem s))) ∧
        (∀ x y, x < 8 → y < 8 →
          logicalCode m s.rot x y = logicalCode s.mem s.rot x (7 - y)) ∧
        bytesKeptOutside 0 128 s.mem m))

/-- 42_surface.md R129, R130: two FLIP_H in a row with a redraw, or two FLIP_V, leave every byte of the
frame buffer as it was when no transaction fails. -/
def Obligations.FlipTwiceRestoresFrame : Prop :=
  ∀ s : State, answersOk 4 s →
    (∃ t u, exec (.flipH true (.accepted ())) s = .next t ∧
      exec (.flipH true (.accepted ())) t = .next u ∧ ∀ a, u.mem.read a = s.mem.read a) ∧
    ∃ t u, exec (.flipV true (.accepted ())) s = .next t ∧
      exec (.flipV true (.accepted ())) t = .next u ∧ ∀ a, u.mem.read a = s.mem.read a

/-- 42_surface.md R132: CLEAR answers BAD_LENGTH, then RESERVED_BITS, then CHANNEL_RANGE; else, its write
answered, all 64 cells hold the code of its colour, black when none is given. -/
def Obligations.ClearFillsFrame : Prop :=
  ∀ s : State,
    (∀ ws, exec (.clear (.badLength ws)) s = .next (putResponse [0x00000101] s)) ∧
    (∀ c : PixWord,
      (c.rsv ≠ 0 → exec (.clear (.accepted (some c))) s = .next (putResponse [0x00000205] s)) ∧
      (c.rsv = 0 → ¬ pixOk c →
        exec (.clear (.accepted (some c))) s = .next (putResponse [0x00000201] s)) ∧
      (c.rsv = 0 → pixOk c → answersOk 1 s →
        ∃ m, exec (.clear (.accepted (some c))) s =
            .next (putResponse [0x00000000] (transacted m s)) ∧
          (∀ p, p < 64 → codeAt m p = encode565 (pixelOf c)) ∧ bytesKeptOutside 0 128 s.mem m)) ∧
    (answersOk 1 s → ∃ m, exec (.clear (.accepted none)) s =
        .next (putResponse [0x00000000] (transacted m s)) ∧
      (∀ a, a < 128 → m.read a = 0) ∧ bytesKeptOutside 0 128 s.mem m)

/-- 42_surface.md R128: with no device error, SET_PIXEL then GET_PIXEL at one place answers
`Decode565(Encode565(c))` for every rotation, and the other 63 cells keep their bytes. -/
def Obligations.SetThenGetPixelQuantizes : Prop :=
  ∀ (s : State) (a : XyWord) (c : PixWord), a.rsv = 0 → a.x.toNat ≤ 7 → a.y.toNat ≤ 7 →
    c.rsv = 0 → pixOk c → answersOk 2 s → s.rspFull = false →
    ∃ t u, exec (.setPixel (.accepted (a, c))) s = .next t ∧
      exec (.getPixel (.accepted a)) t = .next u ∧
      u.rsp = s.rsp ++ [0x00000000] ++
        [0x00010000, pixResult (decode565 (encode565 (pixelOf c)))] ∧
      ∀ p, p ≠ offset a.x.toNat a.y.toNat s.rot → codeAt u.mem p = codeAt s.mem p

/-- 42_surface.md R133: with no device error, CLEAR `c` then GET_PIXELS answers 64 copies of
`Decode565(Encode565(c))` for every rotation. -/
def Obligations.ClearThenGetPixelsQuantizes : Prop :=
  ∀ (s : State) (c : PixWord), c.rsv = 0 → pixOk c → answersOk 2 s → s.rspFull = false →
    ∃ t u, exec (.clear (.accepted (some c))) s = .next t ∧
      exec (.getPixels (.accepted ())) t = .next u ∧
      u.rsp = s.rsp ++ [0x00000000] ++ (0x00400000 ::
        List.replicate 64 (pixResult (decode565 (encode565 (pixelOf c)))))

/-! ### The device -/

/-- 20_memory.md R55, 60_exceptions.md R256: when the write of SET_PIXEL, CLEAR, SET_PIXELS or
SHOW_LETTER fails, the command answers DeviceError with the device's cause, the bytes outside the
write's range are unchanged, and nothing is tried again. -/
def Obligations.FailedWriteLosesOnlyItsRange : Prop :=
  ∀ (s : State) (st : Word),
    (nextEvent s = .failOpen ∧ st = 0x00000104) ∨ (nextEvent s = .failAccess ∧ st = 0x00000304) →
    (∀ (a : XyWord) (c : PixWord), a.rsv = 0 → a.x.toNat ≤ 7 → a.y.toNat ≤ 7 → c.rsv = 0 →
      pixOk c → ∃ m, exec (.setPixel (.accepted (a, c))) s =
          .next (putResponse [st] (transacted m s)) ∧
        bytesKeptOutside (2 * offset a.x.toNat a.y.toNat s.rot) 2 s.mem m) ∧
    (∀ c : Option PixWord, (∀ p ∈ c, p.rsv = 0 ∧ pixOk p) →
      ∃ m, exec (.clear (.accepted c)) s = .next (putResponse [st] (transacted m s)) ∧
        bytesKeptOutside 0 128 s.mem m) ∧
    (∀ ps : List PixWord, (∀ p ∈ ps, p.rsv = 0 ∧ pixOk p) →
      ∃ m, exec (.setPixels (.accepted ps)) s = .next (putResponse [st] (transacted m s)) ∧
        bytesKeptOutside 0 128 s.mem m) ∧
    ∀ l : LetterOperands, textUnreserved l.text l.back l.chars → pixOk l.text → pixOk l.back →
      l.chars.length ≤ 1 → s.fontLoaded = true →
      ∃ m, exec (.showLetter (.accepted l)) s = .next (putResponse [st] (transacted m s)) ∧
        bytesKeptOutside 0 128 s.mem m

/-- 20_memory.md R55, 60_exceptions.md R256: when the read of GET_PIXELS, GET_PIXEL, FLIP_H, FLIP_V or
SET_ROT with redraw fails, the command answers DeviceError, no write is issued and FB is unchanged;
when the write after an answered read fails, it answers DeviceError and has no result. -/
def Obligations.FailedReadIssuesNoWrite : Prop :=
  ∀ (s : State) (st : Word),
    ((nextEvent s = .failOpen ∧ st = 0x00000104) ∨ (nextEvent s = .failAccess ∧ st = 0x00000204) →
      exec (.getPixels (.accepted ())) s = .next (putResponse [st] (transacted s.mem s)) ∧
      (∀ a : XyWord, a.rsv = 0 → a.x.toNat ≤ 7 → a.y.toNat ≤ 7 →
        exec (.getPixel (.accepted a)) s = .next (putResponse [st] (transacted s.mem s))) ∧
      (∀ rf, exec (.flipH rf (.accepted ())) s = .next (putResponse [st] (transacted s.mem s))) ∧
      (∀ rf, exec (.flipV rf (.accepted ())) s = .next (putResponse [st] (transacted s.mem s))) ∧
      ∀ (w : DegWord) (d : Rotation), w.rsv = 0 → w.deg.toNat = d.deg →
        exec (.setRot true (.accepted w)) s = .next (putResponse [st] (transacted s.mem s))) ∧
    (nextEvent s = .ok → (nextEvent (takeEvent s) = .failOpen ∧ st = 0x00000104) ∨
        (nextEvent (takeEvent s) = .failAccess ∧ st = 0x00000304) →
      ∀ i : Instr, (i = .flipH true (.accepted ()) ∨ i = .flipV true (.accepted ()) ∨
          ∃ (w : DegWord) (d : Rotation), w.rsv = 0 ∧ w.deg.toNat = d.deg ∧
            i = .setRot true (.accepted w)) →
        ∃ m, exec i s = .next (putResponse [st] (transacted m (transacted s.mem s))) ∧
          bytesKeptOutside 0 128 s.mem m)

/-- 70_reset_and_hazards.md R303: a reset that lands while a transaction is in flight abandons the
command: no response, no further transaction, the engine at its reset values; the bytes of a write
in flight hold anything in its range and keep outside it, and a read leaves FB unchanged. Said of the
first transaction of every command that makes one, of a scroll's window, of the write after an
answered read, and, for any command at all, of whichever transaction the reset lands on. The event
`reset` is the model's (log 5). -/
def Obligations.ResetInFlightAbandonsCommand : Prop :=
  ∀ s : State,
    (nextEvent s = .reset →
      (∀ (a : XyWord) (c : PixWord), a.rsv = 0 → a.x.toNat ≤ 7 → a.y.toNat ≤ 7 → c.rsv = 0 →
        pixOk c → ∃ m, exec (.setPixel (.accepted (a, c))) s = .next (resetAfter 1 m s) ∧
          bytesKeptOutside (2 * offset a.x.toNat a.y.toNat s.rot) 2 s.mem m) ∧
      (∀ c : Option PixWord, (∀ p ∈ c, p.rsv = 0 ∧ pixOk p) →
        ∃ m, exec (.clear (.accepted c)) s = .next (resetAfter 1 m s) ∧
          bytesKeptOutside 0 128 s.mem m) ∧
      (∀ ps : List PixWord, (∀ p ∈ ps, p.rsv = 0 ∧ pixOk p) →
        ∃ m, exec (.setPixels (.accepted ps)) s = .next (resetAfter 1 m s) ∧
          bytesKeptOutside 0 128 s.mem m) ∧
      (∀ l : LetterOperands, textUnreserved l.text l.back l.chars → pixOk l.text → pixOk l.back →
        l.chars.length ≤ 1 → s.fontLoaded = true →
        ∃ m, exec (.showLetter (.accepted l)) s = .next (resetAfter 1 m s) ∧
          bytesKeptOutside 0 128 s.mem m) ∧
      (∀ i : Instr, (i = .getPixels (.accepted ()) ∨
          (∃ a : XyWord, a.rsv = 0 ∧ a.x.toNat ≤ 7 ∧ a.y.toNat ≤ 7 ∧
            i = .getPixel (.accepted a)) ∨
          (∃ rf, i = .flipH rf (.accepted ())) ∨ (∃ rf, i = .flipV rf (.accepted ())) ∨
          ∃ (w : DegWord) (d : Rotation), w.rsv = 0 ∧ w.deg.toNat = d.deg ∧
            i = .setRot true (.accepted w)) →
        exec i s = .next (resetAfter 1 s.mem s)) ∧
      ∀ c : Scroll, s.resetIn = false → s.ctl = .scrolling c →
        ∃ m, step s = .next (resetAfter 1 m s) ∧ bytesKeptOutside 0 128 s.mem m) ∧
    (nextEvent s = .ok → nextEvent (takeEvent s) = .reset →
      ∀ i : Instr, (i = .flipH true (.accepted ()) ∨ i = .flipV true (.accepted ()) ∨
          ∃ (w : DegWord) (d : Rotation), w.rsv = 0 ∧ w.deg.toNat = d.deg ∧
            i = .setRot true (.accepted w)) →
        ∃ m, exec i s = .next (resetAfter 2 m s) ∧ bytesKeptOutside 0 128 s.mem m) ∧
    ∀ (i : Instr) (t : State), exec i s = .next t → ¬ noResetBetween s t →
      ∃ n m, noResetPulse n s ∧ ¬ noResetPulse (n + 1) s ∧ t = resetAfter (n + 1) m s ∧
        bytesKeptOutside 0 128 s.mem m

/-- 70_reset_and_hazards.md R300, R303: while reset is asserted every step leaves the engine at its reset
values in whatever phase it was, with FB kept; so does the host's asserting and releasing it, and
words sent meanwhile are discarded. The model's own inputs keep their values (logs 5, 16). -/
def Obligations.ResetInputHoldsResetValues : Prop :=
  ∀ s : State,
    (s.resetIn = true → step s = .next { State.reset with
      mem := s.mem, resetIn := true, now := s.now, events := s.events, draws := s.draws }) ∧
    hostReset true s = { State.reset with
      mem := s.mem, resetIn := true, now := s.now, events := s.events, draws := s.draws } ∧
    ∀ ws, hostReset false (hostSend ws (hostReset true s)) = { State.reset with
      mem := s.mem, now := s.now, events := s.events, draws := s.draws }

/-! ### GlyphStore -/

/-- 43_glyph.md R160, R161: a load that passes every check stores, for each key of the order string, the
40-pixel block of its last position, and no other key, and sets FONT_LOADED; a key's block is atlas
pixels `40n` to `40n + 39`. -/
def Obligations.LoadFontStoresBlocks : Prop :=
  ∀ (s : State) (f : FontOperands), s.fontLoaded = false → (∀ p ∈ f.atlas, p.rsv = 0 ∧ pixOk p) →
    (∀ c ∈ f.order, c.rsv = 0) → f.atlas.length % 40 = 0 → 40 * f.order.length ≤ f.atlas.length →
    (0x3F : Key) ∈ keysOf f.order → (keysOf f.order).toFinset.card ≤ Config.glyphCap →
    ∃ g, exec (.loadFont (.accepted f)) s =
        .next (putResponse [0x00000000] { s with glyphs := g, fontLoaded := true }) ∧
      (∀ n k, (keysOf f.order)[n]? = some k → (∀ j, n < j → (keysOf f.order)[j]? ≠ some k) →
        g.find k = some (((f.atlas.map pixelOf).drop (40 * n)).take 40)) ∧
      ∀ k, k ∉ keysOf f.order → g.find k = none

/-- 43_glyph.md R160, R162 to R164, 60_exceptions.md R259 step 9: LOAD_FONT's errors in order, each
leaving the store as it was. The capacity clause holds for any capacity; the engine's is the open
`GLYPH_CAP`. -/
def Obligations.LoadFontErrorsInOrder : Prop :=
  ∀ (s : State),
    (∀ ws, exec (.loadFont (.badLength ws)) s = .next (putResponse [0x00000101] s)) ∧
    ∀ f : FontOperands,
      exec (.loadFont (.accepted f)) s = .next (loadFontIn Config.glyphCap f s) ∧
      ∀ cap : Nat,
        ((∃ p ∈ f.atlas, p.rsv ≠ 0) ∨ (∃ c ∈ f.order, c.rsv ≠ 0) →
          loadFontIn cap f s = putResponse [0x00000205] s) ∧
        ((∀ p ∈ f.atlas, p.rsv = 0) → (∀ c ∈ f.order, c.rsv = 0) →
          (s.fontLoaded = true → loadFontIn cap f s = putResponse [0x00000603] s) ∧
          (s.fontLoaded = false →
            ((∃ p ∈ f.atlas, ¬ pixOk p) → loadFontIn cap f s = putResponse [0x00000403] s) ∧
            ((∀ p ∈ f.atlas, pixOk p) →
              (f.atlas.length % 40 ≠ 0 → loadFontIn cap f s = putResponse [0x00000103] s) ∧
              (f.atlas.length % 40 = 0 →
                (f.atlas.length < 40 * f.order.length →
                  loadFontIn cap f s = putResponse [0x00000203] s) ∧
                (40 * f.order.length ≤ f.atlas.length →
                  ((0x3F : Key) ∉ keysOf f.order →
                    loadFontIn cap f s = putResponse [0x00000303] s) ∧
                  ((0x3F : Key) ∈ keysOf f.order → cap < (keysOf f.order).toFinset.card →
                    loadFontIn cap f s = putResponse [0x00000503] s))))))

/-- 43_glyph.md R165, R166: GLYPH answers RESERVED_BITS, then NO_FONT; else the 40 pixels of the stored
glyph of exactly one stored key, and of `?` for an unknown key, an empty string, or two or more. -/
def Obligations.GlyphAnswersLookup : Prop :=
  ∀ (s : State) (cs : List CharWord),
    ((∃ c ∈ cs, c.rsv ≠ 0) → exec (.glyph cs) s = .next (putResponse [0x00000205] s)) ∧
    ((∀ c ∈ cs, c.rsv = 0) →
      (s.fontLoaded = false → exec (.glyph cs) s = .next (putResponse [0x00000703] s)) ∧
      ∀ g : Glyph, s.fontLoaded = true → s.Inv →
        ((∃ k, keysOf cs = [k] ∧ s.glyphs.find k = some g) ∨
          ((∀ k, keysOf cs = [k] → s.glyphs.find k = none) ∧
            s.glyphs.find 0x3F = some g)) →
        g.length = 40 ∧
        exec (.glyph cs) s = .next (putResponse (0x00280000 :: g.map pixResult) s))

/-- 43_glyph.md R167: `Trim` keeps the rows from the first to the last that has a channel above 0, black
rows between them included, and nothing of an all-black glyph. -/
def Obligations.TrimDropsOnlyBlackEnds : Prop :=
  ∀ g : Glyph, g.length = 40 →
    let lit := fun r : Nat => ∃ c, c < 8 ∧ ∃ p, g[8 * r + c]? = some p ∧ p ≠ Pixel.black
    ((∀ r, r < 5 → ¬ lit r) → trimHeight g = 0 ∧ trimPixels g = []) ∧
    ∀ first last, last < 5 → lit first → lit last → (∀ r, r < first → ¬ lit r) →
      (∀ r, last < r → r < 5 → ¬ lit r) →
      trimHeight g = last - first + 1 ∧ (trimPixels g).length = 8 * (last - first + 1) ∧
      ∀ j, j < 8 * (last - first + 1) → (trimPixels g)[j]? = g[8 * first + j]?

/-- 43_glyph.md R168: GLYPH_TRIM answers RESERVED_BITS, then NO_FONT; else the trimmed height `h` of the
looked-up glyph and its `8h` pixels, `RLEN = 1 + 8h`. -/
def Obligations.GlyphTrimAnswersTrimmedRows : Prop :=
  ∀ (s : State) (cs : List CharWord),
    ((∃ c ∈ cs, c.rsv ≠ 0) → exec (.glyphTrim cs) s = .next (putResponse [0x00000205] s)) ∧
    ((∀ c ∈ cs, c.rsv = 0) →
      (s.fontLoaded = false → exec (.glyphTrim cs) s = .next (putResponse [0x00000703] s)) ∧
      ∀ g : Glyph, s.fontLoaded = true → s.Inv → lookup s.glyphs (keysOf cs) = g →
        (trimPixels g).length = 8 * trimHeight g ∧ trimHeight g ≤ 5 ∧
        exec (.glyphTrim cs) s = .next (putResponse
          ((BitVec.ofNat 16 (1 + 8 * trimHeight g) ++ 0#16) :: BitVec.ofNat 32 (trimHeight g) ::
            (trimPixels g).map pixResult) s))

/-! ### TextRenderer -/

/-- 44_text.md R200, R202, R203, R210: SHOW_LETTER answers BAD_LENGTH, RESERVED_BITS, CHANNEL_RANGE,
TEXT_LENGTH, NO_FONT in that order; else, its write answered, under the effective rotation
`(deg(ROT) + 270) mod 360`, the cells that hold a white pixel of the looked-up glyph on rows 1 to 5
hold the text colour's code and every other cell the background's. ROT is not written. -/
def Obligations.ShowLetterWritesLetter : Prop :=
  ∀ s : State,
    (∀ ws, exec (.showLetter (.badLength ws)) s = .next (putResponse [0x00000101] s)) ∧
    ∀ a : LetterOperands,
      (¬ textUnreserved a.text a.back a.chars →
        exec (.showLetter (.accepted a)) s = .next (putResponse [0x00000205] s)) ∧
      (textUnreserved a.text a.back a.chars →
        (¬ (pixOk a.text ∧ pixOk a.back) →
          exec (.showLetter (.accepted a)) s = .next (putResponse [0x00000201] s)) ∧
        (pixOk a.text → pixOk a.back →
          (2 ≤ a.chars.length →
            exec (.showLetter (.accepted a)) s = .next (putResponse [0x00000401] s)) ∧
          (a.chars.length ≤ 1 →
            (s.fontLoaded = false →
              exec (.showLetter (.accepted a)) s = .next (putResponse [0x00000703] s)) ∧
            ∀ e : Rotation, s.fontLoaded = true → e.deg = (s.rot.deg + 270) % 360 →
              answersOk 1 s →
              ∃ m, exec (.showLetter (.accepted a)) s =
                  .next (putResponse [0x00000000] (transacted m s)) ∧
                (∀ x y, x < 8 → y < 8 → codeAt m (offset x y e) = encode565
                  (if 1 ≤ y ∧ y ≤ 5 ∧ (lookup s.glyphs (keysOf a.chars))[x + 8 * (y - 1)]? =
                    some Pixel.white then pixelOf a.text else pixelOf a.back)) ∧
                bytesKeptOutside 0 128 s.mem m)))

/-- 44_text.md R204, R211: SHOW_MESSAGE answers BAD_LENGTH, RESERVED_BITS, CHANNEL_RANGE, NO_FONT in that
order, before any write; else it starts its scroll: EXEC, window 0 of its strip, nothing else
changed. That the scroll's windows are later steps is the model's choice (log 4). -/
def Obligations.ShowMessageStartsScroll : Prop :=
  ∀ s : State,
    (∀ ws, exec (.showMessage (.badLength ws)) s = .next (putResponse [0x00000101] s)) ∧
    ∀ a : MessageOperands,
      (¬ textUnreserved a.text a.back a.chars →
        exec (.showMessage (.accepted a)) s = .next (putResponse [0x00000205] s)) ∧
      (textUnreserved a.text a.back a.chars →
        (¬ (pixOk a.text ∧ pixOk a.back) →
          exec (.showMessage (.accepted a)) s = .next (putResponse [0x00000201] s)) ∧
        (pixOk a.text → pixOk a.back →
          (s.fontLoaded = false →
            exec (.showMessage (.accepted a)) s = .next (putResponse [0x00000703] s)) ∧
          (s.fontLoaded = true → exec (.showMessage (.accepted a)) s = .next { s with
            ctl := .scrolling ⟨a.speed, pixelOf a.text, pixelOf a.back,
              stripOf s.glyphs (keysOf a.chars), 0⟩ })))

/-- 44_text.md R202, R206, R207, 60_exceptions.md R268: a step in EXEC writes the recoloured window with
the effective rotation; then it waits for `speed` microseconds from now, or goes on at once when
`speed = 0`; a failed write ends the command with DeviceError. One window is one step: the model's
choice (log 4). -/
def Obligations.ScrollStepWritesWindow : Prop :=
  ∀ (s : State) (c : Scroll) (e : Rotation), s.resetIn = false → s.ctl = .scrolling c →
    e.deg = (s.rot.deg + 270) % 360 →
    (nextEvent s = .ok → ∃ m, bytesKeptOutside 0 128 s.mem m ∧
      (∀ x y q, x < 8 → y < 8 → (c.strip[c.window + y]?).bind (·[x]?) = some q →
        codeAt m (offset x y e) = encode565 (if q = Pixel.white then c.text else c.back)) ∧
      (c.speed ≠ 0 → step s = .next { transacted m s with
        ctl := .waiting c (s.now + c.speed.toNat) }) ∧
      (c.speed = 0 → c.window + 9 < c.strip.length → step s = .next { transacted m s with
        ctl := .scrolling { c with window := c.window + 1 } }) ∧
      (c.speed = 0 → c.strip.length ≤ c.window + 9 →
        step s = .next (putResponse [0x00000000] (transacted m s)))) ∧
    ∀ st : Word, (nextEvent s = .failOpen ∧ st = 0x00000104) ∨
        (nextEvent s = .failAccess ∧ st = 0x00000304) →
      ∃ m, step s = .next (putResponse [st] (transacted m s)) ∧ bytesKeptOutside 0 128 s.mem m

/-- 44_text.md R207, 60_exceptions.md R268: a wait ends at a time no sooner than its deadline, with no
device transaction and no command taken; then the next window follows, or the response after the
last. One wait is one step, and `now` moves in it: the model's choices (logs 4, 9). -/
def Obligations.WaitEndsAfterDeadline : Prop :=
  ∀ (s : State) (c : Scroll) (deadline : Nat), s.resetIn = false → s.ctl = .waiting c deadline →
    ∃ now, deadline ≤ now ∧ s.now ≤ now ∧
      (c.window + 9 < c.strip.length → step s = .next { s with
        now := now, draws := s.draws + 1, ctl := .scrolling { c with window := c.window + 1 } }) ∧
      (c.strip.length ≤ c.window + 9 → step s =
        .next (putResponse [0x00000000] { s with now := now, draws := s.draws + 1 }))

/-- 44_text.md R205, R208: the strip of a string is 8 blank lines, each character's trimmed glyph and one
blank line, and 8 blank lines, so `N(s) = 16 + sum of (h_c + 1)`; every line has 8 pixels when the
glyphs have 40. -/
def Obligations.StripLengthIsSumOfHeights : Prop :=
  ∀ (m : GlyphMap) (ks : List Key), GlyphMap.wfFrom 0 m = true →
    (stripOf m ks).length = 16 + (ks.map fun k => trimHeight (lookup m [k]) + 1).sum ∧
    (∀ l ∈ stripOf m ks, l.length = 8) ∧
    (∀ i, i < 8 → (stripOf m ks)[i]? = some (List.replicate 8 Pixel.black)) ∧
    (∀ i, (stripOf m ks).length ≤ i + 9 → i < (stripOf m ks).length →
      (stripOf m ks)[i]? = some (List.replicate 8 Pixel.black)) ∧
    ∀ k : Key,
      (∀ r c, r < trimHeight (lookup m [k]) → c < 8 →
        ((stripOf m (k :: ks))[8 + r]?).bind (·[c]?) = (trimPixels (lookup m [k]))[8 * r + c]?) ∧
      (stripOf m (k :: ks))[8 + trimHeight (lookup m [k])]? =
        some (List.replicate 8 Pixel.black) ∧
      (stripOf m (k :: ks)).drop (8 + trimHeight (lookup m [k]) + 1) = (stripOf m ks).drop 8

/-- 44_text.md R209: window `i + 1` is window `i` moved by one line, and its row 7 is line `i + 8`. -/
def Obligations.WindowsShiftByOneLine : Prop :=
  ∀ (strip : List Line) (i x : Nat), x < 8 → i + 8 < strip.length →
    (∀ l ∈ strip, l.length = 8) →
    (∀ y, y < 7 → (windowOf strip (i + 1))[x + 8 * y]? = (windowOf strip i)[x + 8 * (y + 1)]?) ∧
    (windowOf strip (i + 1))[x + 8 * 7]? = (strip[i + 8]?).bind (·[x]?)

/-- 44_text.md R207, R208, R212, 70_reset_and_hazards.md R320, R321: a SHOW_MESSAGE that passes its checks,
with every transaction answered, runs to its end: exactly `N(s) - 8` frame writes, at least
`(N(s) - 8) * speed` microseconds, status OK, ROT and the glyph store as before, and the frame
buffer all background. The steps and the clock are the model's choices (logs 4, 9). -/
def Obligations.MessageScrollsToItsEnd : Prop :=
  ∀ (s : State) (a : MessageOperands) (rest : List Config.DeviceEvent), s.resetIn = false →
    s.rspFull = false → s.fontLoaded = true → textUnreserved a.text a.back a.chars →
    pixOk a.text → pixOk a.back →
    s.events = List.replicate ((stripOf s.glyphs (keysOf a.chars)).length - 8) .ok ++ rest →
    ∃ (u : State) (k : Nat) (t : State), exec (.showMessage (.accepted a)) s = .next u ∧
      Host.Core.run Sys2Proof.core k u = .next t ∧ t.ctl = .idle ∧
      t.rsp = s.rsp ++ [0x00000000] ∧ t.rot = s.rot ∧ t.glyphs = s.glyphs ∧
      t.fontLoaded = true ∧ t.cmd = s.cmd ∧ t.events = rest ∧
      s.now + ((stripOf s.glyphs (keysOf a.chars)).length - 8) * a.speed.toNat ≤ t.now ∧
      (∀ p, p < 64 → codeAt t.mem p = encode565 (pixelOf a.back)) ∧
      bytesKeptOutside 0 128 s.mem t.mem
end

