-- ==== Sys2Proof/Laws/State.lean ====
section
/-! SUPPORT. One lemma per field per update of the state. -/

namespace Sys2Proof.Machine

variable (s : State) (ws : List Word) (e : ErrorCause) (c : Scroll) (n : Nat) (d : Rotation)

/-! ### `takeEvent` -/

@[simp] theorem takeEvent_rot : (takeEvent s).rot = s.rot := rfl
@[simp] theorem takeEvent_fontLoaded : (takeEvent s).fontLoaded = s.fontLoaded := rfl
@[simp] theorem takeEvent_glyphs : (takeEvent s).glyphs = s.glyphs := rfl
@[simp] theorem takeEvent_ctl : (takeEvent s).ctl = s.ctl := rfl
@[simp] theorem takeEvent_cmd : (takeEvent s).cmd = s.cmd := rfl
@[simp] theorem takeEvent_rsp : (takeEvent s).rsp = s.rsp := rfl
@[simp] theorem takeEvent_mem : (takeEvent s).mem = s.mem := rfl
@[simp] theorem takeEvent_resetIn : (takeEvent s).resetIn = s.resetIn := rfl
@[simp] theorem takeEvent_rspFull : (takeEvent s).rspFull = s.rspFull := rfl
@[simp] theorem takeEvent_now : (takeEvent s).now = s.now := rfl
@[simp] theorem takeEvent_events : (takeEvent s).events = s.events.tail := rfl
@[simp] theorem takeEvent_draws : (takeEvent s).draws = s.draws + 1 := rfl

/-! ### `engineReset` -/

@[simp] theorem engineReset_rot : (engineReset s).rot = .deg0 := rfl
@[simp] theorem engineReset_fontLoaded : (engineReset s).fontLoaded = false := rfl
@[simp] theorem engineReset_glyphs : (engineReset s).glyphs = [] := rfl
@[simp] theorem engineReset_ctl : (engineReset s).ctl = .idle := rfl
@[simp] theorem engineReset_cmd : (engineReset s).cmd = [] := rfl
@[simp] theorem engineReset_rsp : (engineReset s).rsp = [] := rfl
@[simp] theorem engineReset_mem : (engineReset s).mem = s.mem := rfl
@[simp] theorem engineReset_resetIn : (engineReset s).resetIn = s.resetIn := rfl
@[simp] theorem engineReset_rspFull : (engineReset s).rspFull = false := rfl
@[simp] theorem engineReset_now : (engineReset s).now = s.now := rfl
@[simp] theorem engineReset_events : (engineReset s).events = s.events := rfl
@[simp] theorem engineReset_draws : (engineReset s).draws = s.draws := rfl

/-! ### `putResponse`: by whether RSP has room -/

theorem putResponse_room (h : s.rspFull = false) : putResponse ws s = answered ws s := by
  simp [putResponse, answered, h]

theorem putResponse_full (h : s.rspFull = true) :
    putResponse ws s = { s with ctl := .responding ws } := by
  simp [putResponse, h]

/-- All `putResponse` can do: it changes only `ctl` and `rsp`, in one of two ways. -/
theorem putResponse_cases :
    (s.rspFull = false ∧ putResponse ws s = { s with ctl := .idle, rsp := s.rsp ++ ws }) ∨
    (s.rspFull = true ∧ putResponse ws s = { s with ctl := .responding ws }) := by
  rcases Bool.eq_false_or_eq_true s.rspFull with h | h
  · exact .inr ⟨h, putResponse_full s ws h⟩
  · exact .inl ⟨h, putResponse_room s ws h⟩

@[simp] theorem putResponse_rot : (putResponse ws s).rot = s.rot := by
  obtain ⟨-, h⟩ | ⟨-, h⟩ := putResponse_cases s ws <;> rw [h]
@[simp] theorem putResponse_fontLoaded : (putResponse ws s).fontLoaded = s.fontLoaded := by
  obtain ⟨-, h⟩ | ⟨-, h⟩ := putResponse_cases s ws <;> rw [h]
@[simp] theorem putResponse_glyphs : (putResponse ws s).glyphs = s.glyphs := by
  obtain ⟨-, h⟩ | ⟨-, h⟩ := putResponse_cases s ws <;> rw [h]
@[simp] theorem putResponse_cmd : (putResponse ws s).cmd = s.cmd := by
  obtain ⟨-, h⟩ | ⟨-, h⟩ := putResponse_cases s ws <;> rw [h]
@[simp] theorem putResponse_mem : (putResponse ws s).mem = s.mem := by
  obtain ⟨-, h⟩ | ⟨-, h⟩ := putResponse_cases s ws <;> rw [h]
@[simp] theorem putResponse_resetIn : (putResponse ws s).resetIn = s.resetIn := by
  obtain ⟨-, h⟩ | ⟨-, h⟩ := putResponse_cases s ws <;> rw [h]
@[simp] theorem putResponse_rspFull : (putResponse ws s).rspFull = s.rspFull := by
  obtain ⟨-, h⟩ | ⟨-, h⟩ := putResponse_cases s ws <;> rw [h]
@[simp] theorem putResponse_now : (putResponse ws s).now = s.now := by
  obtain ⟨-, h⟩ | ⟨-, h⟩ := putResponse_cases s ws <;> rw [h]
@[simp] theorem putResponse_events : (putResponse ws s).events = s.events := by
  obtain ⟨-, h⟩ | ⟨-, h⟩ := putResponse_cases s ws <;> rw [h]
@[simp] theorem putResponse_draws : (putResponse ws s).draws = s.draws := by
  obtain ⟨-, h⟩ | ⟨-, h⟩ := putResponse_cases s ws <;> rw [h]

/-! ### `respond` and `raise` are `putResponse` -/

theorem respond_eq : respond ws s = putResponse (okStatus ws.length :: ws) s := rfl
theorem raise_eq : raise e s = putResponse [e.status] s := rfl

/-! ### `answered` and `transacted` -/

@[simp] theorem answered_rot : (answered ws s).rot = s.rot := rfl
@[simp] theorem answered_fontLoaded : (answered ws s).fontLoaded = s.fontLoaded := rfl
@[simp] theorem answered_glyphs : (answered ws s).glyphs = s.glyphs := rfl
@[simp] theorem answered_ctl : (answered ws s).ctl = .idle := rfl
@[simp] theorem answered_cmd : (answered ws s).cmd = s.cmd := rfl
@[simp] theorem answered_rsp : (answered ws s).rsp = s.rsp ++ ws := rfl
@[simp] theorem answered_mem : (answered ws s).mem = s.mem := rfl
@[simp] theorem answered_resetIn : (answered ws s).resetIn = s.resetIn := rfl
@[simp] theorem answered_rspFull : (answered ws s).rspFull = s.rspFull := rfl
@[simp] theorem answered_now : (answered ws s).now = s.now := rfl
@[simp] theorem answered_events : (answered ws s).events = s.events := rfl
@[simp] theorem answered_draws : (answered ws s).draws = s.draws := rfl

variable (m : Memory)

@[simp] theorem transacted_rot : (transacted m s).rot = s.rot := rfl
@[simp] theorem transacted_fontLoaded : (transacted m s).fontLoaded = s.fontLoaded := rfl
@[simp] theorem transacted_glyphs : (transacted m s).glyphs = s.glyphs := rfl
@[simp] theorem transacted_ctl : (transacted m s).ctl = s.ctl := rfl
@[simp] theorem transacted_cmd : (transacted m s).cmd = s.cmd := rfl
@[simp] theorem transacted_rsp : (transacted m s).rsp = s.rsp := rfl
@[simp] theorem transacted_mem : (transacted m s).mem = m := rfl
@[simp] theorem transacted_resetIn : (transacted m s).resetIn = s.resetIn := rfl
@[simp] theorem transacted_rspFull : (transacted m s).rspFull = s.rspFull := rfl
@[simp] theorem transacted_now : (transacted m s).now = s.now := rfl
@[simp] theorem transacted_events : (transacted m s).events = s.events.tail := rfl
@[simp] theorem transacted_draws : (transacted m s).draws = s.draws + 1 := rfl

theorem takeEvent_eq : takeEvent s = transacted s.mem s := rfl
theorem takeEvent_with_mem : { takeEvent s with mem := m } = transacted m s := rfl

/-! ### `endWait` and `beginWait` -/

@[simp] theorem endWait_rot : (endWait n s).rot = s.rot := rfl
@[simp] theorem endWait_fontLoaded : (endWait n s).fontLoaded = s.fontLoaded := rfl
@[simp] theorem endWait_glyphs : (endWait n s).glyphs = s.glyphs := rfl
@[simp] theorem endWait_ctl : (endWait n s).ctl = s.ctl := rfl
@[simp] theorem endWait_cmd : (endWait n s).cmd = s.cmd := rfl
@[simp] theorem endWait_rsp : (endWait n s).rsp = s.rsp := rfl
@[simp] theorem endWait_mem : (endWait n s).mem = s.mem := rfl
@[simp] theorem endWait_resetIn : (endWait n s).resetIn = s.resetIn := rfl
@[simp] theorem endWait_rspFull : (endWait n s).rspFull = s.rspFull := rfl
@[simp] theorem endWait_events : (endWait n s).events = s.events := rfl
@[simp] theorem endWait_draws : (endWait n s).draws = s.draws + 1 := rfl

/-- A wait ends no sooner than its deadline, and time does not go back (60_exceptions.md R268). -/
theorem endWait_now_ge : n ≤ (endWait n s).now ∧ s.now ≤ (endWait n s).now := by
  constructor <;> simp only [endWait] <;> omega

@[simp] theorem beginWait_rot : (beginWait c s).rot = s.rot := rfl
@[simp] theorem beginWait_fontLoaded : (beginWait c s).fontLoaded = s.fontLoaded := rfl
@[simp] theorem beginWait_glyphs : (beginWait c s).glyphs = s.glyphs := rfl
@[simp] theorem beginWait_ctl :
    (beginWait c s).ctl = .waiting c (s.now + c.speed.toNat * Config.waitUnit) := rfl
@[simp] theorem beginWait_cmd : (beginWait c s).cmd = s.cmd := rfl
@[simp] theorem beginWait_rsp : (beginWait c s).rsp = s.rsp := rfl
@[simp] theorem beginWait_mem : (beginWait c s).mem = s.mem := rfl
@[simp] theorem beginWait_resetIn : (beginWait c s).resetIn = s.resetIn := rfl
@[simp] theorem beginWait_rspFull : (beginWait c s).rspFull = s.rspFull := rfl
@[simp] theorem beginWait_now : (beginWait c s).now = s.now := rfl
@[simp] theorem beginWait_events : (beginWait c s).events = s.events := rfl
@[simp] theorem beginWait_draws : (beginWait c s).draws = s.draws := rfl

end Sys2Proof.Machine
end

