-- ==== Sys2Proof/Laws/Memory.lean ====
section
/-! SUPPORT. The frame buffer's bytes: read after write, and the canonical form. -/

namespace Sys2Proof.Machine

/-! ### Reading -/

theorem Memory.read_erase_same (m : Memory) (addr : Nat) :
    (m.erase addr).read addr = Memory.unlisted := by
  induction m with
  | nil => rfl
  | cons cell rest ih =>
    obtain ⟨a, b⟩ := cell
    simp only [Memory.erase, List.filter_cons] at ih ⊢
    by_cases h : a = addr
    · simpa [h] using ih
    · simp [h, Memory.read, ih]

theorem Memory.read_erase_ne (m : Memory) {addr a : Nat} (h : a ≠ addr) :
    (m.erase addr).read a = m.read a := by
  induction m with
  | nil => rfl
  | cons cell rest ih =>
    obtain ⟨c, b⟩ := cell
    simp only [Memory.erase, List.filter_cons] at ih ⊢
    by_cases hc : c = addr
    · have hca : c ≠ a := fun e => h (e.symm.trans hc)
      simpa [hc, Memory.read, hca, h.symm] using ih
    · simp [hc, Memory.read, ih]

theorem Memory.read_insert_ne (m : Memory) {addr a : Nat} (v : Byte) (h : a ≠ addr) :
    (m.insert addr v).read a = m.read a := by
  induction m with
  | nil => simp [Memory.insert, Memory.read, h.symm]
  | cons cell rest ih =>
    obtain ⟨c, b⟩ := cell
    simp only [Memory.insert]
    split
    · simp [Memory.read, h.symm]
    · simp [Memory.read, ih]

theorem Memory.read_insert_same (m : Memory) (addr : Nat) (v : Byte)
    (h : ∀ cell ∈ m, cell.1 ≠ addr) : (m.insert addr v).read addr = v := by
  induction m with
  | nil => simp [Memory.insert, Memory.read]
  | cons cell rest ih =>
    obtain ⟨c, b⟩ := cell
    have hc : c ≠ addr := h (c, b) (by simp)
    simp only [Memory.insert]
    split
    · simp [Memory.read]
    · simp [Memory.read, hc, ih fun cell hm => h cell (by simp [hm])]

theorem Memory.ne_of_mem_erase (m : Memory) (addr : Nat) :
    ∀ cell ∈ m.erase addr, cell.1 ≠ addr := by
  intro cell h
  simpa [Memory.erase] using (List.mem_filter.mp h).2

/-- A byte reads as it was written (20_memory.md R54). -/
@[simp] theorem Memory.read_write_same (m : Memory) (addr : Nat) (v : Byte) :
    (m.write addr v).read addr = v := by
  simp only [Memory.write]
  split
  · next h => rw [Memory.read_erase_same, h]
  · exact Memory.read_insert_same _ _ _ (Memory.ne_of_mem_erase m addr)

/-- A write leaves every other byte alone (20_memory.md R54). -/
theorem Memory.read_write_ne (m : Memory) {addr a : Nat} (v : Byte) (h : a ≠ addr) :
    (m.write addr v).read a = m.read a := by
  simp only [Memory.write]
  split
  · exact Memory.read_erase_ne m h
  · rw [Memory.read_insert_ne _ _ h, Memory.read_erase_ne m h]

/-- All a run of bytes does: the bytes of the range, and every other byte as before. -/
theorem Memory.read_writeBytes (m : Memory) (addr : Nat) (vs : List Byte) (a : Nat) :
    (m.writeBytes addr vs).read a =
      if addr ≤ a ∧ a < addr + vs.length then vs.getD (a - addr) 0 else m.read a := by
  induction vs generalizing m addr with
  | nil => simp [Memory.writeBytes]
  | cons v vs ih =>
    rw [Memory.writeBytes, ih]
    by_cases h : a = addr
    · subst h
      simp [show ¬(a + 1 ≤ a) by omega]
    · rw [Memory.read_write_ne m v h]
      have : (addr + 1 ≤ a ∧ a < addr + 1 + vs.length) ↔
          (addr ≤ a ∧ a < addr + (v :: vs).length) := by
        simp only [List.length_cons]; omega
      simp only [this]
      split
      · next hr =>
        obtain ⟨k, hk⟩ : ∃ k, a - addr = k + 1 := ⟨a - addr - 1, by omega⟩
        have hk' : a - (addr + 1) = k := by omega
        rw [hk, hk', List.getD_cons_succ]
      · rfl

theorem Memory.bytesKept_writeBytes (m : Memory) (addr : Nat) (vs : List Byte) :
    bytesKeptOutside addr vs.length m (m.writeBytes addr vs) := by
  intro a h
  rw [Memory.read_writeBytes, if_neg (by omega)]

@[simp] theorem Memory.length_readBytes (m : Memory) (addr n : Nat) :
    (m.readBytes addr n).length = n := by simp [Memory.readBytes]

theorem Memory.getD_readBytes (m : Memory) (addr n k : Nat) (h : k < n) :
    (m.readBytes addr n).getD k 0 = m.read (addr + k) := by
  simp [Memory.readBytes, h]

/-- Bytes read back as they were written (20_memory.md R54, R60). -/
theorem Memory.readBytes_writeBytes (m : Memory) (addr : Nat) (vs : List Byte) :
    (m.writeBytes addr vs).readBytes addr vs.length = vs := by
  apply List.ext_getElem (by simp)
  intro k h1 h2
  simp only [Memory.readBytes, List.getElem_map, List.getElem_range, Memory.read_writeBytes]
  rw [if_pos (by omega)]
  simp [h2]

/-! ### The canonical form -/

/-- Where a canonical memory may begin, it may begin later entries only. -/
theorem Memory.wfFrom_mono {m : Memory} {lo lo' : Nat} (hl : lo' ≤ lo)
    (h : Memory.wfFrom lo m = true) : Memory.wfFrom lo' m = true := by
  cases m with
  | nil => rfl
  | cons cell rest =>
    obtain ⟨a, b⟩ := cell
    simp only [Memory.wfFrom, Bool.and_eq_true, decide_eq_true_eq] at h ⊢
    exact ⟨⟨⟨by omega, h.1.1.2⟩, h.1.2⟩, h.2⟩

theorem Memory.wfFrom_erase {m : Memory} {lo : Nat} (addr : Nat)
    (h : Memory.wfFrom lo m = true) : Memory.wfFrom lo (m.erase addr) = true := by
  induction m generalizing lo with
  | nil => rfl
  | cons cell rest ih =>
    obtain ⟨a, b⟩ := cell
    simp only [Memory.wfFrom, Bool.and_eq_true, decide_eq_true_eq] at h
    have ih' := ih h.2
    simp only [Memory.erase, List.filter_cons] at ih' ⊢
    split
    · simp only [Memory.wfFrom, Bool.and_eq_true, decide_eq_true_eq]
      exact ⟨h.1, ih'⟩
    · exact Memory.wfFrom_mono (by omega) ih'

theorem Memory.wfFrom_insert {m : Memory} {lo addr : Nat} {v : Byte} (hm : Memory.wfFrom lo m = true)
    (hlo : lo ≤ addr) (ha : addr < Config.fbBytes) (hv : v ≠ Memory.unlisted)
    (hne : ∀ cell ∈ m, cell.1 ≠ addr) : Memory.wfFrom lo (m.insert addr v) = true := by
  induction m generalizing lo with
  | nil => simp [Memory.insert, Memory.wfFrom, hlo, ha, hv]
  | cons cell rest ih =>
    obtain ⟨a, b⟩ := cell
    have hab : a ≠ addr := hne (a, b) (by simp)
    simp only [Memory.wfFrom, Bool.and_eq_true, decide_eq_true_eq] at hm
    simp only [Memory.insert]
    split
    · next hlt =>
      simp only [Memory.wfFrom, Bool.and_eq_true, decide_eq_true_eq, bne_iff_ne]
      exact ⟨⟨⟨hlo, ha⟩, hv⟩, ⟨⟨by omega, hm.1.1.2⟩, by simpa using hm.1.2⟩, hm.2⟩
    · next hlt =>
      simp only [Memory.wfFrom, Bool.and_eq_true, decide_eq_true_eq]
      exact ⟨hm.1, ih hm.2 (by omega) fun cell h => hne cell (by simp [h])⟩

/-- Writing a byte of FB keeps the canonical form. -/
theorem Memory.wf_write {m : Memory} {addr : Nat} (v : Byte) (hm : m.wf = true)
    (ha : addr < Config.fbBytes) : (m.write addr v).wf = true := by
  simp only [Memory.write, Memory.wf] at *
  split
  · exact Memory.wfFrom_erase addr hm
  · next hv =>
    exact Memory.wfFrom_insert (Memory.wfFrom_erase addr hm) (Nat.zero_le _) ha hv
      (Memory.ne_of_mem_erase m addr)

/-- Writing bytes inside FB keeps the canonical form. -/
theorem Memory.wf_writeBytes {m : Memory} {addr : Nat} (vs : List Byte) (hm : m.wf = true)
    (ha : addr + vs.length ≤ Config.fbBytes) : (m.writeBytes addr vs).wf = true := by
  induction vs generalizing m addr with
  | nil => exact hm
  | cons v vs ih =>
    simp only [List.length_cons] at ha
    exact ih (Memory.wf_write v hm (by omega)) (by omega)

/-- What a canonical memory lists from `lo` on is not at a lower address. -/
theorem Memory.read_below {m : Memory} {lo a : Nat} (h : Memory.wfFrom lo m = true) (ha : a < lo) :
    m.read a = Memory.unlisted := by
  induction m generalizing lo with
  | nil => rfl
  | cons cell rest ih =>
    obtain ⟨c, b⟩ := cell
    simp only [Memory.wfFrom, Bool.and_eq_true, decide_eq_true_eq] at h
    simp only [Memory.read]
    rw [if_neg (by omega)]
    exact ih h.2 (by omega)

/-- Canonical memories that read alike are equal data. -/
theorem Memory.eq_of_read_eq {m m' : Memory} {lo : Nat} (h : Memory.wfFrom lo m = true)
    (h' : Memory.wfFrom lo m' = true) (he : ∀ a, m.read a = m'.read a) : m = m' := by
  induction m generalizing m' lo with
  | nil =>
    cases m' with
    | nil => rfl
    | cons cell rest =>
      obtain ⟨c, b⟩ := cell
      simp only [Memory.wfFrom, Bool.and_eq_true, decide_eq_true_eq, bne_iff_ne] at h'
      have := he c
      simp only [Memory.read, if_pos] at this
      exact absurd this.symm h'.1.2
  | cons cell rest ih =>
    obtain ⟨c, b⟩ := cell
    simp only [Memory.wfFrom, Bool.and_eq_true, decide_eq_true_eq, bne_iff_ne] at h
    cases m' with
    | nil =>
      have := he c
      simp only [Memory.read, if_pos] at this
      exact absurd this h.1.2
    | cons cell' rest' =>
      obtain ⟨c', b'⟩ := cell'
      simp only [Memory.wfFrom, Bool.and_eq_true, decide_eq_true_eq, bne_iff_ne] at h'
      have hc : c = c' := by
        by_contra hne
        rcases Nat.lt_or_gt_of_ne hne with hlt | hlt
        · have e := he c
          simp only [Memory.read, if_pos, if_neg (Ne.symm hne)] at e
          rw [Memory.read_below h'.2 (by omega)] at e
          exact h.1.2 e
        · have e := he c'
          simp only [Memory.read, if_pos, if_neg hne] at e
          rw [Memory.read_below h.2 (by omega)] at e
          exact h'.1.2 e.symm
      subst hc
      have hb : b = b' := by simpa [Memory.read] using he c
      subst hb
      rw [ih h.2 h'.2]
      intro a
      by_cases ha : a = c
      · subst ha
        rw [Memory.read_below h.2 (by omega), Memory.read_below h'.2 (by omega)]
      · simpa [Memory.read, Ne.symm ha] using he a

end Sys2Proof.Machine
end

