-- ==== Sys2Proof/Laws/Ops.lean ====
section
/-! SUPPORT. What each shared operation can do, said once: the device transactions, the frame
accesses, the response, and the driver's steps. -/

namespace Sys2Proof.Machine

/-! ### Sizes -/

@[simp] theorem length_gridOf (f : Nat → Pixel) : (gridOf f).length = 64 := by simp [gridOf]

/-- Entry `i` of a computed grid. -/
theorem cellAt_gridOf (f : Nat → Pixel) {i : Nat} (h : i < 64) : cellAt (gridOf f) i = f i := by
  simp [cellAt, gridOf, h]

@[simp] theorem length_toPhysical (l : Grid) (d : Rotation) : (toPhysical l d).length = 64 :=
  length_gridOf _

@[simp] theorem length_toLogical (q : Grid) (d : Rotation) : (toLogical q d).length = 64 :=
  length_gridOf _

@[simp] theorem length_encodeFrame (q : Grid) : (encodeFrame q).length = 2 * q.length := by
  induction q with
  | nil => rfl
  | cons p q ih =>
    simp only [encodeFrame, List.flatMap_cons, List.length_append, List.length_cons] at ih ⊢
    rw [ih]
    simp [cellBytes]
    omega

/-- A frame is 128 bytes (00_scope.md R12). -/
@[simp] theorem length_frameBytes (l : Grid) (d : Rotation) : (frameBytes l d).length = 128 := by
  simp [frameBytes]

/-! ### Device transactions -/

theorem memRead_of_ok {addr n : Nat} {s : State} {k : List Byte → State → State}
    (h : nextEvent s = .ok) :
    memRead addr n s k = k (s.mem.readBytes addr n) (takeEvent s) := by
  simp [memRead, h, readAnswer, Config.fbExclusive]

theorem memWrite_of_ok {addr : Nat} {v : List Byte} {s : State} {k : State → State}
    (h : nextEvent s = .ok) :
    memWrite addr v s k = k (transacted (s.mem.writeBytes addr v) s) := by
  simp [memWrite, h, transacted, takeEvent]

@[simp] theorem length_scrambledBytes (s : State) (addr n : Nat) :
    ((List.range n).map fun k => Config.failedWriteByte s.draws (addr + k)).length = n := by simp

/-- A failed write keeps every byte outside its range (20_memory.md R55). -/
theorem bytesKept_scrambled (s : State) (addr n : Nat) :
    bytesKeptOutside addr n s.mem (scrambled s addr n) := by
  have h := Memory.bytesKept_writeBytes s.mem addr
    ((List.range n).map fun k => Config.failedWriteByte s.draws (addr + k))
  rwa [length_scrambledBytes] at h

theorem wf_scrambled {s : State} {addr n : Nat} (hm : s.mem.wf = true)
    (ha : addr + n ≤ Config.fbBytes) : (scrambled s addr n).wf = true :=
  Memory.wf_writeBytes _ hm (by simpa using ha)

/-- All a read can do (20_memory.md R54, R55, 60_exceptions.md R256, 70_reset_and_hazards.md R303). -/
theorem memRead_cases (addr n : Nat) (s : State) (k : List Byte → State → State) :
    (nextEvent s = .ok ∧ memRead addr n s k = k (s.mem.readBytes addr n) (takeEvent s)) ∨
    (nextEvent s = .failOpen ∧ memRead addr n s k = raise .deviceOpen (takeEvent s)) ∨
    (nextEvent s = .failAccess ∧ memRead addr n s k = raise .deviceRead (takeEvent s)) ∨
    (nextEvent s = .reset ∧ memRead addr n s k = engineReset (takeEvent s)) := by
  cases h : nextEvent s
  · exact .inl ⟨rfl, memRead_of_ok h⟩
  · exact .inr (.inl ⟨rfl, by simp [memRead, h]⟩)
  · exact .inr (.inr (.inl ⟨rfl, by simp [memRead, h]⟩))
  · exact .inr (.inr (.inr ⟨rfl, by simp [memRead, h]⟩))

/-- All a write can do (20_memory.md R54, R55, 60_exceptions.md R256, 70_reset_and_hazards.md R303). -/
theorem memWrite_cases (addr : Nat) (v : List Byte) (s : State) (k : State → State) :
    (nextEvent s = .ok ∧ memWrite addr v s k = k (transacted (s.mem.writeBytes addr v) s)) ∨
    (nextEvent s = .failOpen ∧
      memWrite addr v s k = raise .deviceOpen (transacted (scrambled s addr v.length) s)) ∨
    (nextEvent s = .failAccess ∧
      memWrite addr v s k = raise .deviceWrite (transacted (scrambled s addr v.length) s)) ∨
    (nextEvent s = .reset ∧
      memWrite addr v s k = engineReset (transacted (scrambled s addr v.length) s)) := by
  cases h : nextEvent s
  · exact .inl ⟨rfl, memWrite_of_ok h⟩
  · exact .inr (.inl ⟨rfl, by simp [memWrite, h, transacted, takeEvent]⟩)
  · exact .inr (.inr (.inl ⟨rfl, by simp [memWrite, h, transacted, takeEvent]⟩))
  · exact .inr (.inr (.inr ⟨rfl, by simp [memWrite, h, transacted, takeEvent]⟩))

/-- A transaction inside FB does not fault (20_memory.md R59). -/
theorem onDevice_inside {addr n : Nat} (s : State) (h : addr + n ≤ 128) :
    onDevice addr n s = .next s := by
  simp [onDevice, Config.fbBytes, h]

/-- A whole-frame transaction does not fault. -/
@[simp] theorem onDevice_frame (s : State) : onDevice 0 Config.fbBytes s = .next s :=
  onDevice_inside s (by decide)

/-! ### Frames -/

theorem readFrame_of_ok {d : Rotation} {s : State} {k : Grid → State → State}
    (h : nextEvent s = .ok) :
    readFrame d s k = k (toLogical (decodeFrame (s.mem.readBytes 0 128)) d) (takeEvent s) := by
  simp [readFrame, memRead_of_ok h, Config.fbBytes]

theorem writeFrame_of_ok {l : Grid} {d : Rotation} {s : State} {k : State → State}
    (h : nextEvent s = .ok) :
    writeFrame l d s k = k (transacted (s.mem.writeBytes 0 (frameBytes l d)) s) := by
  simp [writeFrame, memWrite_of_ok h]

/-- All a frame read can do. -/
theorem readFrame_cases (d : Rotation) (s : State) (k : Grid → State → State) :
    (nextEvent s = .ok ∧
      readFrame d s k = k (toLogical (decodeFrame (s.mem.readBytes 0 128)) d) (takeEvent s)) ∨
    (nextEvent s = .failOpen ∧ readFrame d s k = raise .deviceOpen (takeEvent s)) ∨
    (nextEvent s = .failAccess ∧ readFrame d s k = raise .deviceRead (takeEvent s)) ∨
    (nextEvent s = .reset ∧ readFrame d s k = engineReset (takeEvent s)) :=
  memRead_cases 0 128 s _

/-- All a frame write can do. -/
theorem writeFrame_cases (l : Grid) (d : Rotation) (s : State) (k : State → State) :
    (nextEvent s = .ok ∧
      writeFrame l d s k = k (transacted (s.mem.writeBytes 0 (frameBytes l d)) s)) ∨
    (nextEvent s = .failOpen ∧
      writeFrame l d s k = raise .deviceOpen (transacted (scrambled s 0 128) s)) ∨
    (nextEvent s = .failAccess ∧
      writeFrame l d s k = raise .deviceWrite (transacted (scrambled s 0 128) s)) ∨
    (nextEvent s = .reset ∧
      writeFrame l d s k = engineReset (transacted (scrambled s 0 128) s)) := by
  have h := memWrite_cases 0 (frameBytes l d) s k
  rwa [length_frameBytes] at h

/-! ### The driver -/

/-- All the driver can do after a window's wait (44_text.md R206, R207). -/
theorem nextWindow_cases (c : Scroll) (s : State) :
    (c.window + 9 < c.strip.length ∧
      nextWindow c s = { s with ctl := .scrolling { c with window := c.window + 1 } }) ∨
    (c.strip.length ≤ c.window + 9 ∧ nextWindow c s = respond [] s) := by
  by_cases h : c.window + 9 < c.strip.length
  · exact .inl ⟨h, by simp [nextWindow, h, Nat.add_assoc]⟩
  · exact .inr ⟨by omega, by simp [nextWindow, Nat.add_assoc]; omega⟩

/-- All the driver can do once a window is written (44_text.md R207). -/
theorem afterWindow_cases (c : Scroll) (s : State) :
    (c.speed = 0 ∧ afterWindow c s = nextWindow c s) ∨
    (c.speed ≠ 0 ∧ afterWindow c s = beginWait c s) := by
  by_cases h : c.speed = 0
  · exact .inl ⟨h, by rw [afterWindow, if_pos h]⟩
  · exact .inr ⟨h, by rw [afterWindow, if_neg h]⟩

/-! ### The step -/

theorem step_of_reset {s : State} (h : s.resetIn = true) : step s = .next (engineReset s) := by
  simp [step, stepOnce, h]

theorem step_of_idle {s : State} (h : s.resetIn = false) (hc : s.ctl = .idle) :
    step s = stepIdle s := by
  simp [step, stepOnce, h, stepEngine, hc]

theorem step_of_responding {s : State} {ws : List Word} (h : s.resetIn = false)
    (hc : s.ctl = .responding ws) : step s = stepRespond ws s := by
  simp [step, stepOnce, h, stepEngine, hc]

theorem step_of_scrolling {s : State} {c : Scroll} (h : s.resetIn = false)
    (hc : s.ctl = .scrolling c) : step s = stepScroll c s := by
  simp [step, stepOnce, h, stepEngine, hc]

theorem step_of_waiting {s : State} {c : Scroll} {n : Nat} (h : s.resetIn = false)
    (hc : s.ctl = .waiting c n) : step s = stepWait c n s := by
  simp [step, stepOnce, h, stepEngine, hc]

/-- All a step can do, by the reset input and the phase (10_state.md R33). -/
theorem step_cases (s : State) :
    (s.resetIn = true ∧ step s = .next (engineReset s)) ∨
    (s.resetIn = false ∧ s.ctl = .idle ∧ step s = stepIdle s) ∨
    (s.resetIn = false ∧ ∃ ws, s.ctl = .responding ws ∧ step s = stepRespond ws s) ∨
    (s.resetIn = false ∧ ∃ c, s.ctl = .scrolling c ∧ step s = stepScroll c s) ∨
    (s.resetIn = false ∧ ∃ c n, s.ctl = .waiting c n ∧ step s = stepWait c n s) := by
  rcases Bool.eq_false_or_eq_true s.resetIn with h | h
  · exact .inl ⟨h, step_of_reset h⟩
  · cases hc : s.ctl with
    | idle => exact .inr (.inl ⟨h, rfl, step_of_idle h hc⟩)
    | responding ws => exact .inr (.inr (.inl ⟨h, ws, rfl, step_of_responding h hc⟩))
    | scrolling c => exact .inr (.inr (.inr (.inl ⟨h, c, rfl, step_of_scrolling h hc⟩)))
    | waiting c n => exact .inr (.inr (.inr (.inr ⟨h, c, n, rfl, step_of_waiting h hc⟩)))

end Sys2Proof.Machine
end

