-- ==== Sys2Proof/Laws/Frames.lean ====
section
/-! SUPPORT. The cell map and its inverse, and what a frame write leaves in a cell and a frame read
finds there. -/

namespace Sys2Proof.Machine

/-! ### The cell map -/

/-- A logical cell's physical cell is one of the 64. -/
theorem offset_lt {x y : Nat} (hx : x ≤ 7) (hy : y ≤ 7) (d : Rotation) : offset x y d < 64 := by
  cases d <;> simp only [offset] <;> omega

theorem logicalIndex_lt {p : Nat} (hp : p < 64) (d : Rotation) : logicalIndex p d < 64 := by
  cases d <;> simp only [logicalIndex] <;> omega

theorem logicalIndex_offset {x y : Nat} (hx : x < 8) (hy : y < 8) (d : Rotation) :
    logicalIndex (offset x y d) d = x + 8 * y := by
  cases d <;> simp only [offset, logicalIndex] <;> omega

theorem offset_logicalIndex {p : Nat} (hp : p < 64) (d : Rotation) :
    offset (logicalIndex p d % 8) (logicalIndex p d / 8) d = p := by
  cases d <;> simp only [offset, logicalIndex] <;> omega

/-- What holds at every logical cell's place holds at every physical cell. -/
theorem forall_cell_of_offset {P : Nat → Prop} (d : Rotation)
    (h : ∀ x y, x < 8 → y < 8 → P (offset x y d)) (p : Nat) (hp : p < 64) : P p := by
  have := logicalIndex_lt hp d
  rw [← offset_logicalIndex hp d]
  exact h _ _ (by omega) (by omega)

/-! ### Grids -/

theorem getElem?_of_length {g : Grid} (hg : g.length = 64) {i : Nat} (hi : i < 64) :
    g[i]? = some (cellAt g i) := by
  simp [cellAt, List.getD, hg, hi]

theorem grid_ext {a b : Grid} (ha : a.length = 64) (hb : b.length = 64)
    (h : ∀ i, i < 64 → cellAt a i = cellAt b i) : a = b := by
  apply List.ext_getElem (by omega)
  intro i h1 h2
  simpa [cellAt, List.getD, h1, h2] using h i (by omega)

/-! ### Bytes of a frame -/

/-- A code is its two bytes. -/
theorem code_of_bytes (c : Code565) : c.extractLsb' 8 8 ++ c.extractLsb' 0 8 = c := by
  ext i hi
  simp
  grind

theorem encodeFrame_cons (a : Pixel) (q : Grid) : encodeFrame (a :: q) =
    (encode565 a).extractLsb' 0 8 :: (encode565 a).extractLsb' 8 8 :: encodeFrame q := rfl

theorem getElem?_encodeFrame (q : Grid) (p : Nat) (v : Pixel) (h : q[p]? = some v) :
    (encodeFrame q)[2 * p]? = some ((encode565 v).extractLsb' 0 8) ∧
    (encodeFrame q)[2 * p + 1]? = some ((encode565 v).extractLsb' 8 8) := by
  induction q generalizing p with
  | nil => simp at h
  | cons a q ih =>
    rw [encodeFrame_cons]
    cases p with
    | zero => simp at h; subst h; simp
    | succ p =>
      rw [show 2 * (p + 1) = 2 * p + 1 + 1 by omega]
      simpa using ih p (by simpa using h)

theorem getElem?_decodeFrame (bs : List Byte) (p : Nat) (lo hi : Byte) (h : bs[2 * p]? = some lo)
    (h' : bs[2 * p + 1]? = some hi) : (decodeFrame bs)[p]? = some (decode565 (hi ++ lo)) := by
  match bs, p with
  | [], p => simp at h
  | [a], p => simp at h'
  | a :: b :: r, 0 => simp at h h'; subst h; subst h'; rfl
  | a :: b :: r, p + 1 =>
    rw [show 2 * (p + 1) = 2 * p + 1 + 1 by omega] at h h'
    simpa [decodeFrame] using getElem?_decodeFrame r p lo hi (by simpa using h) (by simpa using h')

/-- A frame write puts each pixel's code in its cell (42_surface.md R121). -/
theorem codeAt_frameBytes (m : Memory) (l : Grid) (d : Rotation) {x y : Nat} (hx : x < 8) (hy : y < 8) :
    codeAt (m.writeBytes 0 (frameBytes l d)) (offset x y d) = encode565 (cellAt l (x + 8 * y)) := by
  have hp := offset_lt (show x ≤ 7 by omega) (show y ≤ 7 by omega) d
  obtain ⟨h1, h2⟩ := getElem?_encodeFrame (toPhysical l d) _ _ (getElem?_of_length (by simp) hp)
  have hb : ∀ a v, a < 128 → (frameBytes l d)[a]? = some v →
      (m.writeBytes 0 (frameBytes l d)).read a = v := by
    intro a v ha hv
    rw [Memory.read_writeBytes, length_frameBytes, if_pos ⟨Nat.zero_le _, by omega⟩]
    simp [List.getD, hv]
  rw [codeAt, hb _ _ (by omega) h1, hb _ _ (by omega) h2, code_of_bytes, toPhysical,
    cellAt_gridOf _ hp, logicalIndex_offset hx hy]

/-- A frame write changes no byte outside FB. -/
theorem bytesKept_frameBytes (m : Memory) (l : Grid) (d : Rotation) :
    bytesKeptOutside 0 128 m (m.writeBytes 0 (frameBytes l d)) := by
  have h := Memory.bytesKept_writeBytes m 0 (frameBytes l d)
  rwa [length_frameBytes] at h

/-- A frame read finds in each logical cell the pixel of its code (42_surface.md R122). -/
theorem cellAt_readFrame (m : Memory) (d : Rotation) {x y : Nat} (hx : x < 8) (hy : y < 8) :
    cellAt (toLogical (decodeFrame (m.readBytes 0 128)) d) (x + 8 * y) =
      decode565 (logicalCode m d x y) := by
  have hp := offset_lt (show x ≤ 7 by omega) (show y ≤ 7 by omega) d
  rw [toLogical, cellAt_gridOf _ (by omega), show (x + 8 * y) % 8 = x by omega,
    show (x + 8 * y) / 8 = y by omega]
  have h := getElem?_decodeFrame (m.readBytes 0 128) (offset x y d) (m.read (2 * offset x y d))
    (m.read (2 * offset x y d + 1))
    (by simp [Memory.readBytes, show 2 * offset x y d < 128 by omega])
    (by simp [Memory.readBytes, show 2 * offset x y d + 1 < 128 by omega])
  simp [cellAt, List.getD, h, logicalCode, codeAt]

end Sys2Proof.Machine
end

