-- ==== Sys2Proof/Laws/GlyphMap.lean ====
section
/-! SUPPORT. The glyph map: find after store, the canonical form, and how many keys a load stores. -/

namespace Sys2Proof.Machine

/-! ### Finding -/

theorem GlyphMap.find_filter_ne (m : GlyphMap) {key k : Key} (h : k ≠ key) :
    GlyphMap.find (m.filter fun entry => entry.1 != key) k = m.find k := by
  induction m with
  | nil => rfl
  | cons entry rest ih =>
    obtain ⟨c, g⟩ := entry
    by_cases hc : c = key
    · subst hc
      simp [GlyphMap.find, h.symm, ih]
    · simp [GlyphMap.find, hc, ih]

theorem GlyphMap.find_insert_ne (m : GlyphMap) {key k : Key} (g : Glyph) (h : k ≠ key) :
    (GlyphMap.insert m key g).find k = m.find k := by
  induction m with
  | nil => simp [GlyphMap.insert, GlyphMap.find, h.symm]
  | cons entry rest ih =>
    obtain ⟨c, g'⟩ := entry
    simp only [GlyphMap.insert]
    split
    · simp [GlyphMap.find, h.symm]
    · simp [GlyphMap.find, ih]

theorem GlyphMap.find_insert_same (m : GlyphMap) (key : Key) (g : Glyph)
    (h : ∀ entry ∈ m, entry.1 ≠ key) : (GlyphMap.insert m key g).find key = some g := by
  induction m with
  | nil => simp [GlyphMap.insert, GlyphMap.find]
  | cons entry rest ih =>
    obtain ⟨c, g'⟩ := entry
    have hc : c ≠ key := h (c, g') (by simp)
    simp only [GlyphMap.insert]
    split
    · simp [GlyphMap.find]
    · simp [GlyphMap.find, hc, ih fun entry hm => h entry (by simp [hm])]

theorem GlyphMap.ne_of_mem_filter (m : GlyphMap) (key : Key) :
    ∀ entry ∈ m.filter (fun entry => entry.1 != key), entry.1 ≠ key := by
  intro entry h
  simpa using (List.mem_filter.mp h).2

/-- A stored glyph is found (43_glyph.md R161). -/
@[simp] theorem GlyphMap.find_store_same (m : GlyphMap) (key : Key) (g : Glyph) :
    (m.store key g).find key = some g :=
  GlyphMap.find_insert_same _ _ _ (GlyphMap.ne_of_mem_filter m key)

/-- Storing a glyph leaves every other key alone (43_glyph.md R161). -/
theorem GlyphMap.find_store_ne (m : GlyphMap) {key k : Key} (g : Glyph) (h : k ≠ key) :
    (m.store key g).find k = m.find k := by
  rw [GlyphMap.store, GlyphMap.find_insert_ne _ _ h, GlyphMap.find_filter_ne m h]

/-! ### The canonical form -/

theorem GlyphMap.wfFrom_mono {m : GlyphMap} {lo lo' : Nat} (hl : lo' ≤ lo)
    (h : GlyphMap.wfFrom lo m = true) : GlyphMap.wfFrom lo' m = true := by
  cases m with
  | nil => rfl
  | cons entry rest =>
    obtain ⟨a, b⟩ := entry
    simp only [GlyphMap.wfFrom, Bool.and_eq_true, decide_eq_true_eq] at h ⊢
    exact ⟨⟨by omega, h.1.2⟩, h.2⟩

theorem GlyphMap.wfFrom_filter {m : GlyphMap} {lo : Nat} (key : Key)
    (h : GlyphMap.wfFrom lo m = true) :
    GlyphMap.wfFrom lo (m.filter fun entry => entry.1 != key) = true := by
  induction m generalizing lo with
  | nil => rfl
  | cons entry rest ih =>
    obtain ⟨a, b⟩ := entry
    simp only [GlyphMap.wfFrom, Bool.and_eq_true, decide_eq_true_eq] at h
    have ih' := ih h.2
    simp only [List.filter_cons]
    split
    · simp only [GlyphMap.wfFrom, Bool.and_eq_true, decide_eq_true_eq]
      exact ⟨h.1, ih'⟩
    · exact GlyphMap.wfFrom_mono (by omega) ih'

theorem GlyphMap.wfFrom_insert {m : GlyphMap} {lo : Nat} {key : Key} {g : Glyph}
    (hm : GlyphMap.wfFrom lo m = true) (hlo : lo ≤ key.toNat) (hg : g.length = 40)
    (hne : ∀ entry ∈ m, entry.1 ≠ key) : GlyphMap.wfFrom lo (GlyphMap.insert m key g) = true := by
  induction m generalizing lo with
  | nil => simp [GlyphMap.insert, GlyphMap.wfFrom, hlo, hg]
  | cons entry rest ih =>
    obtain ⟨a, b⟩ := entry
    have hab : a.toNat ≠ key.toNat := fun e => hne (a, b) (by simp) (BitVec.eq_of_toNat_eq e)
    simp only [GlyphMap.wfFrom, Bool.and_eq_true, decide_eq_true_eq] at hm
    simp only [GlyphMap.insert]
    split
    · next hlt =>
      simp only [GlyphMap.wfFrom, Bool.and_eq_true, decide_eq_true_eq]
      exact ⟨⟨hlo, by simp [hg]⟩, ⟨by omega, hm.1.2⟩, hm.2⟩
    · next hlt =>
      simp only [GlyphMap.wfFrom, Bool.and_eq_true, decide_eq_true_eq]
      exact ⟨hm.1, ih hm.2 (by omega) fun entry h => hne entry (by simp [h])⟩

/-- Storing a 40-pixel glyph keeps the canonical form (10_state.md R26). -/
theorem GlyphMap.wf_store {m : GlyphMap} {key : Key} {g : Glyph}
    (hm : GlyphMap.wfFrom 0 m = true) (hg : g.length = 40) :
    GlyphMap.wfFrom 0 (m.store key g) = true :=
  GlyphMap.wfFrom_insert (GlyphMap.wfFrom_filter key hm) (Nat.zero_le _) hg
    (GlyphMap.ne_of_mem_filter m key)

/-- A glyph found in a canonical store has 40 pixels (10_state.md R26). -/
theorem GlyphMap.length_of_find {m : GlyphMap} {lo : Nat} {k : Key} {g : Glyph}
    (hm : GlyphMap.wfFrom lo m = true) (h : m.find k = some g) : g.length = 40 := by
  induction m generalizing lo with
  | nil => simp [GlyphMap.find] at h
  | cons entry rest ih =>
    obtain ⟨a, b⟩ := entry
    simp only [GlyphMap.wfFrom, Bool.and_eq_true, decide_eq_true_eq] at hm
    simp only [GlyphMap.find] at h
    split at h
    · cases h; simpa using hm.1.2
    · exact ih hm.2 h

/-! ### Loading -/

theorem GlyphMap.length_insert (m : GlyphMap) (key : Key) (g : Glyph) :
    (GlyphMap.insert m key g).length = m.length + 1 := by
  induction m with
  | nil => rfl
  | cons entry rest ih =>
    obtain ⟨c, g'⟩ := entry
    simp only [GlyphMap.insert]
    split <;> simp [ih]

/-- The keys of a store. -/
def GlyphMap.keySet (m : GlyphMap) : Finset Key := (m.map Prod.fst).toFinset

theorem GlyphMap.keySet_insert (m : GlyphMap) (key : Key) (g : Glyph) :
    (GlyphMap.insert m key g).keySet = Insert.insert key m.keySet := by
  induction m with
  | nil => simp [GlyphMap.insert, GlyphMap.keySet]
  | cons entry rest ih =>
    obtain ⟨c, g'⟩ := entry
    simp only [GlyphMap.keySet] at ih
    simp only [GlyphMap.insert, GlyphMap.keySet]
    split
    · simp
    · simp [ih, Finset.insert_comm]

theorem GlyphMap.keySet_store (m : GlyphMap) (key : Key) (g : Glyph) :
    (m.store key g).keySet = Insert.insert key m.keySet := by
  rw [GlyphMap.store, GlyphMap.keySet_insert]
  ext k
  simp only [GlyphMap.keySet, Finset.mem_insert, List.mem_toFinset, List.mem_map, List.mem_filter]
  constructor
  · rintro (rfl | ⟨e, ⟨he, -⟩, rfl⟩)
    · exact .inl rfl
    · exact .inr ⟨e, he, rfl⟩
  · rintro (rfl | ⟨e, he, rfl⟩)
    · exact .inl rfl
    · by_cases h : e.1 = key
      · exact .inl h
      · exact .inr ⟨e, ⟨he, by simpa using h⟩, rfl⟩

theorem GlyphMap.keySet_storeBlocks (m : GlyphMap) (atlas : List Pixel) (ks : List Key) :
    (storeBlocks m atlas ks).keySet = ks.toFinset ∪ m.keySet := by
  induction ks generalizing m atlas with
  | nil => simp [storeBlocks]
  | cons k ks ih =>
    simp [storeBlocks, ih, GlyphMap.keySet_store]

theorem GlyphMap.wfFrom_lt {m : GlyphMap} {lo : Nat} (h : GlyphMap.wfFrom lo m = true) :
    ∀ e ∈ m, lo ≤ e.1.toNat := by
  induction m generalizing lo with
  | nil => simp
  | cons entry rest ih =>
    obtain ⟨a, b⟩ := entry
    simp only [GlyphMap.wfFrom, Bool.and_eq_true, decide_eq_true_eq] at h
    rintro e he
    rcases List.mem_cons.mp he with rfl | he
    · exact h.1.1
    · have := ih h.2 e he
      omega

/-- A canonical store has as many entries as keys. -/
theorem GlyphMap.card_keySet {m : GlyphMap} {lo : Nat} (h : GlyphMap.wfFrom lo m = true) :
    m.keySet.card = m.length := by
  induction m generalizing lo with
  | nil => rfl
  | cons entry rest ih =>
    obtain ⟨a, b⟩ := entry
    simp only [GlyphMap.wfFrom, Bool.and_eq_true, decide_eq_true_eq] at h
    have hn : a ∉ (rest.map Prod.fst).toFinset := by
      simp only [List.mem_toFinset, List.mem_map, not_exists, not_and]
      rintro e he rfl
      have := GlyphMap.wfFrom_lt h.2 e he
      omega
    have := ih h.2
    simp only [GlyphMap.keySet] at this
    simp [GlyphMap.keySet, Finset.card_insert_of_notMem hn, this]

/-- `countDistinct` counts the distinct keys (43_glyph.md R160). -/
theorem countDistinct_eq_card (ks : List Key) : countDistinct ks = ks.toFinset.card := by
  induction ks with
  | nil => rfl
  | cons k ks ih =>
    simp only [countDistinct, List.contains_eq_mem, decide_eq_true_eq, List.toFinset_cons]
    split
    · next h => rw [Finset.insert_eq_of_mem (by simpa using h), ih]
    · next h => rw [Finset.card_insert_of_notMem (by simpa using h), ih]

/-- Loading whole blocks keeps the canonical form. -/
theorem wf_storeBlocks {m : GlyphMap} {atlas : List Pixel} {ks : List Key}
    (hm : GlyphMap.wfFrom 0 m = true) (ha : 40 * ks.length ≤ atlas.length) :
    GlyphMap.wfFrom 0 (storeBlocks m atlas ks) = true := by
  induction ks generalizing m atlas with
  | nil => exact hm
  | cons k ks ih =>
    simp only [List.length_cons] at ha
    exact ih (GlyphMap.wf_store hm (by simp; omega)) (by simp; omega)

/-- A load from an empty store has one entry per distinct key (43_glyph.md R160). -/
theorem length_storeBlocks {atlas : List Pixel} {ks : List Key}
    (ha : 40 * ks.length ≤ atlas.length) :
    (storeBlocks [] atlas ks).length = countDistinct ks := by
  rw [← GlyphMap.card_keySet (wf_storeBlocks (m := []) rfl ha), GlyphMap.keySet_storeBlocks,
    countDistinct_eq_card]
  simp [GlyphMap.keySet]

/-- A key that is not loaded is found as before. -/
theorem find_storeBlocks_of_notMem (m : GlyphMap) (atlas : List Pixel) {ks : List Key} {k : Key}
    (h : k ∉ ks) : (storeBlocks m atlas ks).find k = m.find k := by
  induction ks generalizing m atlas with
  | nil => rfl
  | cons c ks ih =>
    simp only [List.mem_cons, not_or] at h
    rw [storeBlocks, ih _ _ h.2, GlyphMap.find_store_ne _ _ h.1]

/-- The last block loaded for a key is the one found (43_glyph.md R161). -/
theorem find_storeBlocks_last (m : GlyphMap) (atlas : List Pixel) {ks : List Key} {n : Nat} {k : Key}
    (hn : ks[n]? = some k) (hlast : ∀ j, n < j → ks[j]? ≠ some k) :
    (storeBlocks m atlas ks).find k = some ((atlas.drop (40 * n)).take 40) := by
  induction ks generalizing m atlas n with
  | nil => simp at hn
  | cons c ks ih =>
    rw [storeBlocks]
    cases n with
    | zero =>
      simp only [List.getElem?_cons_zero, Option.some.injEq] at hn
      subst hn
      have : c ∉ ks := by
        intro hc
        obtain ⟨j, hj, e⟩ := List.getElem_of_mem hc
        exact hlast (j + 1) (by omega) (by simp [hj, e])
      rw [find_storeBlocks_of_notMem _ _ this]
      simp
    | succ n =>
      rw [ih _ _ (by simpa using hn) fun j hj => by simpa using hlast (j + 1) (by omega)]
      simp [List.drop_drop, Nat.mul_succ, Nat.add_comm]

end Sys2Proof.Machine
end

