-- ==== Sys2Proof/Laws/Glyphs.lean ====
section
/-! SUPPORT. What a lookup and a trim can answer, and the sizes of what they answer. -/

namespace Sys2Proof.Machine

theorem litRows_lt {g : Glyph} {r : Nat} (h : r ∈ litRows g) : r < 5 := by
  simp [litRows] at h
  exact h.1

theorem litRows_rising (g : Glyph) : (litRows g).Pairwise (· < ·) :=
  List.pairwise_lt_range.filter _

/-- All a trim can answer: nothing lit, or the rows from the first lit to the last (43_glyph.md R167). -/
theorem trimSpan_cases (g : Glyph) :
    (litRows g = [] ∧ trimSpan g = (0, 0)) ∨
    ∃ a b, a ∈ litRows g ∧ b ∈ litRows g ∧ (∀ r ∈ litRows g, a ≤ r ∧ r ≤ b) ∧
      trimSpan g = (a, b - a + 1) := by
  have hs := litRows_rising g
  unfold trimSpan
  cases h : litRows g with
  | nil => exact .inl ⟨rfl, rfl⟩
  | cons a l =>
    rw [h] at hs
    have hne : a :: l ≠ [] := List.cons_ne_nil a l
    refine .inr ⟨a, (a :: l).getLast hne, List.mem_cons_self, List.getLast_mem hne, ?_,
      by simp [List.getLast?_eq_getLast_of_ne_nil]⟩
    intro r hr
    constructor
    · rcases List.mem_cons.1 hr with rfl | hr'
      · exact le_rfl
      · exact le_of_lt ((List.pairwise_cons.1 hs).1 r hr')
    · have hd : a :: l = (a :: l).dropLast ++ [(a :: l).getLast hne] :=
        (List.dropLast_append_getLast hne).symm
      rw [hd] at hr
      rcases List.mem_append.1 hr with h1 | h1
      · rw [hd, List.pairwise_append] at hs
        exact le_of_lt (hs.2.2 r h1 _ List.mem_cons_self)
      · exact le_of_eq (List.mem_singleton.1 h1)

/-- The rows a trim keeps are among the five. -/
theorem trimSpan_le (g : Glyph) : (trimSpan g).1 + (trimSpan g).2 ≤ 5 := by
  rcases trimSpan_cases g with ⟨-, h⟩ | ⟨a, b, -, hb, hr, h⟩
  · rw [h]; decide
  · have := litRows_lt hb
    have := hr b hb
    rw [h]
    simp only
    omega

theorem length_trimPixels {g : Glyph} (h : g.length = 40) :
    (trimPixels g).length = 8 * trimHeight g := by
  have := trimSpan_le g
  simp [trimPixels, trimHeight, h]
  omega

/-- A lookup answers a glyph of 40 pixels. -/
theorem length_lookup {m : GlyphMap} (h : GlyphMap.wfFrom 0 m = true) (ks : List Key) :
    (lookup m ks).length = 40 := by
  have hf : ((m.find fallbackKey).getD blankGlyph).length = 40 := by
    cases hk : m.find fallbackKey with
    | none => simp [blankGlyph, Config.glyphRows, Config.glyphCols]
    | some g => exact GlyphMap.length_of_find h hk
  unfold lookup
  split
  · rename_i k
    cases hk : m.find k with
    | none => exact hf
    | some g => exact GlyphMap.length_of_find h hk
  · exact hf

theorem length_of_mem_glyphLines {g : Glyph} (h : g.length = 40) {l : Line} (hl : l ∈ glyphLines g) :
    l.length = 8 := by
  have := length_trimPixels h
  simp only [glyphLines, List.mem_map, List.mem_range] at hl
  obtain ⟨k, hk, rfl⟩ := hl
  simp [glyphRow, this]
  omega

@[simp] theorem length_charLines (m : GlyphMap) (k : Key) :
    (charLines m k).length = trimHeight (lookup m [k]) + 1 := by
  simp [charLines, glyphLines]

end Sys2Proof.Machine
end

