-- ==== Sys2Proof/Laws/Exec.lean ====
section
/-! SUPPORT. Everything a command can do, said once: which states `exec` can answer. -/

namespace Sys2Proof.Machine

/-- `s` after `n` device transactions that left the bytes `m` in FB. -/
def afterEvents (n : Nat) (m : Memory) (s : State) : State :=
  { s with mem := m, events := s.events.drop n, draws := s.draws + n }

@[simp] theorem afterEvents_draws (n : Nat) (m : Memory) (s : State) :
    (afterEvents n m s).draws = s.draws + n := rfl

theorem transacted_afterEvents (n : Nat) (m m' : Memory) (s : State) :
    transacted m' (afterEvents n m s) = afterEvents (n + 1) m' s := by
  simp [transacted, afterEvents, Nat.add_assoc]

theorem engineReset_afterEvents (n : Nat) (m : Memory) (s : State) :
    engineReset (afterEvents n m s) = resetAfter n m s := by
  simp [engineReset, afterEvents, resetAfter, State.reset]

/-- The event of a transaction depends on the oracle's tape and counter alone. -/
theorem noResetPulse_congr {n : Nat} {s s' : State} (he : s'.events = s.events)
    (hd : s'.draws = s.draws) : noResetPulse n s' ↔ noResetPulse n s := by
  induction n generalizing s s' with
  | zero => rfl
  | succ n ih =>
    have hn : nextEvent s' = nextEvent s := by simp only [nextEvent, he, hd]
    rw [noResetPulse, noResetPulse, hn,
      ih (s := takeEvent s) (by simp [takeEvent, he]) (by simp [takeEvent, hd])]

/-- One more transaction without a reset is one whose own event is none. -/
theorem noResetPulse_succ (n : Nat) (m : Memory) (s : State) :
    noResetPulse (n + 1) s ↔ noResetPulse n s ∧ nextEvent (afterEvents n m s) ≠ .reset := by
  induction n generalizing s with
  | zero => simp [noResetPulse, afterEvents, nextEvent]
  | succ n ih =>
    have hx : nextEvent (afterEvents n m (takeEvent s)) = nextEvent (afterEvents (n + 1) m s) := by
      simp [nextEvent, afterEvents, takeEvent, Nat.add_assoc, Nat.add_comm 1 n]
    rw [noResetPulse, ih (takeEvent s), hx, noResetPulse, and_assoc]

/-- `s'` is `s` after some device transactions on none of which a reset landed: FB's bytes, the
oracle's tape and counter may differ. -/
def Transacts (s s' : State) : Prop :=
  ∃ m n, s' = afterEvents n m s ∧ noResetPulse n s ∧ (s.mem.wf = true → m.wf = true) ∧
    bytesKeptOutside 0 128 s.mem m

theorem Transacts.refl (s : State) : Transacts s s :=
  ⟨s.mem, 0, by simp [afterEvents], trivial, id, fun _ _ => rfl⟩

theorem Transacts.step {s s' : State} {m' : Memory} (h : Transacts s s')
    (he : nextEvent s' ≠ .reset) (hw : s'.mem.wf = true → m'.wf = true)
    (hk : bytesKeptOutside 0 128 s'.mem m') : Transacts s (transacted m' s') := by
  obtain ⟨m, n, rfl, h1, h2, h3⟩ := h
  exact ⟨m', n + 1, transacted_afterEvents n m m' s, (noResetPulse_succ n m s).2 ⟨h1, he⟩,
    fun h => hw (h2 h), fun a ha => (hk a ha).trans (h3 a ha)⟩

theorem Transacts.take {s s' : State} (h : Transacts s s') (he : nextEvent s' ≠ .reset) :
    Transacts s (takeEvent s') :=
  h.step (m' := s'.mem) he id fun _ _ => rfl

/-- Up to any state that differs from `s'` outside the oracle's counter, no reset has landed. -/
theorem Transacts.noReset {s s' t : State} (h : Transacts s s') (ht : t.draws = s'.draws) :
    noResetBetween s t := by
  obtain ⟨m, n, rfl, h1, -⟩ := h
  simpa [noResetBetween, ht] using h1

/-- A transaction changes no register, no stream and no control state. -/
theorem Transacts.frame {s s' : State} (h : Transacts s s') :
    s'.rot = s.rot ∧ s'.fontLoaded = s.fontLoaded ∧ s'.glyphs = s.glyphs ∧ s'.ctl = s.ctl ∧
    s'.cmd = s.cmd ∧ s'.rsp = s.rsp ∧ s'.resetIn = s.resetIn ∧ s'.rspFull = s.rspFull ∧
    s'.now = s.now := by
  obtain ⟨m, n, rfl, -⟩ := h
  simp [afterEvents]

theorem bytesKept_of_inside {m m' : Memory} {a n : Nat} (h : a + n ≤ 128)
    (hk : bytesKeptOutside a n m m') : bytesKeptOutside 0 128 m m' := by
  intro b hb
  exact hk b (by omega)

/-- A reset landed on one transaction, after the transactions to `s'`, and left the bytes `m`. -/
def ResetLands (s t : State) : Prop :=
  ∃ s' m, Transacts s s' ∧ nextEvent s' = .reset ∧ t = engineReset (transacted m s') ∧
    (s'.mem.wf = true → m.wf = true) ∧ bytesKeptOutside 0 128 s'.mem m

/-- All that such a reset leaves (70_reset_and_hazards.md R303). -/
theorem ResetLands.spec {s t : State} (h : ResetLands s t) :
    ¬ noResetBetween s t ∧
    ∃ n m, noResetPulse n s ∧ ¬ noResetPulse (n + 1) s ∧ t = resetAfter (n + 1) m s ∧
      (s.mem.wf = true → m.wf = true) ∧ bytesKeptOutside 0 128 s.mem m := by
  obtain ⟨s', m', ⟨m, n, rfl, h1, h2, h3⟩, he, rfl, hw, hk⟩ := h
  rw [transacted_afterEvents, engineReset_afterEvents]
  have hn : ¬ noResetPulse (n + 1) s := fun h => ((noResetPulse_succ n m s).1 h).2 he
  exact ⟨by simpa [noResetBetween, resetAfter] using hn, n, m', h1, hn, rfl, fun h => hw (h2 h),
    fun a ha => (hk a ha).trans (h3 a ha)⟩

/-- All the ends a command has: an error, a result, ROT written, the store written, a reset that
landed on a transaction, or a scroll started. -/
def Ends (i : Instr) (s t : State) : Prop :=
  (∃ s' e, Transacts s s' ∧ t = raise e s' ∧ (s' = s ∨ e.classCode = 4)) ∨
  (∃ s' ws, Transacts s s' ∧ t = respond ws s' ∧
    (i.WellFormed = true → s.Inv → ws.length ≤ 64)) ∨
  (∃ s' d rf p, Transacts s s' ∧ i = .setRot rf p ∧ t = respond [] { s' with rot := d }) ∨
  (∃ f, i = .loadFont (.accepted f) ∧ fontError Config.glyphCap f s = none ∧
    t = respond [] { s with
      glyphs := storeBlocks [] (f.atlas.map pixelOf) (keysOf f.order)
      fontLoaded := true }) ∨
  ResetLands s t ∨
  ∃ p c, i = .showMessage p ∧ t = { s with ctl := .scrolling c } ∧
    c.window = 0 ∧ ∃ ks, c.strip = stripOf s.glyphs ks

namespace Ends

variable {i : Instr} {s : State}

/-- Either a reset ended the command, or none landed on a transaction it made. -/
theorem reset_or_noReset {t : State} (h : Ends i s t) : ResetLands s t ∨ noResetBetween s t := by
  rcases h with ⟨s', e, hx, rfl, -⟩ | ⟨s', ws, hx, rfl, -⟩ | ⟨s', d, rf, p, hx, -, rfl⟩ |
    ⟨f, -, -, rfl⟩ | h | ⟨p, c, -, rfl, -⟩
  · exact .inr (hx.noReset (by simp [raise_eq]))
  · exact .inr (hx.noReset (by simp [respond_eq]))
  · exact .inr (hx.noReset (by simp [respond_eq]))
  · exact .inr ((Transacts.refl s).noReset (by simp [respond_eq]))
  · exact .inl h
  · exact .inr ((Transacts.refl s).noReset rfl)

theorem error {e : ErrorCause} : Ends i s (raise e s) := .inl ⟨s, e, .refl s, rfl, .inl rfl⟩

theorem result {s' : State} {ws : List Word} (h : Transacts s s')
    (hl : i.WellFormed = true → s.Inv → ws.length ≤ 64) : Ends i s (respond ws s') :=
  .inr (.inl ⟨s', ws, h, rfl, hl⟩)

theorem read {addr n : Nat} {k : List Byte → State → State}
    (hk : ∀ b, Transacts s (takeEvent s) → Ends i s (k b (takeEvent s))) :
    Ends i s (memRead addr n s k) := by
  have take (h : nextEvent s ≠ .reset) : Transacts s (takeEvent s) := (Transacts.refl s).take h
  obtain ⟨ho, h⟩ | ⟨ho, h⟩ | ⟨ho, h⟩ | ⟨ho, h⟩ := memRead_cases addr n s k <;> rw [h]
  · exact hk _ (take (by simp [ho]))
  · exact .inl ⟨_, _, take (by simp [ho]), rfl, .inr rfl⟩
  · exact .inl ⟨_, _, take (by simp [ho]), rfl, .inr rfl⟩
  · exact .inr (.inr (.inr (.inr (.inl ⟨s, s.mem, .refl s, ho, rfl, id, fun _ _ => rfl⟩))))

theorem write {s' : State} {addr : Nat} {v : List Byte} {k : State → State} (hx : Transacts s s')
    (hb : addr + v.length ≤ 128)
    (hk : ∀ m, Transacts s (transacted m s') → Ends i s (k (transacted m s'))) :
    Ends i s (memWrite addr v s' k) := by
  have hw (h : s'.mem.wf = true) : (scrambled s' addr v.length).wf = true := wf_scrambled h hb
  have hs := bytesKept_of_inside hb (bytesKept_scrambled s' addr v.length)
  obtain ⟨ho, h⟩ | ⟨ho, h⟩ | ⟨ho, h⟩ | ⟨ho, h⟩ := memWrite_cases addr v s' k <;> rw [h]
  · exact hk _ (hx.step (by simp [ho]) (fun h => Memory.wf_writeBytes _ h hb)
      (bytesKept_of_inside hb (Memory.bytesKept_writeBytes _ _ _)))
  · exact .inl ⟨_, _, hx.step (by simp [ho]) hw hs, rfl, .inr rfl⟩
  · exact .inl ⟨_, _, hx.step (by simp [ho]) hw hs, rfl, .inr rfl⟩
  · exact .inr (.inr (.inr (.inr (.inl ⟨s', _, hx, ho, rfl, hw, hs⟩))))

theorem flip {mirror : Grid → Grid} {rf : Bool} (hm : ∀ l, (mirror l).length = 64) :
    Ends i s (flipFrame mirror rf s) := by
  unfold flipFrame readFrame
  apply read
  intro b hr
  dsimp only
  split
  · exact write hr (by simp) fun m hx => result hx fun _ _ => by simp [hm]
  · exact result hr fun _ _ => by simp [hm]

end Ends

/-- The state `exec` answers is one of a command's ends. -/
theorem exec_cases (i : Instr) (s t : State) (h : exec i s = .next t) : Ends i s t := by
  have whole : ∀ {t' : State}, Ends i s t' → (.next t' : Out) = .next t → Ends i s t := by
    rintro t' ht h
    cases h
    exact ht
  cases i with
  | enc p =>
    simp only [exec, execEnc] at h
    repeat' split at h
    · exact whole .error h
    · exact whole .error h
    · exact whole .error h
    · refine whole (.result (.refl s) fun hw _ => ?_) h
      simp [Instr.WellFormed, Payload.WellFormed] at hw ⊢
      omega
  | dec p =>
    simp only [exec, execDec] at h
    repeat' split at h
    · exact whole .error h
    · exact whole .error h
    · refine whole (.result (.refl s) fun hw _ => ?_) h
      simp [Instr.WellFormed, Payload.WellFormed] at hw ⊢
      omega
  | xlat p =>
    simp only [exec, execXlat] at h
    repeat' split at h
    · exact whole .error h
    · exact whole .error h
    · exact whole (.result (.refl s) (by simp)) h
    · exact whole .error h
  | setPixels p =>
    simp only [exec, execSetPixels, onDevice_frame] at h
    repeat' split at h
    · exact whole .error h
    · exact whole .error h
    · exact whole .error h
    · exact whole (.write (.refl s) (by simp) fun m hx => .result hx (by simp)) h
  | getPixels p =>
    simp only [exec, execGetPixels, onDevice_frame] at h
    split at h
    · exact whole .error h
    · exact whole (.read fun _ hr => .result hr (by simp)) h
  | setPixel p =>
    simp only [exec, execSetPixel] at h
    repeat' split at h
    · exact whole .error h
    · exact whole .error h
    · exact whole .error h
    · exact whole .error h
    · rename_i a c _ hc _
      simp [coordInRange] at hc
      have := offset_lt hc.1 hc.2 s.rot
      rw [onDevice_inside _ (by omega)] at h
      exact whole (.write (.refl s) (by simp [cellBytes]; omega) fun m hx => .result hx (by simp)) h
  | getPixel p =>
    simp only [exec, execGetPixel] at h
    repeat' split at h
    · exact whole .error h
    · exact whole .error h
    · exact whole .error h
    · rename_i a _ hc
      simp [coordInRange] at hc
      have := offset_lt hc.1 hc.2 s.rot
      rw [onDevice_inside _ (by omega)] at h
      exact whole (.read fun _ hr => .result hr (by simp)) h
  | flipH rf p =>
    simp only [exec, execFlipH, onDevice_frame] at h
    split at h
    · exact whole .error h
    · exact whole (.flip (by simp [flipGridH])) h
  | flipV rf p =>
    simp only [exec, execFlipV, onDevice_frame] at h
    split at h
    · exact whole .error h
    · exact whole (.flip (by simp [flipGridV])) h
  | clear p =>
    simp only [exec, execClear, onDevice_frame] at h
    repeat' split at h
    · exact whole .error h
    · exact whole .error h
    · exact whole .error h
    · exact whole (.write (.refl s) (by simp) fun m hx => .result hx (by simp)) h
  | setRot rf p =>
    simp only [exec, execSetRot, onDevice_frame] at h
    repeat' split at h
    · exact whole .error h
    · exact whole .error h
    · exact whole .error h
    · refine whole ?_ h
      apply Ends.read
      intro b hr
      exact Ends.write hr (by simp) fun m hx => .inr (.inr (.inl ⟨_, _, _, _, hx, rfl, rfl⟩))
    · exact whole (.inr (.inr (.inl ⟨_, _, _, _, .refl s, rfl, rfl⟩))) h
  | getRot p =>
    simp only [exec, execGetRot] at h
    split at h
    · exact whole .error h
    · exact whole (.result (.refl s) (by simp)) h
  | loadFont p =>
    simp only [exec, execLoadFont] at h
    split at h
    · exact whole .error h
    · refine whole ?_ h
      unfold loadFontIn
      split
      · exact .error
      · split
        · exact .error
        · rename_i hf
          exact .inr (.inr (.inr (.inl ⟨_, rfl, hf, rfl⟩)))
  | glyph cs =>
    simp only [exec, execGlyph] at h
    repeat' split at h
    · exact whole .error h
    · exact whole .error h
    · exact whole (.result (.refl s) fun _ hi => by simp [length_lookup hi.glyphsCanonical]) h
  | glyphTrim cs =>
    simp only [exec, execGlyphTrim] at h
    repeat' split at h
    · exact whole .error h
    · exact whole .error h
    · refine whole (.result (.refl s) fun _ hi => ?_) h
      have := trimSpan_le (lookup s.glyphs (keysOf cs))
      simp [length_trimPixels (length_lookup hi.glyphsCanonical _), trimHeight]
      omega
  | showLetter p =>
    simp only [exec, execShowLetter, onDevice_frame] at h
    repeat' split at h
    · exact whole .error h
    · exact whole .error h
    · exact whole .error h
    · exact whole .error h
    · exact whole .error h
    · exact whole (.write (.refl s) (by simp) fun m hx => .result hx (by simp)) h
  | showMessage p =>
    simp only [exec, execShowMessage] at h
    repeat' split at h
    · exact whole .error h
    · exact whole .error h
    · exact whole .error h
    · exact whole .error h
    · exact whole (.inr (.inr (.inr (.inr (.inr ⟨_, _, rfl, rfl, rfl, _, rfl⟩))))) h

end Sys2Proof.Machine
end

