-- ==== Sys2Proof/Laws/Words.lean ====
section
/-! SUPPORT. Operand words and headers: each is its fields and nothing more. -/

namespace Sys2Proof

/-! ### Fields of a word written from its fields -/

@[simp] theorem PixWord.ofWord_toWord (p : PixWord) : PixWord.ofWord p.toWord = p := by
  obtain ⟨v, b, g, r⟩ := p
  simp only [PixWord.ofWord, PixWord.toWord, PixWord.mk.injEq]
  refine ⟨?_, ?_, ?_, ?_⟩ <;> ext i hi <;> simp <;> grind

@[simp] theorem XyWord.ofWord_toWord (p : XyWord) : XyWord.ofWord p.toWord = p := by
  obtain ⟨v, y, x⟩ := p
  simp only [XyWord.ofWord, XyWord.toWord, XyWord.mk.injEq]
  refine ⟨?_, ?_, ?_⟩ <;> ext i hi <;> simp <;> grind

@[simp] theorem XydWord.ofWord_toWord (p : XydWord) : XydWord.ofWord p.toWord = p := by
  obtain ⟨v, y, x⟩ := p
  simp only [XydWord.ofWord, XydWord.toWord, XydWord.mk.injEq]
  refine ⟨?_, ?_, ?_⟩ <;> ext i hi <;> simp <;> grind

@[simp] theorem DegWord.ofWord_toWord (p : DegWord) : DegWord.ofWord p.toWord = p := by
  obtain ⟨v, x⟩ := p
  simp only [DegWord.ofWord, DegWord.toWord, DegWord.mk.injEq]
  refine ⟨?_, ?_⟩ <;> ext i hi <;> simp <;> grind

@[simp] theorem CharWord.ofWord_toWord (p : CharWord) : CharWord.ofWord p.toWord = p := by
  obtain ⟨v, x⟩ := p
  simp only [CharWord.ofWord, CharWord.toWord, CharWord.mk.injEq]
  refine ⟨?_, ?_⟩ <;> ext i hi <;> simp <;> grind

@[simp] theorem CodeWord.ofWord_toWord (p : CodeWord) : CodeWord.ofWord p.toWord = p := by
  obtain ⟨v, x⟩ := p
  simp only [CodeWord.ofWord, CodeWord.toWord, CodeWord.mk.injEq]
  refine ⟨?_, ?_⟩ <;> ext i hi <;> simp <;> grind

/-! ### A word written from its own fields -/

@[simp] theorem PixWord.toWord_ofWord (w : Word) : (PixWord.ofWord w).toWord = w := by
  simp only [PixWord.ofWord, PixWord.toWord]
  ext i hi
  simp
  grind

@[simp] theorem XyWord.toWord_ofWord (w : Word) : (XyWord.ofWord w).toWord = w := by
  simp only [XyWord.ofWord, XyWord.toWord]
  ext i hi
  simp
  grind

@[simp] theorem XydWord.toWord_ofWord (w : Word) : (XydWord.ofWord w).toWord = w := by
  simp only [XydWord.ofWord, XydWord.toWord]
  ext i hi
  simp
  grind

@[simp] theorem DegWord.toWord_ofWord (w : Word) : (DegWord.ofWord w).toWord = w := by
  simp only [DegWord.ofWord, DegWord.toWord]
  ext i hi
  simp
  grind

@[simp] theorem CharWord.toWord_ofWord (w : Word) : (CharWord.ofWord w).toWord = w := by
  simp only [CharWord.ofWord, CharWord.toWord]
  ext i hi
  simp
  grind

@[simp] theorem CodeWord.toWord_ofWord (w : Word) : (CodeWord.ofWord w).toWord = w := by
  simp only [CodeWord.ofWord, CodeWord.toWord]
  ext i hi
  simp
  grind

/-! ### Headers (30_encoding.md R66) -/

@[simp] theorem headerOpc_headerWord (opc : BitVec 8) (rf : Bool) (n : Nat) :
    headerOpc (headerWord opc rf n) = opc := by
  simp only [headerOpc, headerWord]
  ext i hi
  simp
  grind

@[simp] theorem headerRf_headerWord (opc : BitVec 8) (rf : Bool) (n : Nat) :
    headerRf (headerWord opc rf n) = rf := by
  simp only [headerRf, headerWord, BitVec.getLsbD_append, BitVec.getLsbD_ofBool]
  simp

@[simp] theorem headerReserved_headerWord (opc : BitVec 8) (rf : Bool) (n : Nat) :
    headerReserved (headerWord opc rf n) = 0 := by
  simp only [headerReserved, headerWord]
  ext i hi
  simp
  grind

theorem headerLenBits_headerWord (opc : BitVec 8) (rf : Bool) (n : Nat) :
    (headerWord opc rf n).extractLsb' 16 16 = BitVec.ofNat 16 n := by
  simp only [headerWord]
  ext i hi
  simp
  grind

theorem headerLen_headerWord (opc : BitVec 8) (rf : Bool) {n : Nat} (h : n ≤ Config.lenMax) :
    headerLen (headerWord opc rf n) = n := by
  rw [headerLen, headerLenBits_headerWord, BitVec.toNat_ofNat]
  exact Nat.mod_eq_of_lt (by simp only [Config.lenMax] at h; omega)

/-- A header whose reserved bits are 0 is written from its fields. -/
theorem headerWord_of_fields (h : Word) (hr : headerReserved h = 0) :
    headerWord (headerOpc h) (headerRf h) (headerLen h) = h := by
  have hb : ∀ i, i < 7 → h.getLsbD (9 + i) = false := by
    intro i hi
    have := congrArg (fun v => v.getLsbD i) hr
    simpa [headerReserved, hi] using this
  simp only [headerWord, headerOpc, headerRf, headerLen, BitVec.ofNat_toNat, BitVec.setWidth_eq]
  apply BitVec.eq_of_getLsbD_eq
  intro i hi
  simp only [BitVec.getLsbD_append, BitVec.getLsbD_extractLsb', BitVec.getLsbD_ofBool,
    BitVec.getLsbD_zero]
  by_cases h8 : i < 8
  · simp [h8, show i < 7 + (1 + 8) by omega, show i < 1 + 8 by omega]
  · by_cases h9 : i < 9
    · obtain rfl : i = 8 := by omega
      simp
    · by_cases h16 : i < 16
      · have := hb (i - 9) (by omega)
        rw [show 9 + (i - 9) = i by omega] at this
        simp [this, show i < 7 + (1 + 8) by omega, show ¬ i < 1 + 8 by omega]
      · simp only [show ¬ i < 7 + (1 + 8) by omega, if_false]
        rw [show 16 + (i - (7 + (1 + 8))) = i by omega]
        simp; omega

theorem headerLen_le (h : Word) : headerLen h ≤ Config.lenMax := by
  have := (h.extractLsb' 16 16).isLt
  simp only [headerLen, Config.lenMax]
  omega

end Sys2Proof
end

