-- ==== Sys2Proof/Laws/PerInstr.lean ====
section
/-! SUPPORT. Families of facts about a command as syntax, one lemma per constructor. -/

namespace Sys2Proof.Laws.EncodedHeader

/-- A well-formed command is written as one header, whose fields are its opcode, its redraw flag and
its payload length, and its payload (30_encoding.md R66). -/
def Statement (i : Instr) : Prop :=
  i.WellFormed = true → ∃ h, encode i = h :: i.payload ∧ headerOpc h = i.opcode ∧
    headerRf h = i.redraw ∧ headerReserved h = 0 ∧ headerLen h = i.payload.length

theorem of_fits {i : Instr} (h : i.WellFormed = true → lenFits i.payload.length) : Statement i :=
  fun hw => ⟨_, rfl, by simp, by simp, by simp, headerLen_headerWord _ _ (h hw)⟩

/-- A payload fits when its operands' words do; one of another length fits by its check. -/
theorem payload_fits {α : Type} {ok : α → Bool} {bad : List Word → Bool} {f : α → List Word}
    {p : Payload α} (hp : p.WellFormed ok bad = true)
    (h : ∀ a, ok a = true → lenFits (f a).length) : lenFits (payloadWords f p).length := by
  cases p with
  | accepted a => exact h a hp
  | badLength ws =>
    simp only [Payload.WellFormed, Bool.and_eq_true, decide_eq_true_eq] at hp
    exact hp.1

theorem enc (p : Payload (List PixWord)) : Statement (.enc p) :=
  of_fits fun hw => payload_fits hw fun a ha => by
    simp only [Bool.or_eq_true, beq_iff_eq, lenFits, Config.lenMax, List.length_map] at ha ⊢
    omega

theorem dec (p : Payload (List CodeWord)) : Statement (.dec p) :=
  of_fits fun hw => payload_fits hw fun a ha => by
    simp only [Bool.or_eq_true, beq_iff_eq, lenFits, Config.lenMax, List.length_map] at ha ⊢
    omega

theorem xlat (p : Payload XydWord) : Statement (.xlat p) :=
  of_fits fun hw => payload_fits hw fun _ _ => by simp

theorem setPixels (p : Payload (List PixWord)) : Statement (.setPixels p) :=
  of_fits fun hw => payload_fits hw fun a ha => by
    simp only [beq_iff_eq, lenFits, Config.lenMax, List.length_map] at ha ⊢
    omega

theorem getPixels (p : Payload Unit) : Statement (.getPixels p) :=
  of_fits fun hw => payload_fits hw fun _ _ => by simp

theorem setPixel (p : Payload (XyWord × PixWord)) : Statement (.setPixel p) :=
  of_fits fun hw => payload_fits hw fun _ _ => by simp [Config.lenMax]

theorem getPixel (p : Payload XyWord) : Statement (.getPixel p) :=
  of_fits fun hw => payload_fits hw fun _ _ => by simp

theorem flipH (rf : Bool) (p : Payload Unit) : Statement (.flipH rf p) :=
  of_fits fun hw => payload_fits hw fun _ _ => by simp

theorem flipV (rf : Bool) (p : Payload Unit) : Statement (.flipV rf p) :=
  of_fits fun hw => payload_fits hw fun _ _ => by simp

theorem clear (p : Payload (Option PixWord)) : Statement (.clear p) :=
  of_fits fun hw => payload_fits hw fun a _ => by cases a <;> simp

theorem setRot (rf : Bool) (p : Payload DegWord) : Statement (.setRot rf p) :=
  of_fits fun hw => payload_fits hw fun _ _ => by simp

theorem getRot (p : Payload Unit) : Statement (.getRot p) :=
  of_fits fun hw => payload_fits hw fun _ _ => by simp

theorem loadFont (p : Payload FontOperands) : Statement (.loadFont p) :=
  of_fits fun hw => payload_fits hw fun a ha => by
    simp only [decide_eq_true_eq, lenFits, List.length_cons, List.length_append,
      List.length_map] at ha ⊢
    omega

theorem glyph (cs : List CharWord) : Statement (.glyph cs) :=
  of_fits fun hw => by simpa [Instr.WellFormed, Instr.payload] using hw

theorem glyphTrim (cs : List CharWord) : Statement (.glyphTrim cs) :=
  of_fits fun hw => by simpa [Instr.WellFormed, Instr.payload] using hw

theorem showLetter (p : Payload LetterOperands) : Statement (.showLetter p) :=
  of_fits fun hw => payload_fits hw fun a ha => by
    simp only [decide_eq_true_eq, lenFits, List.length_cons, List.length_map] at ha ⊢
    omega

theorem showMessage (p : Payload MessageOperands) : Statement (.showMessage p) :=
  of_fits fun hw => payload_fits hw fun a ha => by
    simp only [decide_eq_true_eq, lenFits, List.length_cons, List.length_map] at ha ⊢
    omega

end Sys2Proof.Laws.EncodedHeader
end

