-- ==== Sys2Proof/Machine/Assembler.lean ====
section
/-! DEFINITION. The assembler: one line of assembly text to one command (30_encoding.md R82). A host
tool: no step calls it (log 21). -/

namespace Sys2Proof.Machine

/-! ### From text to tokens -/

/-- The tokens of a line. -/
inductive AsmToken where
  /-- A mnemonic, its `.R` suffix included. -/
  | name (cs : List Char)
  | num (n : Int)
  /-- A string, or one `U+hhhh` key: its keys in order. -/
  | text (keys : List Nat)
  | lparen
  | rparen
  | lbracket
  | rbracket
  | comma
deriving DecidableEq, Repr

/-- Where in a token the scanner is; `acc` is what it has read of it, newest first. -/
inductive ScanMode where
  | between
  | word (acc : List Char)
  | str (acc : List Nat)
  | escape (acc : List Nat)
  /-- After backslash `u`, before the opening brace. -/
  | codeOpen (acc : List Nat)
  /-- Inside the braces: the code point read so far, `none` before its first digit. -/
  | code (acc : List Nat) (n : Option Nat)
deriving DecidableEq, Repr

/-- The value of a hexadecimal digit. -/
def hexDigit (c : Char) : Option Nat :=
  let n := c.toNat
  if 48 ≤ n ∧ n ≤ 57 then some (n - 48)
  else if 97 ≤ n ∧ n ≤ 102 then some (n - 87)
  else if 65 ≤ n ∧ n ≤ 70 then some (n - 55)
  else none

/-- A number in a base, digit by digit; `none` on another character or no digit. -/
def digits (base : Nat) : Option Nat → List Char → Option Nat
  | n, [] => n
  | n, c :: cs =>
    match hexDigit c with
    | some d => if d < base then digits base (some (n.getD 0 * base + d)) cs else none
    | none => none

/-- A bare word: a number, a `U+hhhh` key, or a mnemonic. -/
def classify : List Char → AsmToken
  | '0' :: 'x' :: cs => match digits 16 none cs with
    | some n => .num n
    | none => .name ('0' :: 'x' :: cs)
  | 'U' :: '+' :: cs => match digits 16 none cs with
    | some n => .text [n]
    | none => .name ('U' :: '+' :: cs)
  | '-' :: cs => match digits 10 none cs with
    | some n => .num (-n)
    | none => .name ('-' :: cs)
  | cs => match digits 10 none cs with
    | some n => .num n
    | none => .name cs

/-- The token of a one-character mark. -/
def markToken (c : Char) : Option AsmToken :=
  if c = '(' then some .lparen
  else if c = ')' then some .rparen
  else if c = '[' then some .lbracket
  else if c = ']' then some .rbracket
  else if c = ',' then some .comma
  else none

/-- The tokens of a line; `none` on an unfinished string or an escape that is none of the three
(30_encoding.md R82). -/
def scan : ScanMode → List Char → Option (List AsmToken)
  | .between, [] => some []
  | .word acc, [] => some [classify acc.reverse]
  | _, [] => none
  | .between, c :: cs =>
    if c = ' ' then scan .between cs
    else if c = '"' then scan (.str []) cs
    else match markToken c with
      | some t => (scan .between cs).map (t :: ·)
      | none => scan (.word [c]) cs
  | .word acc, c :: cs =>
    if c = ' ' then (scan .between cs).map (classify acc.reverse :: ·)
    else match markToken c with
      | some t => (scan .between cs).map (classify acc.reverse :: t :: ·)
      | none => scan (.word (c :: acc)) cs
  | .str acc, c :: cs =>
    if c = '"' then (scan .between cs).map (.text acc.reverse :: ·)
    else if c = '\\' then scan (.escape acc) cs
    else scan (.str (c.toNat :: acc)) cs
  | .escape acc, c :: cs =>
    if c = '"' ∨ c = '\\' then scan (.str (c.toNat :: acc)) cs
    else if c = 'u' then scan (.codeOpen acc) cs
    else none
  | .codeOpen acc, c :: cs => if c.toNat = 0x7B then scan (.code acc none) cs else none
  | .code acc n, c :: cs =>
    if c.toNat = 0x7D then
      match n with
      | some k => scan (.str (k :: acc)) cs
      | none => none
    else match hexDigit c with
      | some d => scan (.code acc (some (n.getD 0 * 16 + d))) cs
      | none => none

/-! ### From tokens to operands; each refuses a value that cannot be encoded (30_encoding.md R82) -/

/-- A channel in -512..511. -/
def asmChannel (n : Int) : Option (BitVec 10) :=
  if -512 ≤ n ∧ n ≤ 511 then some (BitVec.ofInt 10 n) else none

/-- A pixel `(r,g,b)`. -/
def asmPixel (r g b : Int) : Option PixWord :=
  match asmChannel r, asmChannel g, asmChannel b with
  | some r, some g, some b => some { rsv := 0, b := b, g := g, r := r }
  | _, _, _ => none

/-- An unsigned number of `w` bits. -/
def asmNat (w : Nat) (n : Int) : Option (BitVec w) :=
  if 0 ≤ n ∧ n < 2 ^ w then some (BitVec.ofInt w n) else none

/-- The CHAR words of a string: keys up to 0x1FFFFF. -/
def asmChars : List Nat → Option (List CharWord)
  | [] => some []
  | k :: ks =>
    if k ≤ 0x1FFFFF then (asmChars ks).map ({ rsv := 0, key := BitVec.ofNat 21 k } :: ·) else none

/-- One or more pixels separated by commas up to the closing bracket, and the tokens after it. -/
def asmPixels : List AsmToken → Option (List PixWord × List AsmToken)
  | .lparen :: .num r :: .comma :: .num g :: .comma :: .num b :: .rparen :: .rbracket :: rest =>
    (asmPixel r g b).map fun p => ([p], rest)
  | .lparen :: .num r :: .comma :: .num g :: .comma :: .num b :: .rparen :: .comma :: rest =>
    match asmPixel r g b, asmPixels rest with
    | some p, some (ps, tail) => some (p :: ps, tail)
    | _, _ => none
  | _ => none

/-- Codes separated by commas up to the closing bracket at the end of the line. -/
def asmCodes : List AsmToken → Option (List CodeWord)
  | [.num c, .rbracket] => (asmNat 16 c).map fun c => [{ rsv := 0, code := c }]
  | .num c :: .comma :: rest =>
    match asmNat 16 c, asmCodes rest with
    | some c, some cs => some ({ rsv := 0, code := c } :: cs)
    | _, _ => none
  | _ => none

/-- An XY word. -/
def asmXy (x y : Int) : Option XyWord :=
  match asmNat 8 x, asmNat 8 y with
  | some x, some y => some { rsv := 0, y := y, x := x }
  | _, _ => none

/-! ### Forms of a command -/

/-- A command of one pixel operand. -/
def asmOnePixel (f : PixWord → Instr) : List AsmToken → Option Instr
  | [.lparen, .num r, .comma, .num g, .comma, .num b, .rparen] => (asmPixel r g b).map f
  | _ => none

/-- A command of 64 pixel operands in brackets. -/
def asmFrame (f : List PixWord → Instr) : List AsmToken → Option Instr
  | .lbracket :: rest => match asmPixels rest with
    | some (ps, []) => if ps.length = 64 then some (f ps) else none
    | _ => none
  | _ => none

/-- `ENC (r,g,b)` or `ENC [ (r,g,b) × 64 ]`. -/
def asmEnc (ts : List AsmToken) : Option Instr :=
  (asmOnePixel (fun p => .enc (.accepted [p])) ts).or
    (asmFrame (fun ps => .enc (.accepted ps)) ts)

/-- `DEC c` or `DEC [ c × 64 ]`. -/
def asmDec : List AsmToken → Option Instr
  | [.num c] => (asmNat 16 c).map fun c => .dec (.accepted [{ rsv := 0, code := c }])
  | .lbracket :: rest => match asmCodes rest with
    | some cs => if cs.length = 64 then some (.dec (.accepted cs)) else none
    | none => none
  | _ => none

/-- `XLAT x, y, deg`. -/
def asmXlat : List AsmToken → Option Instr
  | [.num x, .comma, .num y, .comma, .num d] =>
    match asmNat 8 x, asmNat 8 y, asmNat 16 d with
    | some x, some y, some d => some (.xlat (.accepted { deg := d, y := y, x := x }))
    | _, _, _ => none
  | _ => none

/-- `SET_PIXEL x, y, (r,g,b)`. -/
def asmSetPixel : List AsmToken → Option Instr
  | [.num x, .comma, .num y, .comma, .lparen, .num r, .comma, .num g, .comma, .num b, .rparen] =>
    match asmXy x y, asmPixel r g b with
    | some a, some p => some (.setPixel (.accepted (a, p)))
    | _, _ => none
  | _ => none

/-- `GET_PIXEL x, y`. -/
def asmGetPixel : List AsmToken → Option Instr
  | [.num x, .comma, .num y] => (asmXy x y).map fun a => .getPixel (.accepted a)
  | _ => none

/-- `CLEAR` or `CLEAR (r,g,b)`. -/
def asmClear : List AsmToken → Option Instr
  | [] => some (.clear (.accepted none))
  | ts => asmOnePixel (fun p => .clear (.accepted (some p))) ts

/-- `SET_ROT deg`. -/
def asmSetRot (rf : Bool) : List AsmToken → Option Instr
  | [.num d] => (asmNat 16 d).map fun d => .setRot rf (.accepted { rsv := 0, deg := d })
  | _ => none

/-- A command with no operand. -/
def asmBare (i : Instr) : List AsmToken → Option Instr
  | [] => some i
  | _ => none

/-- `LOAD_FONT [ A pixels ], "order"`. -/
def asmLoadFont : List AsmToken → Option Instr
  | [.lbracket, .rbracket, .comma, .text ks] =>
    (asmChars ks).map fun cs => .loadFont (.accepted { atlas := [], order := cs })
  | .lbracket :: rest => match asmPixels rest with
    | some (ps, [.comma, .text ks]) =>
      (asmChars ks).map fun cs => .loadFont (.accepted { atlas := ps, order := cs })
    | _ => none
  | _ => none

/-- A command of one string. -/
def asmString (f : List CharWord → Instr) : List AsmToken → Option Instr
  | [.text ks] => (asmChars ks).map f
  | _ => none

/-- Two colours and a string. -/
def asmColours (f : PixWord → PixWord → List CharWord → Instr) : List AsmToken → Option Instr
  | [.lparen, .num r, .comma, .num g, .comma, .num b, .rparen, .comma,
     .lparen, .num r', .comma, .num g', .comma, .num b', .rparen, .comma, .text ks] =>
    match asmPixel r g b, asmPixel r' g' b', asmChars ks with
    | some t, some u, some cs => some (f t u cs)
    | _, _, _ => none
  | _ => none

/-- `SHOW_LETTER (text), (back), "s"`. -/
def asmShowLetter (ts : List AsmToken) : Option Instr :=
  asmColours (fun t u cs => .showLetter (.accepted { text := t, back := u, chars := cs })) ts

/-- `SHOW_MESSAGE us, (text), (back), "s"`. -/
def asmShowMessage : List AsmToken → Option Instr
  | .num us :: .comma :: rest => match asmNat 32 us with
    | some v => asmColours
        (fun t u cs => .showMessage (.accepted { speed := v, text := t, back := u, chars := cs })) rest
    | none => none
  | _ => none

/-- The command of a mnemonic, with or without `.R`, and its operand tokens (30_encoding.md R82). -/
def asmCommand (name : String) (ts : List AsmToken) : Option Instr :=
  if name = "ENC" then asmEnc ts
  else if name = "DEC" then asmDec ts
  else if name = "XLAT" then asmXlat ts
  else if name = "SET_PIXELS" then asmFrame (fun ps => .setPixels (.accepted ps)) ts
  else if name = "GET_PIXELS" then asmBare (.getPixels (.accepted ())) ts
  else if name = "SET_PIXEL" then asmSetPixel ts
  else if name = "GET_PIXEL" then asmGetPixel ts
  else if name = "FLIP_H" then asmBare (.flipH false (.accepted ())) ts
  else if name = "FLIP_H.R" then asmBare (.flipH true (.accepted ())) ts
  else if name = "FLIP_V" then asmBare (.flipV false (.accepted ())) ts
  else if name = "FLIP_V.R" then asmBare (.flipV true (.accepted ())) ts
  else if name = "CLEAR" then asmClear ts
  else if name = "SET_ROT" then asmSetRot false ts
  else if name = "SET_ROT.R" then asmSetRot true ts
  else if name = "GET_ROT" then asmBare (.getRot (.accepted ())) ts
  else if name = "LOAD_FONT" then asmLoadFont ts
  else if name = "GLYPH" then asmString (fun cs => .glyph cs) ts
  else if name = "GLYPH_TRIM" then asmString (fun cs => .glyphTrim cs) ts
  else if name = "SHOW_LETTER" then asmShowLetter ts
  else if name = "SHOW_MESSAGE" then asmShowMessage ts
  else none

/-- The words of one line of assembly; `none` where the assembler refuses it, more than `LEN_MAX`
payload words included (30_encoding.md R82). -/
def assemble (line : List Char) : Option (List Word) :=
  match scan .between line with
  | some (.name n :: ts) =>
    match asmCommand (String.ofList n) ts with
    | some i => if i.payload.length ≤ Config.lenMax then some (encode i) else none
    | none => none
  | _ => none

end Sys2Proof.Machine
end

