-- ==== Sys2Proof/Tests/Slice0.lean ====
section
/-! SUPPORT. The model's own tests: ill-formed commands refused, words written out from the spec's
encodings decoded, one-step vectors of 95_test_vectors.md, and for each statement with hypotheses a
state and operands that meet them. -/

namespace Sys2Proof.Machine

/-! ### Helpers -/

/-- A valid PIX word of three channels. -/
abbrev rgb (r g b : BitVec 10) : PixWord := ⟨0, b, g, r⟩

/-- A PIX word with reserved bit 30 set. -/
abbrev rsvPix : PixWord := ⟨1, 0, 0, 0⟩

/-- A CHAR word of a key. -/
abbrev chr (k : Key) : CharWord := ⟨0, k⟩

/-- The state after reset with these coming device events. -/
abbrev after (ev : List Config.DeviceEvent) : State := { State.reset with events := ev }

/-- The state an outcome gives, the reset state where it stops. -/
def stateOf : Out → State
  | .next s => s
  | .fault _ => State.reset
  | .refused _ => State.reset

/-- What RSP holds after one step on these command words. -/
def answer (s : State) (ws : List Word) : List Word := (stateOf (step { s with cmd := ws })).rsp

/-- The frame buffer after one step on these command words. -/
def frame (s : State) (ws : List Word) : Memory := (stateOf (step { s with cmd := ws })).mem

/-- Eight pixels from a row mask of 95_test_vectors.md §5: bit `c` set is white. -/
def maskRow (m : BitVec 8) : List Pixel :=
  (List.range 8).map fun c => if m.getLsbD c then Pixel.white else Pixel.black

/-- The `?` glyph of the test font (95_test_vectors.md §5). -/
def glyphQ : Glyph := [0x20, 0x40, 0x45, 0x48, 0x30].flatMap maskRow

/-- The `A` glyph of the test font. -/
def glyphA : Glyph := [0x3F, 0x48, 0x48, 0x3F, 0x00].flatMap maskRow

/-- The `"` glyph of the test font. -/
def glyphDitto : Glyph := [0x00, 0x60, 0x00, 0x60, 0x00].flatMap maskRow

/-- After reset with `?` alone loaded: a store of one key fits any capacity. -/
abbrev loaded (ev : List Config.DeviceEvent) : State :=
  { after ev with fontLoaded := true, glyphs := [(0x3F, glyphQ)] }

/-- With `?`, `"` and `A` loaded. -/
abbrev loaded3 (ev : List Config.DeviceEvent) : State :=
  { loaded ev with glyphs := [(0x22, glyphDitto), (0x3F, glyphQ), (0x41, glyphA)] }

/-- A glyph as PIX operands. -/
def asPix (g : Glyph) : List PixWord := g.map fun p => if p = Pixel.white then rgb 255 255 255 else rgb 0 0 0

/-- The cells that hold a code. -/
def cellsOf (m : Memory) (c : Code565) : List Nat :=
  (List.range 64).filter fun p => m.read (2 * p + 1) ++ m.read (2 * p) == c

theorem loaded_inv (ev : List Config.DeviceEvent) : (loaded ev).Inv where
  memCanonical := rfl
  glyphsCanonical := (by decide : GlyphMap.wfFrom 0 [(0x3F, glyphQ)] = true)
  glyphsFit := Nat.succ_le_succ (Nat.zero_le _)
  fallbackStored := fun _ =>
    (by decide : (GlyphMap.find [(0x3F, glyphQ)] fallbackKey).isSome = true)
  emptyUnloaded := fun h => by cases h
  controlShaped := rfl
  fullHolds := fun h => by cases h

theorem reset_inv (ev : List Config.DeviceEvent) : (after ev).Inv where
  memCanonical := rfl
  glyphsCanonical := rfl
  glyphsFit := Nat.zero_le _
  fallbackStored := fun h => by cases h
  emptyUnloaded := fun _ => rfl
  controlShaped := rfl
  fullHolds := fun h => by cases h

/-! ### Ill-formed commands -/

theorem test_wf_enc : Instr.WellFormed (.enc (.accepted [])) = false := by decide
theorem test_wf_enc_length : Instr.WellFormed (.enc (.badLength [0])) = false := by decide
theorem test_wf_dec : Instr.WellFormed (.dec (.accepted [⟨0, 0⟩, ⟨0, 0⟩])) = false := by decide
theorem test_wf_dec_length : Instr.WellFormed (.dec (.badLength [0])) = false := by decide
theorem test_wf_xlat_length : Instr.WellFormed (.xlat (.badLength [0])) = false := by decide
theorem test_wf_setPixels : Instr.WellFormed (.setPixels (.accepted [rgb 0 0 0])) = false := by decide
theorem test_wf_setPixels_length :
    Instr.WellFormed (.setPixels (.badLength (List.replicate 64 0))) = false := by decide
theorem test_wf_getPixels_length : Instr.WellFormed (.getPixels (.badLength [])) = false := by decide
theorem test_wf_setPixel_length : Instr.WellFormed (.setPixel (.badLength [0, 0])) = false := by decide
theorem test_wf_getPixel_length : Instr.WellFormed (.getPixel (.badLength [0])) = false := by decide
theorem test_wf_flipH_length : Instr.WellFormed (.flipH true (.badLength [])) = false := by decide
theorem test_wf_flipV_length : Instr.WellFormed (.flipV false (.badLength [])) = false := by decide
theorem test_wf_clear_length : Instr.WellFormed (.clear (.badLength [])) = false ∧
    Instr.WellFormed (.clear (.badLength [0])) = false := by decide
theorem test_wf_setRot_length : Instr.WellFormed (.setRot true (.badLength [0])) = false := by decide
theorem test_wf_getRot_length : Instr.WellFormed (.getRot (.badLength [])) = false := by decide
theorem test_wf_loadFont_length : Instr.WellFormed (.loadFont (.badLength [1, 0])) = false := by decide
theorem test_wf_showLetter_length : Instr.WellFormed (.showLetter (.badLength [0, 0])) = false := by
  decide
theorem test_wf_showMessage_length :
    Instr.WellFormed (.showMessage (.badLength [0, 0, 0])) = false := by decide

/-- No command has more than `LEN_MAX` payload words, whatever they are. -/
theorem test_wf_too_long (n : Nat) (h : Config.lenMax < n) :
    Instr.WellFormed (.glyph (List.replicate n (chr 0))) = false ∧
    Instr.WellFormed (.glyphTrim (List.replicate n (chr 0))) = false ∧
    Instr.WellFormed (.getRot (.badLength (List.replicate n 0))) = false ∧
    Instr.WellFormed (.loadFont (.accepted ⟨List.replicate n (rgb 0 0 0), []⟩)) = false ∧
    Instr.WellFormed (.showLetter (.accepted ⟨rgb 0 0 0, rgb 0 0 0, List.replicate n (chr 0)⟩)) =
      false ∧
    Instr.WellFormed (.showMessage
      (.accepted ⟨0, rgb 0 0 0, rgb 0 0 0, List.replicate n (chr 0)⟩)) = false := by
  simp [Instr.WellFormed, Payload.WellFormed]
  omega

/-! ### Words written out from 30_encoding.md, one or more for each constructor -/

theorem test_decode_enc :
    fetch [0x00010001, 0x0560D012] = some (.command (.enc (.accepted [rgb 18 52 86])), []) := by decide
theorem test_decode_dec :
    fetch [0x00010002, 0x000008A3] = some (.command (.dec (.accepted [⟨0, 0x08A3⟩])), []) := by decide
theorem test_decode_xlat :
    fetch [0x00010003, 0x002D0800] = some (.command (.xlat (.accepted ⟨45, 8, 0⟩)), []) := by decide
theorem test_decode_setPixels : fetch (0x00400010 :: List.replicate 64 0x0FF3FCFF) =
    some (.command (.setPixels (.accepted (List.replicate 64 (rgb 255 255 255)))), []) := by decide
theorem test_decode_setPixels_length : fetch (0x003F0010 :: List.replicate 63 0) =
    some (.command (.setPixels (.badLength (List.replicate 63 0))), []) := by decide
theorem test_decode_getPixels :
    fetch [0x00000011] = some (.command (.getPixels (.accepted ())), []) := by decide
theorem test_decode_setPixel : fetch [0x00020012, 0x00000508, 0x00000100] =
    some (.command (.setPixel (.accepted (⟨0, 5, 8⟩, rgb 256 0 0))), []) := by decide
theorem test_decode_getPixel : fetch [0x00010013, 0x00010203] =
    some (.command (.getPixel (.accepted ⟨1, 2, 3⟩)), []) := by decide
theorem test_decode_flipH : fetch [0x00000014] = some (.command (.flipH false (.accepted ())), []) := by
  decide
theorem test_decode_flipV : fetch [0x00000115] = some (.command (.flipV true (.accepted ())), []) := by
  decide
theorem test_decode_clear : fetch [0x00000016] = some (.command (.clear (.accepted none)), []) := by
  decide
theorem test_decode_clear_colour : fetch [0x00010016, 0x01E0500A] =
    some (.command (.clear (.accepted (some (rgb 10 20 30)))), []) := by decide
theorem test_decode_setRot : fetch [0x00010118, 0x0001005A] =
    some (.command (.setRot true (.accepted ⟨1, 90⟩)), []) := by decide
theorem test_decode_getRot : fetch [0x00000019, 0x00000019] =
    some (.command (.getRot (.accepted ())), [0x00000019]) := by decide
theorem test_decode_loadFont : fetch [0x00040020, 0x00000002, 0x000000FF, 0x40000000, 0x0000003F] =
    some (.command (.loadFont (.accepted ⟨[rgb 255 0 0, rsvPix], [chr 0x3F]⟩)), []) := by decide
theorem test_decode_loadFont_length : fetch [0x00030020, 0x00000005, 0, 0] =
    some (.command (.loadFont (.badLength [5, 0, 0])), []) := by decide
theorem test_decode_glyph : fetch [0x00020021, 0x00000041, 0x00200042] =
    some (.command (.glyph [chr 0x41, ⟨1, 0x42⟩]), []) := by decide
theorem test_decode_glyphTrim : fetch [0x00000022] = some (.command (.glyphTrim []), []) := by decide
theorem test_decode_showLetter : fetch [0x00020030, 0x000000FF, 0x00000000] =
    some (.command (.showLetter (.accepted ⟨rgb 255 0 0, rgb 0 0 0, []⟩)), []) := by decide
theorem test_decode_showMessage :
    fetch [0x00040031, 0x000003E8, 0x0FF3FCFF, 0x00000000, 0x0000003A] = some (.command
      (.showMessage (.accepted ⟨1000, rgb 255 255 255, rgb 0 0 0, [chr 0x3A]⟩)), []) := by decide
theorem test_decode_reserved_opcode : fetch [0x00020017, 0x12345678, 0x9ABCDEF0, 7] =
    some (.rejected .reservedOpcode, [7]) := by decide
theorem test_decode_reserved_header : fetch [0x00000201] = some (.rejected .reservedBits, []) ∧
    fetch [0x00000119] = some (.rejected .reservedBits, []) := by decide
theorem test_decode_incomplete : fetch [] = none ∧ fetch [0x00010003] = none := by decide

/-- The host's numbering: the header lowest, each payload word 32 bits higher; zeros above `nbits`. -/
theorem test_table_word :
    decodeTableWord 32 0x00000019 = some (.getRot (.accepted ())) ∧
    decodeTableWord 64 0x005A050300010003 = some (.xlat (.accepted ⟨90, 5, 3⟩)) ∧
    decodeTableWord 32 0x00010003 = some (.xlat (.accepted ⟨0, 0, 0⟩)) ∧
    decodeTableWord 32 0x00000017 = none := by decide
theorem test_fetch_word : ((stateOf (step (State.reset.withFetchWord 64 0x00B4050300010003))).rsp) =
    [0x00010000, 0x00000014] := by decide

/-! ### Vectors of 95_test_vectors.md, one step each -/

/-- V-C1. -/
theorem test_enc : answer (after []) [0x00010001, 0x01E0500A] = [0x00010000, 0x000008A3] := by decide
/-- V-C9: a negative channel. -/
theorem test_enc_negative : answer (after []) [0x00010001, 0x000003FF] = [0x00000201] := by decide
/-- V-C12. -/
theorem test_dec : answer (after []) [0x00010002, 0x0000ABCD] = [0x00010000, 0x0681E0A8] := by decide
/-- V-C19. -/
theorem test_dec_reserved : answer (after []) [0x00010002, 0x00010000] = [0x00000205] := by decide
/-- V-R1. -/
theorem test_xlat : answer (after []) [0x00010003, 0x005A0503] = [0x00010000, 0x0000001A] := by decide
/-- V-R6: the rotation is checked before the coordinates. -/
theorem test_xlat_order : answer (after []) [0x00010003, 0x002D0808] = [0x00000102] := by decide
/-- V-S1. -/
theorem test_setPixels : frame { after [.ok] with rot := .deg90 }
    (0x00400010 :: 0x000000FF :: List.replicate 63 0) = [(15, 0xF8)] := by decide +kernel
/-- V-S5: the header before the length. -/
theorem test_setPixels_header : answer (after []) (0x00400110 :: List.replicate 64 0) =
    [0x00000205] := by decide
/-- V-S2, the first word, with cell 56 holding 0xFFFF under 270 degrees. -/
theorem test_getPixels : (answer { after [.ok] with rot := .deg270, mem := [(112, 0xFF), (113, 0xFF)] }
    [0x00000011]).take 3 = [0x00400000, 0x0F83F0F8, 0] := by decide +kernel
/-- V-S6. -/
theorem test_setPixel : frame { after [.ok] with rot := .deg90 }
    [0x00020012, 0x00000503, 0x01E0500A] = [(52, 0xA3), (53, 0x08)] := by decide
/-- V-S18: a failed open loses only the two bytes of the cell. -/
theorem test_setPixel_fails : answer (after [.failOpen]) [0x00020012, 0, 0] = [0x00000104] := by decide
/-- V-S7. -/
theorem test_getPixel : answer
    { after [.ok] with rot := .deg90, mem := [(52, 0xA3), (53, 0x08)] } [0x00010013, 0x00000503] =
    [0x00010000, 0x01805008] := by decide
/-- V-S10, word 31 after the status. -/
theorem test_flipH : (answer { after [.ok] with mem := [(49, 0xF8)] } [0x00000014]).getD 32 0 =
    0x000000F8 := by decide +kernel
/-- V-S11. -/
theorem test_flipH_redraw : frame { after [.ok, .ok] with mem := [(49, 0xF8)] } [0x00000114] =
    [(63, 0xF8)] := by decide +kernel
/-- V-S13, word 32 after the status; the frame buffer stays. -/
theorem test_flipV : (answer { after [.ok] with mem := [(49, 0xF8)] } [0x00000015]).getD 33 0 =
    0x000000F8 := by decide +kernel
/-- V-S14. -/
theorem test_clear : frame { after [.ok] with mem := [(3, 1), (127, 2)] } [0x00000016] = [] := by
  decide +kernel
/-- V-S17. -/
theorem test_clear_fails : answer (after [.failAccess]) [0x00010016, 0] = [0x00000304] := by decide
/-- V-R11. -/
theorem test_setRot_redraw : frame { after [.ok, .ok] with mem := [(1, 0xF8)] }
    [0x00010118, 0x000000B4] = [(127, 0xF8)] := by decide +kernel
/-- V-R12: no write after a failed read; ROT stays. -/
theorem test_setRot_fails : (stateOf (step { after [.failAccess] with
    cmd := [0x00010118, 0x0000005A] })).rot = .deg0 ∧
    answer (after [.failAccess]) [0x00010118, 0x0000005A] = [0x00000204] := by decide
/-- V-R13. -/
theorem test_getRot : answer { after [] with rot := .deg270 } [0x00000019] =
    [0x00010000, 0x0000010E] := by decide
/-- V-G11: the last block of a repeated key stays. -/
theorem test_loadFont : (loadFontIn 2 ⟨asPix glyphA ++ (asPix glyphQ ++ asPix glyphA),
    [chr 0x3F, chr 0x3F, chr 0x41]⟩ (after [])).glyphs = [(0x3F, glyphQ), (0x41, glyphA)] := by
  decide +kernel
/-- V-G9 at a capacity of one key. -/
theorem test_loadFont_capacity : (loadFontIn 1 ⟨asPix glyphQ ++ asPix glyphA,
    [chr 0x3F, chr 0x41]⟩ (after [])).rsp = [0x00000503] := by decide +kernel
/-- V-G12, row 0. -/
theorem test_glyph : (answer (loaded3 []) [0x00010021, 0x00000041]).take 9 = [0x00280000, 0x0FF3FCFF,
    0x0FF3FCFF, 0x0FF3FCFF, 0x0FF3FCFF, 0x0FF3FCFF, 0x0FF3FCFF, 0, 0] := by decide
/-- V-G14: an unknown key answers `?`. -/
theorem test_glyph_fallback : answer (loaded3 []) [0x00010021, 0x0000005A] =
    answer (loaded3 []) [0x00010021, 0x0000003F] := by decide
/-- V-G18: the black row between two lit rows is kept. -/
theorem test_glyphTrim : answer (loaded3 []) [0x00010022, 0x00000022] =
    [0x00190000, 3, 0, 0, 0, 0, 0, 0x0FF3FCFF, 0x0FF3FCFF, 0, 0, 0, 0, 0, 0, 0, 0, 0, 0, 0, 0, 0, 0,
      0x0FF3FCFF, 0x0FF3FCFF, 0] := by decide
/-- V-G1. -/
theorem test_glyphTrim_noFont : answer (after []) [0x00010022, 0x0000003F] = [0x00000703] := by decide
/-- P3 step 3. -/
theorem test_showLetter : cellsOf (frame (loaded3 [.ok])
    [0x00030030, 0x000000FF, 0x00000000, 0x00000041]) 0xF800 =
    [10, 11, 17, 20, 25, 28, 33, 34, 35, 36, 41, 44, 49, 52, 57, 60] := by decide +kernel
/-- V-T2: the colour before the text's length. -/
theorem test_showLetter_order : answer (loaded []) [0x00040030, 0x0000012C, 0, 0x41, 0x42] =
    [0x00000201] := by decide
/-- V-T10. -/
theorem test_showMessage_colour : answer (loaded []) [0x00040031, 0, 0x00000100, 0, 0x3F] =
    [0x00000201] := by decide

/-- The scroll of V-T7 at a window. -/
abbrev scrollQ (speed : Word) (i : Nat) : Scroll :=
  ⟨speed, Pixel.white, Pixel.black, stripOf [(0x3F, glyphQ)] [0x3F], i⟩

/-- V-T7, window 3. -/
theorem test_showMessage_window :
    cellsOf (stateOf (step { loaded [.ok] with ctl := .scrolling (scrollQ 0 3) })).mem 0xFFFF =
    [14, 15, 21, 47, 63] := by decide +kernel
/-- 44_text.md R208: 14 windows for V-T7. -/
theorem test_strip_length : (stripOf [(0x3F, glyphQ)] [0x3F]).length - 8 = 14 := by decide

/-! ### The host's side -/

/-- 30_encoding.md R68. -/
theorem test_bytes : bytesOfWord 0x01E0500A = [0x0A, 0x50, 0xE0, 0x01] ∧
    wordsOfBytes [0x0A, 0x50, 0xE0, 0x01, 0xFF] = [0x01E0500A] := by decide
/-- V-R1 and V-T6 as assembly (30_encoding.md R82). -/
theorem test_assemble : assemble "XLAT 3, 5, 90".toList = some [0x00010003, 0x005A0503] ∧
    assemble "SET_ROT.R 180".toList = some [0x00010118, 0x000000B4] := by decide
theorem test_assemble_message :
    assemble "SHOW_MESSAGE 0, (255,255,255), (0,0,0), \":\"".toList =
    some [0x00040031, 0x00000000, 0x0FF3FCFF, 0x00000000, 0x0000003A] := by decide +kernel
/-- Words sent while reset is asserted are discarded. -/
theorem test_reset_discards : (hostSend [0x19] (hostReset true State.reset)).cmd = [] ∧
    (hostSend [0x19] State.reset).cmd = [0x19] := by decide

/-! ### Witnesses: for each statement with hypotheses, values that meet them together -/

theorem pixOk_low : pixOk (rgb 0 0 0) := by unfold pixOk channelOk; decide
theorem pixOk_high : pixOk (rgb 255 255 255) := by unfold pixOk channelOk; decide
theorem not_pixOk_above : ¬ pixOk (rgb 0 0 256) := by unfold pixOk channelOk; decide
theorem not_pixOk_below : ¬ pixOk (rgb 0x3FF 0 0) := by unfold pixOk channelOk; decide

/-- Both colours of a text command at the ends of their range, one character. -/
theorem text_low_high : textUnreserved (rgb 0 0 0) (rgb 255 255 255) [chr 0x3F] := by
  unfold textUnreserved; decide

theorem witness_EncodedCommandDecodesBack :
    Instr.WellFormed (.clear (.accepted none)) = true ∧
    Instr.WellFormed (.enc (.accepted (List.replicate 64 rsvPix))) = true ∧
    Instr.WellFormed (.loadFont (.badLength [3, 0, 0])) = true ∧
    Instr.WellFormed (.setRot true (.accepted ⟨0, 90⟩)) = true := by decide

theorem witness_DecodedCommandEncodesBack :
    [(0x005A0503 : Word)].length = headerLen 0x00010003 ∧
    decode 0x00010003 [0x005A0503] = .command (.xlat (.accepted ⟨90, 5, 3⟩)) := by decide

/-- The ends of each range of reserved opcodes, and their neighbours in the table. -/
theorem witness_ReservedOpcodeIsIllegalCommand :
    ([0x00, 0x04, 0x0F, 0x17, 0x1A, 0x1F, 0x23, 0x2F, 0x32, 0xFF].map (decode · [])) =
      List.replicate 10 (.rejected .reservedOpcode) ∧
    [0x01, 0x03, 0x10, 0x16, 0x18, 0x19, 0x20, 0x22, 0x30, 0x31].all
      (fun o => decode o [] != .rejected .reservedOpcode) = true ∧
    (after []).resetIn = false ∧ (after []).ctl = .idle ∧
    [(1 : Word), 2].length = headerLen 0x00020017 := by decide

/-- Every reserved bit at an end of its range, and `RF` where it is defined. -/
theorem witness_ReservedHeaderBitIsIllegalCommand :
    ([0x00000219, 0x00008019, 0x00000119, 0x00008114].map (decode · [])) =
      List.replicate 4 (.rejected .reservedBits) ∧
    [0x00000114, 0x00000115, 0x00000118].all (fun h => decode h [] != .rejected .reservedBits &&
      decode h [] != .rejected .reservedOpcode) = true ∧
    ([] : List Word).length = headerLen 0x00000219 := by decide

/-- A header and words that decode to a command of a refused length. -/
def refusedLength (h : Word) (ws : List Word) : Bool :=
  match decode h ws with
  | .command i => lengthRefused i
  | .rejected _ => false

/-- One refused length for each clause, and accepted ones next to them. -/
theorem witness_WrongLengthIsBadLength :
    [(0x01, 2), (0x02, 0), (0x03, 0), (0x13, 2), (0x18, 0), (0x10, 63), (0x11, 1), (0x14, 1), (0x15, 1),
      (0x19, 1), (0x12, 1), (0x12, 3), (0x16, 2), (0x20, 0), (0x30, 1), (0x31, 2)].all
      (fun c : Word × Nat => refusedLength c.1 (List.replicate c.2 0)) = true ∧
    [(0x01, 1), (0x02, 64), (0x03, 1), (0x10, 64), (0x11, 0), (0x12, 2), (0x16, 0), (0x16, 1), (0x20, 1),
      (0x21, 0), (0x22, 9), (0x30, 2), (0x31, 3)].all
      (fun c : Word × Nat => !refusedLength c.1 (List.replicate c.2 0)) = true ∧
    refusedLength 0x20 [2, 0] = true ∧ refusedLength 0x20 [1, 0] = false := by decide +kernel

theorem witness_StepRunsTheDecodedCommand : (after []).resetIn = false ∧ (after []).ctl = .idle ∧
    fetch [0x00000016, 0x00000019] = some (.command (.clear (.accepted none)), [0x00000019]) := by
  decide

/-- No reset lands on the way to this outcome. -/
def noResetOn (s : State) : Out → Prop
  | .next t => noResetBetween s t
  | _ => False

/-- GET_ROT makes no transaction, so the reset that is due lands on none of its own; CLEAR's one and the
second of SET_ROT with redraw are hit. -/
theorem witness_CommandTakesOnePlusLenWords :
    (after [.reset]).resetIn = false ∧ (after [.reset]).ctl = .idle ∧
    ([] : List Word).length = headerLen 0x00000019 ∧ [(0x5A : Word)].length = headerLen 0x00010118 ∧
    noResetOn (after [.reset]) (step { after [.reset] with cmd := [0x00000019, 7] }) ∧
    noResetOn (after [.ok, .reset]) (step { after [.ok, .reset] with cmd := [0x00000016, 7] }) ∧
    ¬ noResetOn (after [.reset]) (step { after [.reset] with cmd := [0x00000016, 7] }) ∧
    ¬ noResetOn (after [.ok, .reset])
      (step { after [.ok, .reset] with cmd := [0x00010118, 0x5A, 7] }) :=
  ⟨rfl, rfl, by decide, by decide, trivial, ⟨by decide, trivial⟩, fun h => h.1 rfl,
    fun h => h.2.1 rfl⟩

theorem witness_EngineWaitsForHost :
    (after []).resetIn = false ∧ (after []).ctl = .idle ∧ (after []).cmd = [] ∧
    (∃ h ws, [(0x00020017 : Word), 1] = h :: ws ∧ ws.length < headerLen h) ∧
    ({ after [] with ctl := .responding [0], rspFull := true } : State).ctl = .responding [0] :=
  ⟨rfl, rfl, rfl, ⟨_, _, rfl, by decide⟩, rfl⟩

/-- A scroll at its last window, its write answered. -/
abbrev lastWindow : State := { loaded [.ok] with ctl := .scrolling (scrollQ 0 13) }

theorem lastWindow_inv : lastWindow.Inv where
  memCanonical := rfl
  glyphsCanonical := (loaded_inv [.ok]).glyphsCanonical
  glyphsFit := (loaded_inv [.ok]).glyphsFit
  fallbackStored := (loaded_inv [.ok]).fallbackStored
  emptyUnloaded := fun h => by cases h
  controlShaped := by decide
  fullHolds := fun h => by cases h

theorem witness_StepKeepsInvariant :
    (lastWindow.Inv ∧ ∃ t, step lastWindow = .next t) ∧
    ((after []).Inv ∧ step (after []) = .next (after [])) :=
  ⟨⟨lastWindow_inv, _, rfl⟩, reset_inv [], rfl⟩

theorem witness_HostActionsKeepInvariant : lastWindow.Inv ∧ State.reset.Inv :=
  ⟨lastWindow_inv, reset_inv []⟩

theorem witness_FailedCommandWritesNoRegister :
    (∃ t, exec (.clear (.accepted none)) (after [.failOpen]) = .next t ∧ t.rsp = [0x00000104]) ∧
    (∃ t, exec (.glyph []) (after []) = .next t ∧ t.rsp = [0x00000703]) ∧
    (∃ t, step { lastWindow with events := [.failAccess] } = .next t ∧ t.rsp = [0x00000304]) ∧
    (0x00000304 : Word).extractLsb' 0 8 ≠ 0 ∧ (0x00000703 : Word).extractLsb' 0 8 ≠ 4 :=
  ⟨⟨_, rfl, by decide⟩, ⟨_, rfl, by decide⟩, ⟨_, rfl, rfl⟩, by decide, by decide⟩

theorem witness_OnlySetRotWritesRotation :
    noResetOn (after [.ok, .ok]) (exec (.flipH true (.accepted ())) (after [.ok, .ok])) ∧
    noResetOn (after [.reset]) (exec (.enc (.accepted [])) (after [.reset])) ∧
    (lastWindow.resetIn = false ∧ lastWindow.ctl ≠ .idle ∧ nextEvent lastWindow ≠ .reset) ∧
    ∃ t, exec (.setRot true (.accepted ⟨0, 270⟩)) (after [.failAccess, .reset]) = .next t ∧
      noResetBetween (after [.failAccess, .reset]) t ∧ t.rsp ≠ [] ++ [0x00000000] :=
  ⟨⟨by decide, by decide, trivial⟩, trivial, ⟨rfl, by decide, by decide⟩, _, rfl,
    ⟨by decide, trivial⟩, by decide⟩

theorem witness_OnlyLoadFontWritesGlyphStore :
    noResetOn (loaded [.ok, .ok]) (exec (.flipV true (.accepted ())) (loaded [.ok, .ok])) ∧
    (lastWindow.resetIn = false ∧ lastWindow.ctl ≠ .idle ∧ nextEvent lastWindow ≠ .reset) ∧
    (loaded []).rspFull = false ∧
    ∃ t, exec (.loadFont (.accepted ⟨[], [chr 0x3F]⟩)) (loaded []) = .next t ∧
      t.rsp = [0x00000603] :=
  ⟨⟨by decide, by decide, trivial⟩, ⟨rfl, by decide, by decide⟩, rfl, _, rfl, by decide⟩

theorem witness_CommandGivesOneResponse :
    Instr.WellFormed (.glyph []) = true ∧ Instr.WellFormed (.flipV true (.accepted ())) = true ∧
    (loaded [.reset]).Inv ∧ (loaded [.reset]).rspFull = false ∧
    noResetOn (loaded [.reset]) (exec (.glyph []) (loaded [.reset])) ∧
    noResetOn (loaded [.ok, .ok]) (exec (.flipV true (.accepted ())) (loaded [.ok, .ok])) :=
  ⟨by decide, by decide, loaded_inv _, rfl, trivial, by decide, by decide, trivial⟩

theorem witness_ReadOnlyCommandsChangeNothing (s : State) :
    ∃ ws, exec (.enc (.accepted [rgb 0 0 0])) s = .next (putResponse ws s) := ⟨_, rfl⟩

theorem witness_FramePackingIsLittleEndian :
    (List.replicate 64 Pixel.white).length = 64 ∧
    (List.replicate 64 Pixel.white)[63]? = some Pixel.white ∧
    (List.replicate 128 (7 : Byte)).length = 128 ∧
    (List.replicate 128 (7 : Byte))[2 * 63 + 1]? = some 7 := by decide +kernel

theorem witness_PixelOperandsAreSignedChannels :
    pixOk (rgb 0 0 0) ∧ pixOk (rgb 255 255 255) ∧ ¬ pixOk (rgb 0 0 256) ∧ ¬ pixOk (rgb 0x3FF 0 0) :=
  ⟨pixOk_low, pixOk_high, not_pixOk_above, not_pixOk_below⟩

theorem witness_EncAnswersCodes :
    (∃ p ∈ [rgb 0 0 0, rsvPix], p.rsv ≠ 0) ∧
    ((∀ p ∈ [rgb 0x3FF 0 0], p.rsv = 0) ∧ ∃ p ∈ [rgb 0x3FF 0 0], ¬ pixOk p) ∧
    ∀ p ∈ [rgb 255 255 255], p.rsv = 0 ∧ pixOk p :=
  ⟨by decide, ⟨by decide, _, List.mem_singleton.2 rfl, not_pixOk_below⟩,
    fun _ h => List.mem_singleton.1 h ▸ ⟨rfl, pixOk_high⟩⟩

theorem witness_DecAnswersPixels :
    (∃ c ∈ [(⟨0x8000, 0⟩ : CodeWord)], c.rsv ≠ 0) ∧ ∀ c ∈ [(⟨0, 0xFFFF⟩ : CodeWord)], c.rsv = 0 := by
  decide

theorem witness_OffsetFormulasAndPlaces : (0 : Nat) < 8 ∧ (7 : Nat) < 8 := by decide
theorem witness_OffsetIsQuarterTurnBijection : (63 : Nat) < 64 ∧ (0, 7).1 < 8 ∧ (0, 7).2 < 8 := by
  decide
theorem witness_BulkRotationAgreesWithCells :
    (List.replicate 64 Pixel.white).length = 64 ∧ (7 : Nat) < 8 := by decide

/-- A degree value that is no rotation. -/
theorem deg_45 : ∀ d : Rotation, (45#16).toNat ≠ d.deg := by intro d; cases d <;> decide

theorem witness_XlatAnswersCell :
    (∀ d : Rotation, (45#16).toNat ≠ d.deg) ∧ (270#16).toNat = Rotation.deg270.deg ∧
    7 < (8#8).toNat ∧ (7#8).toNat ≤ 7 := ⟨deg_45, by decide⟩

theorem witness_SetRotWithoutRedrawWritesRot :
    (⟨1, 90⟩ : DegWord).rsv ≠ 0 ∧ (∀ d : Rotation, (45#16).toNat ≠ d.deg) ∧
    (⟨0, 270⟩ : DegWord).rsv = 0 ∧ (270#16).toNat = Rotation.deg270.deg :=
  ⟨by decide, deg_45, by decide⟩

theorem witness_SetRotRedrawMovesCodes :
    (⟨0, 180⟩ : DegWord).rsv = 0 ∧ (180#16).toNat = Rotation.deg180.deg ∧
    answersOk 2 (after [.ok, .ok]) := ⟨by decide, by decide, rfl, rfl, trivial⟩

theorem witness_RotationRoundTripRestoresFrame :
    (after [.ok, .ok, .ok, .ok]).rot = .deg0 ∧ answersOk 4 (after [.ok, .ok, .ok, .ok]) :=
  ⟨rfl, rfl, rfl, rfl, rfl, trivial⟩

theorem witness_SetPixelsWritesFrame :
    (∃ p ∈ [rsvPix], p.rsv ≠ 0) ∧ (∃ p ∈ [rgb 0 0 256], ¬ pixOk p) ∧
    (∀ p ∈ List.replicate 64 (rgb 255 255 255), p.rsv = 0 ∧ pixOk p) ∧
    (List.replicate 64 (rgb 255 255 255)).length = 64 ∧ answersOk 1 (after [.ok]) ∧
    (List.replicate 64 (rgb 255 255 255))[7 + 8 * 7]? = some (rgb 255 255 255) :=
  ⟨by decide, ⟨_, List.mem_singleton.2 rfl, not_pixOk_above⟩,
    fun _ h => (List.mem_replicate.1 h).2 ▸ ⟨rfl, pixOk_high⟩, by decide, ⟨rfl, trivial⟩, by decide⟩

theorem witness_GetPixelsReadsFrame : answersOk 1 (after [.ok]) := ⟨rfl, trivial⟩

theorem witness_SetPixelWritesOneCell :
    rsvPix.rsv ≠ 0 ∧ 7 < (8#8).toNat ∧ (7#8).toNat ≤ 7 ∧ ¬ pixOk (rgb 0x3FF 0 0) ∧
    (⟨0, 7, 7⟩ : XyWord).rsv = 0 ∧ pixOk (rgb 0 0 0) ∧ answersOk 1 (after [.ok]) :=
  ⟨by decide, by decide, by decide, not_pixOk_below, rfl, pixOk_low, rfl, trivial⟩

theorem witness_GetPixelReadsOneCell :
    (⟨1, 0, 0⟩ : XyWord).rsv ≠ 0 ∧ 7 < (8#8).toNat ∧ (⟨0, 7, 7⟩ : XyWord).rsv = 0 ∧
    (7#8).toNat ≤ 7 ∧ answersOk 1 (after [.ok]) := ⟨by decide, by decide, rfl, by decide, rfl, trivial⟩

theorem witness_FlipHMirrorsEachRow :
    answersOk 1 (after [.ok, .ok]) ∧ answersOk 2 (after [.ok, .ok]) :=
  ⟨⟨rfl, trivial⟩, rfl, rfl, trivial⟩

theorem witness_FlipVReversesRowOrder :
    answersOk 1 (after [.ok, .ok]) ∧ answersOk 2 (after [.ok, .ok]) :=
  ⟨⟨rfl, trivial⟩, rfl, rfl, trivial⟩

theorem witness_FlipTwiceRestoresFrame : answersOk 4 (after [.ok, .ok, .ok, .ok]) :=
  ⟨rfl, rfl, rfl, rfl, trivial⟩

theorem witness_ClearFillsFrame :
    rsvPix.rsv ≠ 0 ∧ ¬ pixOk (rgb 0 0 256) ∧ (rgb 255 255 255).rsv = 0 ∧ pixOk (rgb 255 255 255) ∧
    answersOk 1 (after [.ok]) := ⟨by decide, not_pixOk_above, rfl, pixOk_high, rfl, trivial⟩

theorem witness_SetThenGetPixelQuantizes :
    (⟨0, 7, 0⟩ : XyWord).rsv = 0 ∧ (7#8).toNat ≤ 7 ∧ pixOk (rgb 0 0 0) ∧
    answersOk 2 (after [.ok, .ok]) ∧ (after [.ok, .ok]).rspFull = false :=
  ⟨rfl, by decide, pixOk_low, ⟨rfl, rfl, trivial⟩, rfl⟩

theorem witness_ClearThenGetPixelsQuantizes :
    (rgb 255 255 255).rsv = 0 ∧ pixOk (rgb 255 255 255) ∧ answersOk 2 (after [.ok, .ok]) ∧
    (after [.ok, .ok]).rspFull = false := ⟨rfl, pixOk_high, ⟨rfl, rfl, trivial⟩, rfl⟩

theorem witness_FailedWriteLosesOnlyItsRange :
    nextEvent (loaded [.failOpen]) = .failOpen ∧ nextEvent (loaded [.failAccess]) = .failAccess ∧
    (⟨0, 7, 7⟩ : XyWord).rsv = 0 ∧ pixOk (rgb 255 255 255) ∧
    textUnreserved (rgb 0 0 0) (rgb 255 255 255) [chr 0x3F] ∧ pixOk (rgb 0 0 0) ∧
    [chr 0x3F].length ≤ 1 ∧ (loaded [.failOpen]).fontLoaded = true :=
  ⟨rfl, rfl, rfl, pixOk_high, text_low_high, pixOk_low, by decide, rfl⟩

theorem witness_FailedReadIssuesNoWrite :
    nextEvent (after [.failOpen]) = .failOpen ∧ nextEvent (after [.failAccess]) = .failAccess ∧
    nextEvent (after [.ok, .failOpen]) = .ok ∧
    nextEvent (takeEvent (after [.ok, .failOpen])) = .failOpen ∧
    nextEvent (takeEvent (after [.ok, .failAccess])) = .failAccess ∧
    (⟨0, 90⟩ : DegWord).rsv = 0 ∧ (90#16).toNat = Rotation.deg90.deg := by decide

theorem witness_ResetInFlightAbandonsCommand :
    nextEvent { lastWindow with events := [.reset] } = .reset ∧ lastWindow.resetIn = false ∧
    lastWindow.ctl = .scrolling (scrollQ 0 13) ∧ pixOk (rgb 0 0 0) ∧ pixOk (rgb 255 255 255) ∧
    (7#8).toNat ≤ 7 ∧ textUnreserved (rgb 0 0 0) (rgb 255 255 255) [chr 0x3F] ∧
    [chr 0x3F].length ≤ 1 ∧ (loaded [.reset]).fontLoaded = true ∧
    (⟨0, 270⟩ : DegWord).rsv = 0 ∧ (270#16).toNat = Rotation.deg270.deg ∧
    nextEvent (after [.ok, .reset]) = .ok ∧ nextEvent (takeEvent (after [.ok, .reset])) = .reset ∧
    (∃ t, exec (.flipV true (.accepted ())) (after [.ok, .reset]) = .next t ∧
      ¬ noResetBetween (after [.ok, .reset]) t) :=
  ⟨rfl, rfl, rfl, pixOk_low, pixOk_high, by decide, text_low_high, by decide, rfl, rfl, rfl, rfl, rfl,
    _, rfl, fun h => h.2.1 rfl⟩

theorem witness_ResetInputHoldsResetValues :
    ({ lastWindow with resetIn := true } : State).resetIn = true := rfl

theorem witness_LoadFontStoresBlocks :
    (after []).fontLoaded = false ∧ (∀ p ∈ asPix glyphQ, p.rsv = 0 ∧ pixOk p) ∧
    (∀ c ∈ [chr 0x3F], c.rsv = 0) ∧ (asPix glyphQ).length % 40 = 0 ∧
    40 * [chr 0x3F].length ≤ (asPix glyphQ).length ∧ (0x3F : Key) ∈ keysOf [chr 0x3F] ∧
    (keysOf [chr 0x3F]).toFinset.card ≤ Config.glyphCap := by
  refine ⟨rfl, ?_, by decide, by decide, by decide, by decide, ?_⟩
  · unfold pixOk channelOk; decide
  · exact Nat.succ_le_succ (Nat.zero_le _)

theorem witness_LoadFontErrorsInOrder :
    (∃ p ∈ [rsvPix], p.rsv ≠ 0) ∧ (∃ c ∈ [(⟨1, 0⟩ : CharWord)], c.rsv ≠ 0) ∧
    (loaded []).fontLoaded = true ∧ (after []).fontLoaded = false ∧
    (∃ p ∈ [rgb 0 0 256], ¬ pixOk p) ∧ (∀ p ∈ [rgb 255 255 255], pixOk p) ∧
    [rgb 255 255 255].length % 40 ≠ 0 ∧ ([] : List PixWord).length % 40 = 0 ∧
    ([] : List PixWord).length < 40 * [chr 0x3F].length ∧
    40 * ([] : List CharWord).length ≤ ([] : List PixWord).length ∧
    (0x3F : Key) ∉ keysOf [chr 0x41] ∧
    ((0x3F : Key) ∈ keysOf [chr 0x41, chr 0x3F] ∧
      1 < (keysOf [chr 0x41, chr 0x3F]).toFinset.card) :=
  ⟨by decide, by decide, rfl, rfl, ⟨_, List.mem_singleton.2 rfl, not_pixOk_above⟩,
    fun _ h => List.mem_singleton.1 h ▸ pixOk_high, by decide⟩

theorem witness_GlyphAnswersLookup :
    (∃ c ∈ [(⟨1, 0x41⟩ : CharWord)], c.rsv ≠ 0) ∧ (after []).fontLoaded = false ∧
    (loaded []).Inv ∧ (loaded []).fontLoaded = true ∧
    (keysOf [chr 0x3F] = [0x3F] ∧ (loaded []).glyphs.find 0x3F = some glyphQ) ∧
    ∀ k, keysOf [chr 0x5A] = [k] → (loaded []).glyphs.find k = none :=
  ⟨by decide, rfl, loaded_inv [], rfl, by decide, fun k h => by cases h; decide⟩

theorem witness_TrimDropsOnlyBlackEnds :
    glyphDitto.length = 40 ∧ (3 : Nat) < 5 ∧ glyphDitto[8 * 1 + 5]? = some Pixel.white ∧
    glyphDitto[8 * 3 + 6]? = some Pixel.white ∧ Pixel.white ≠ Pixel.black ∧
    (∀ j, j < 8 → glyphDitto[j]? = some Pixel.black) ∧
    ∀ j, j < 8 → glyphDitto[8 * 4 + j]? = some Pixel.black := by decide

theorem witness_GlyphTrimAnswersTrimmedRows :
    (loaded []).Inv ∧ (loaded []).fontLoaded = true ∧
    lookup (loaded []).glyphs (keysOf [chr 0x5A]) = glyphQ ∧ (after []).fontLoaded = false :=
  ⟨loaded_inv [], rfl, by decide, rfl⟩

theorem witness_ShowLetterWritesLetter :
    ¬ textUnreserved (rgb 0 0 0) rsvPix [] ∧ textUnreserved (rgb 0 0 0) (rgb 255 255 255) [chr 0x3F] ∧
    ¬ (pixOk (rgb 0 0 0) ∧ pixOk (rgb 0 0 256)) ∧ pixOk (rgb 0 0 0) ∧ pixOk (rgb 255 255 255) ∧
    2 ≤ [chr 0x3F, chr 0x41].length ∧ [chr 0x3F].length ≤ 1 ∧ (loaded [.ok]).fontLoaded = true ∧
    Rotation.deg270.deg = ((loaded [.ok]).rot.deg + 270) % 360 ∧ answersOk 1 (loaded [.ok]) :=
  ⟨by unfold textUnreserved; decide, text_low_high, fun h => not_pixOk_above h.2, pixOk_low,
    pixOk_high, by decide, by decide, rfl, by decide, rfl, trivial⟩

theorem witness_ShowMessageStartsScroll :
    textUnreserved (rgb 0 0 0) (rgb 255 255 255) [chr 0x3F] ∧ pixOk (rgb 0 0 0) ∧
    pixOk (rgb 255 255 255) ∧ (loaded []).fontLoaded = true ∧ (after []).fontLoaded = false :=
  ⟨text_low_high, pixOk_low, pixOk_high, rfl, rfl⟩

theorem witness_ScrollStepWritesWindow :
    lastWindow.resetIn = false ∧ lastWindow.ctl = .scrolling (scrollQ 0 13) ∧
    Rotation.deg270.deg = (lastWindow.rot.deg + 270) % 360 ∧ nextEvent lastWindow = .ok ∧
    (scrollQ 0 13).strip.length ≤ 13 + 9 ∧ 12 + 9 < (scrollQ 0 12).strip.length ∧
    (scrollQ 1 0).speed ≠ 0 ∧
    ((scrollQ 0 13).strip[13 + 7]?).bind (·[7]?) = some Pixel.black := by decide

theorem witness_WaitEndsAfterDeadline :
    ({ loaded [] with ctl := .waiting (scrollQ 1000 12) 1000 } : State).ctl =
      .waiting (scrollQ 1000 12) 1000 ∧ (loaded []).resetIn = false ∧
    12 + 9 < (scrollQ 1000 12).strip.length ∧ (scrollQ 1000 13).strip.length ≤ 13 + 9 := by decide

theorem witness_StripLengthIsSumOfHeights :
    GlyphMap.wfFrom 0 (loaded []).glyphs = true ∧
    (stripOf (loaded []).glyphs [0x3F]).length ≤ 13 + 9 ∧ (4 : Nat) < trimHeight glyphQ := by decide

theorem witness_WindowsShiftByOneLine :
    (7 : Nat) < 8 ∧ 13 + 8 < (scrollQ 0 0).strip.length ∧
    ∀ l ∈ (scrollQ 0 0).strip, l.length = 8 := by decide

theorem witness_MessageScrollsToItsEnd :
    (loaded (List.replicate 14 .ok)).resetIn = false ∧
    (loaded (List.replicate 14 .ok)).rspFull = false ∧
    (loaded (List.replicate 14 .ok)).fontLoaded = true ∧
    textUnreserved (rgb 0 0 0) (rgb 255 255 255) [chr 0x3F] ∧ pixOk (rgb 0 0 0) ∧
    pixOk (rgb 255 255 255) ∧ (loaded (List.replicate 14 .ok)).events =
      List.replicate ((stripOf (loaded []).glyphs (keysOf [chr 0x3F])).length - 8) .ok ++ [] :=
  ⟨rfl, rfl, rfl, text_low_high, pixOk_low, pixOk_high, by decide⟩

end Sys2Proof.Machine
end

section
/-! PROOFS. What decoded commands, responses, the driver and the host's actions do to the state, said
once: the rules the statements about 10_state.md are proved from. -/

namespace Sys2Proof

/-! ### Decoded commands are well formed -/

/-! Each parser accepts the lengths that `WellFormed` asks of its payload, and refuses the others. -/

theorem wellFormed_oneOr64 {α : Type} (f : Word → α) {ws : List Word} (h : lenFits ws.length) :
    (oneOr64 f ws).WellFormed (fun as => as.length == 1 || as.length == 64)
      (fun ws => ws.length != 1 && ws.length != 64) = true := by
  unfold oneOr64
  split
  · next hl => simpa [Payload.WellFormed] using hl
  · next hl => simpa [Payload.WellFormed, h] using hl

theorem wellFormed_parsePixels {ws : List Word} (h : lenFits ws.length) :
    (parsePixels ws).WellFormed (fun as => as.length == 64) (fun ws => ws.length != 64) = true := by
  unfold parsePixels
  split
  · next hl => simpa [Payload.WellFormed] using hl
  · next hl => simpa [Payload.WellFormed, h] using hl

theorem wellFormed_noOperand {ws : List Word} (h : lenFits ws.length) :
    (noOperand ws).WellFormed (fun _ => true) (fun ws => ws.length != 0) = true := by
  cases ws with
  | nil => rfl
  | cons w ws => simpa [noOperand, Payload.WellFormed] using h

theorem wellFormed_oneOperand {α : Type} (f : Word → α) {ws : List Word} (h : lenFits ws.length) :
    (oneOperand f ws).WellFormed (fun _ => true) (fun ws => ws.length != 1) = true := by
  match ws, h with
  | [], h => rfl
  | [w], h => rfl
  | v :: w :: ws, h => simpa [oneOperand, Payload.WellFormed] using h

theorem wellFormed_parseSetPixel {ws : List Word} (h : lenFits ws.length) :
    (parseSetPixel ws).WellFormed (fun _ => true) (fun ws => ws.length != 2) = true := by
  match ws, h with
  | [], h => rfl
  | [w], h => rfl
  | [v, w], h => rfl
  | u :: v :: w :: ws, h => simpa [parseSetPixel, Payload.WellFormed] using h

theorem wellFormed_parseClear {ws : List Word} (h : lenFits ws.length) :
    (parseClear ws).WellFormed (fun _ => true)
      (fun ws => ws.length != 0 && ws.length != 1) = true := by
  match ws, h with
  | [], h => rfl
  | [w], h => rfl
  | v :: w :: ws, h => simpa [parseClear, Payload.WellFormed] using h

theorem wellFormed_parseFont {ws : List Word} (h : lenFits ws.length) :
    (parseFont ws).WellFormed
      (fun f => decide (lenFits (1 + f.atlas.length + f.order.length))) badFontLength = true := by
  cases ws with
  | nil => rfl
  | cons count rest =>
    simp only [List.length_cons, lenFits] at h
    simp only [parseFont]
    split
    · next hl => simpa [Payload.WellFormed, badFontLength, hl] using h
    · next hl =>
      simp only [Payload.WellFormed, List.length_map, List.length_take, List.length_drop, lenFits,
        decide_eq_true_eq]
      omega

theorem wellFormed_parseLetter {ws : List Word} (h : lenFits ws.length) :
    (parseLetter ws).WellFormed (fun a => decide (lenFits (2 + a.chars.length)))
      (fun ws => decide (ws.length < 2)) = true := by
  match ws, h with
  | [], h => rfl
  | [w], h => rfl
  | t :: b :: cs, h =>
    simp only [List.length_cons, lenFits] at h
    simp only [parseLetter, Payload.WellFormed, List.length_map, lenFits, decide_eq_true_eq]
    omega

theorem wellFormed_parseMessage {ws : List Word} (h : lenFits ws.length) :
    (parseMessage ws).WellFormed (fun a => decide (lenFits (3 + a.chars.length)))
      (fun ws => decide (ws.length < 3)) = true := by
  match ws, h with
  | [], h => rfl
  | [w], h => rfl
  | [v, w], h => rfl
  | v :: t :: b :: cs, h =>
    simp only [List.length_cons, lenFits] at h
    simp only [parseMessage, Payload.WellFormed, List.length_map, lenFits, decide_eq_true_eq]
    omega

theorem eq_of_plainCommand {h : Word} {i j : Instr} (e : plainCommand h i = .command j) : i = j := by
  unfold plainCommand at e
  split at e
  · exact Decoded.command.inj e
  · cases e

theorem eq_of_redrawCommand {h : Word} {i j : Instr} (e : redrawCommand h i = .command j) :
    i = j := by
  unfold redrawCommand at e
  split at e
  · exact Decoded.command.inj e
  · cases e

/-- Whatever words fit a payload decode to a well-formed command, if to one (30_encoding.md R70). -/
theorem wellFormed_of_decode {h : Word} {ws : List Word} {i : Instr} (hl : lenFits ws.length)
    (e : decode h ws = .command i) : i.WellFormed = true := by
  unfold decode at e
  split at e
  · exact eq_of_plainCommand e ▸ wellFormed_oneOr64 _ hl
  · exact eq_of_plainCommand e ▸ wellFormed_oneOr64 _ hl
  · exact eq_of_plainCommand e ▸ wellFormed_oneOperand _ hl
  · exact eq_of_plainCommand e ▸ wellFormed_parsePixels hl
  · exact eq_of_plainCommand e ▸ wellFormed_noOperand hl
  · exact eq_of_plainCommand e ▸ wellFormed_parseSetPixel hl
  · exact eq_of_plainCommand e ▸ wellFormed_oneOperand _ hl
  · exact eq_of_redrawCommand e ▸ wellFormed_noOperand hl
  · exact eq_of_redrawCommand e ▸ wellFormed_noOperand hl
  · exact eq_of_plainCommand e ▸ wellFormed_parseClear hl
  · exact eq_of_redrawCommand e ▸ wellFormed_oneOperand _ hl
  · exact eq_of_plainCommand e ▸ wellFormed_noOperand hl
  · exact eq_of_plainCommand e ▸ wellFormed_parseFont hl
  · exact eq_of_plainCommand e ▸ by simpa [Instr.WellFormed] using hl
  · exact eq_of_plainCommand e ▸ by simpa [Instr.WellFormed] using hl
  · exact eq_of_plainCommand e ▸ wellFormed_parseLetter hl
  · exact eq_of_plainCommand e ▸ wellFormed_parseMessage hl
  · cases e

/-- A command has not wholly arrived: no header, or fewer words than its `LEN` (30_encoding.md R67). -/
theorem fetch_eq_none_iff (cmd : List Word) :
    fetch cmd = none ↔ cmd = [] ∨ ∃ h ws, cmd = h :: ws ∧ ws.length < headerLen h := by
  cases cmd with
  | nil => simp [fetch]
  | cons h ws => simp [fetch]

/-- A fetched command is well formed: its payload is at most `LEN` words. -/
theorem wellFormed_of_fetch {cmd rest : List Word} {i : Instr}
    (e : fetch cmd = some (.command i, rest)) : i.WellFormed = true := by
  cases cmd with
  | nil => cases e
  | cons h ws =>
    simp only [fetch] at e
    split at e
    · cases e
    · obtain ⟨hd, -⟩ := Prod.mk.inj (Option.some.inj e)
      have hl : lenFits (ws.take (headerLen h)).length :=
        (List.length_take_le _ _).trans (headerLen_le h)
      exact wellFormed_of_decode hl hd

end Sys2Proof

namespace Sys2Proof.Machine

variable {s s' t : State} {c : Scroll} {ws : List Word}

/-! ### Responses -/

theorem okStatus_eq (n : Nat) : okStatus n = BitVec.ofNat 16 n ++ 0#16 := rfl

/-- An error status is not the status OK with no result (60_exceptions.md R251). -/
theorem status_ne_ok (e : ErrorCause) : e.status ≠ 0x00000000 := by cases e <;> decide

theorem isResponse_error (e : ErrorCause) : isResponse [e.status] = true := by cases e <;> decide

theorem isResponse_ok (h : ws.length ≤ 64) : isResponse (okStatus ws.length :: ws) = true := by
  simp [isResponse, okStatus_eq, h]

/-- With room on RSP, a response without results is the one word 0. -/
theorem respond_nil_rsp (h : s.rspFull = false) : (respond [] s).rsp = s.rsp ++ [0x00000000] := by
  rw [respond_eq, putResponse_room s _ h]
  rfl

theorem raise_rsp_ne_ok (e : ErrorCause) (h : s.rspFull = false) :
    (raise e s).rsp ≠ s.rsp ++ [0x00000000] := by
  rw [raise_eq, putResponse_room s _ h]
  simpa using status_ne_ok e

/-! ### The registers ROT, FONT_LOADED and GLYPHS -/

/-- `t` holds the registers of `s` (10_state.md R35). -/
def RegistersKept (s t : State) : Prop :=
  t.rot = s.rot ∧ t.glyphs = s.glyphs ∧ t.fontLoaded = s.fontLoaded

namespace RegistersKept

theorem refl (s : State) : RegistersKept s s := ⟨rfl, rfl, rfl⟩

theorem trans {s s' t : State} (h : RegistersKept s s') (h' : RegistersKept s' t) :
    RegistersKept s t := by
  obtain ⟨hr, hg, hf⟩ := h
  obtain ⟨hr', hg', hf'⟩ := h'
  exact ⟨hr'.trans hr, hg'.trans hg, hf'.trans hf⟩

theorem putResponse (ws : List Word) (s : State) : RegistersKept s (putResponse ws s) :=
  ⟨by simp, by simp, by simp⟩

theorem transacts (h : Transacts s s') : RegistersKept s s' := by
  obtain ⟨hr, hf, hg, -⟩ := h.frame
  exact ⟨hr, hg, hf⟩

theorem nextWindow (c : Scroll) (s : State) : RegistersKept s (nextWindow c s) := by
  obtain ⟨-, h⟩ | ⟨-, h⟩ := nextWindow_cases c s <;> rw [h]
  · exact ⟨rfl, rfl, rfl⟩
  · exact putResponse _ s

theorem afterWindow (c : Scroll) (s : State) : RegistersKept s (afterWindow c s) := by
  obtain ⟨-, h⟩ | ⟨-, h⟩ := afterWindow_cases c s <;> rw [h]
  · exact nextWindow c s
  · exact ⟨rfl, rfl, rfl⟩

end RegistersKept

/-! ### LOAD_FONT -/

/-- A load without an asset error is a first load, of at least one whole block per character, with `?`
among them, into a store they fit (43_glyph.md R160, R162 to R164). -/
theorem of_fontError_none {cap : Nat} {f : FontOperands} (h : fontError cap f s = none) :
    s.fontLoaded = false ∧ 40 * f.order.length ≤ f.atlas.length ∧
    fallbackKey ∈ keysOf f.order ∧ countDistinct (keysOf f.order) ≤ cap := by
  unfold fontError at h
  repeat' split at h
  · cases h
  · cases h
  · cases h
  · cases h
  · cases h
  · cases h
  · next hlocked _ _ hshort hmissing hcap =>
    exact ⟨by simpa using hlocked, by omega, by simpa using hmissing, by omega⟩

/-- All LOAD_FONT can do: one error and nothing else, or the whole load (43_glyph.md R160). -/
theorem exec_loadFont_cases {p : Payload FontOperands} (h : exec (.loadFont p) s = .next t) :
    (∃ e, t = raise e s) ∨
    ∃ f, fontError Config.glyphCap f s = none ∧
      t = respond [] { s with
        glyphs := storeBlocks [] (f.atlas.map pixelOf) (keysOf f.order)
        fontLoaded := true } := by
  cases p with
  | badLength ws => exact .inl ⟨_, (Host.Outcome.next.inj h).symm⟩
  | accepted f =>
    have ht : loadFontIn Config.glyphCap f s = t := Host.Outcome.next.inj h
    unfold loadFontIn at ht
    split at ht
    · exact .inl ⟨_, ht.symm⟩
    · split at ht
      · exact .inl ⟨_, ht.symm⟩
      · next hf => exact .inr ⟨f, hf, ht.symm⟩

theorem GlyphMap.isSome_find_iff (m : GlyphMap) (k : Key) :
    (m.find k).isSome = true ↔ k ∈ m.keySet := by
  induction m with
  | nil => simp [GlyphMap.find, GlyphMap.keySet]
  | cons entry rest ih =>
    obtain ⟨a, g⟩ := entry
    simp only [GlyphMap.keySet, List.map_cons, List.toFinset_cons, Finset.mem_insert] at ih ⊢
    simp only [GlyphMap.find]
    split
    · next h => simp [h]
    · next h => simp [ih, Ne.symm h]

/-! ### The driver -/

/-- The lines of a strip have 8 pixels each (44_text.md R205). -/
theorem length_of_mem_stripOf {m : GlyphMap} (hm : GlyphMap.wfFrom 0 m = true) {ks : List Key}
    {l : Line} (h : l ∈ stripOf m ks) : l.length = 8 := by
  have blank : ∀ {l : Line}, l = blankLine → l.length = 8 := by rintro l rfl; rfl
  simp only [stripOf, charLines, List.mem_append, List.mem_flatMap, List.mem_singleton,
    List.mem_replicate] at h
  obtain ⟨-, h⟩ | ⟨k, -, h | h⟩ | ⟨-, h⟩ := h
  · exact blank h
  · exact length_of_mem_glyphLines (length_lookup hm [k]) h
  · exact blank h
  · exact blank h

/-- Window 0 of a strip exists: 8 blank lines stand at each end. -/
theorem scrollOk_start (hm : GlyphMap.wfFrom 0 s.glyphs = true) (hw : c.window = 0) {ks : List Key}
    (hs : c.strip = stripOf s.glyphs ks) : scrollOk c = true := by
  have hlines : ∀ l ∈ c.strip, l.length = 8 := fun l h => length_of_mem_stripOf hm (hs ▸ h)
  have hlen : 8 < c.strip.length := by
    rw [hs]
    simp only [stripOf, List.length_append, List.length_replicate]
    omega
  simpa [scrollOk, hw, hlen] using hlines

/-- All one window of a scroll can do, from what its one transaction is answered: a reset, an error, or
on to the wait or the next window (44_text.md R207, 60_exceptions.md R256). -/
theorem stepScroll_cases (h : stepScroll c s = .next t) :
    ∃ m, (s.mem.wf = true → m.wf = true) ∧
      ((nextEvent s = .reset ∧ t = engineReset (transacted m s)) ∨
       (∃ e, t = raise e (transacted m s)) ∨
       t = afterWindow c (transacted m s)) := by
  have hs : (s.mem.wf = true → (scrambled s 0 128).wf = true) := fun hm =>
    wf_scrambled hm (by decide)
  simp only [stepScroll, onDevice_frame] at h
  obtain rfl := Host.Outcome.next.inj h
  obtain ⟨-, h⟩ | ⟨-, h⟩ | ⟨-, h⟩ | ⟨he, h⟩ :=
    writeFrame_cases (scrollFrame c) (effRotation s.rot) s (afterWindow c) <;> rw [h]
  · exact ⟨_, fun hm => Memory.wf_writeBytes _ hm (by simp), .inr (.inr rfl)⟩
  · exact ⟨_, hs, .inr (.inl ⟨_, rfl⟩)⟩
  · exact ⟨_, hs, .inr (.inl ⟨_, rfl⟩)⟩
  · exact ⟨_, hs, .inl ⟨he, rfl⟩⟩

/-! ### The step by control state -/

/-- All an idle engine can do: wait for words, run a command, or reject a header (30_encoding.md R67). -/
theorem stepIdle_cases (s : State) :
    (fetch s.cmd = none ∧ stepIdle s = .next s) ∨
    (∃ i rest, fetch s.cmd = some (.command i, rest) ∧
      stepIdle s = exec i { s with cmd := rest }) ∨
    (∃ r rest, fetch s.cmd = some (.rejected r, rest) ∧
      stepIdle s = .next (raise (rejectCause r) { s with cmd := rest })) := by
  unfold stepIdle
  split
  · next h => exact .inl ⟨h, rfl⟩
  · next i rest h => exact .inr (.inl ⟨i, rest, h, rfl⟩)
  · next r rest h => exact .inr (.inr ⟨r, rest, h, rfl⟩)

theorem stepRespond_full (h : s.rspFull = true) : stepRespond ws s = .next s := by
  simp [stepRespond, h]

theorem stepRespond_room (h : s.rspFull = false) :
    stepRespond ws s = .next (putResponse ws s) := by
  simp [stepRespond, h]

/-! ### Parts of the invariant -/

namespace State.Inv

/-- A state with the glyph store of an invariant one needs only the rest of the invariant. -/
theorem keep (h : s.Inv) (hm : t.mem.wf = true) (hg : t.glyphs = s.glyphs)
    (hf : t.fontLoaded = s.fontLoaded) (hc : controlOk t.ctl = true)
    (hr : t.rspFull = true → t.rsp ≠ []) : t.Inv where
  memCanonical := hm
  glyphsCanonical := hg ▸ h.glyphsCanonical
  glyphsFit := hg ▸ h.glyphsFit
  fallbackStored := by rw [hf, hg]; exact h.fallbackStored
  emptyUnloaded := by rw [hf, hg]; exact h.emptyUnloaded
  controlShaped := hc
  fullHolds := hr

/-- Only the form of FB is left to ask after a reset (70_reset_and_hazards.md R300). -/
theorem engineReset (hm : s.mem.wf = true) : (engineReset s).Inv where
  memCanonical := hm
  glyphsCanonical := rfl
  glyphsFit := Nat.zero_le _
  fallbackStored := by simp
  emptyUnloaded := by simp
  controlShaped := rfl
  fullHolds := by simp

theorem putResponse (h : s.Inv) (hw : isResponse ws = true) : (putResponse ws s).Inv := by
  obtain ⟨hroom, e⟩ | ⟨-, e⟩ := putResponse_cases s ws <;> rw [e]
  · exact h.keep h.memCanonical rfl rfl rfl (by simp [hroom])
  · exact h.keep h.memCanonical rfl rfl hw h.fullHolds

theorem raise (h : s.Inv) (e : ErrorCause) : (raise e s).Inv := h.putResponse (isResponse_error e)

theorem respond (h : s.Inv) (hl : ws.length ≤ 64) : (respond ws s).Inv :=
  h.putResponse (isResponse_ok hl)

theorem setCtl (h : s.Inv) {k : Control} (hk : controlOk k = true) :
    ({ s with ctl := k } : State).Inv :=
  h.keep h.memCanonical rfl rfl hk h.fullHolds

theorem setRot (h : s.Inv) (d : Rotation) : ({ s with rot := d } : State).Inv :=
  h.keep h.memCanonical rfl rfl h.controlShaped h.fullHolds

theorem setCmd (h : s.Inv) (cmd : List Word) : ({ s with cmd := cmd } : State).Inv :=
  h.keep h.memCanonical rfl rfl h.controlShaped h.fullHolds

theorem transacted (h : s.Inv) {m : Memory} (hm : m.wf = true) : (transacted m s).Inv :=
  h.keep hm rfl rfl h.controlShaped h.fullHolds

theorem endWait (h : s.Inv) (n : Nat) : (endWait n s).Inv :=
  h.keep h.memCanonical rfl rfl h.controlShaped h.fullHolds

theorem transacts (h : s.Inv) (hx : Transacts s s') : s'.Inv := by
  obtain ⟨m, n, rfl, -, hm, -⟩ := hx
  exact h.keep (hm h.memCanonical) rfl rfl h.controlShaped h.fullHolds

theorem resetLands (h : s.Inv) (hx : ResetLands s t) : t.Inv := by
  obtain ⟨s', m, hx, -, rfl, hm, -⟩ := hx
  exact .engineReset (hm (h.transacts hx).memCanonical)

/-- A whole load leaves a store in order, within its capacity, with `?` in it (10_state.md R26, R27). -/
theorem loadFont (h : s.Inv) {f : FontOperands} (hf : fontError Config.glyphCap f s = none) :
    ({ s with
        glyphs := storeBlocks [] (f.atlas.map pixelOf) (keysOf f.order)
        fontLoaded := true } : State).Inv := by
  obtain ⟨-, hblocks, hfallback, hcap⟩ := of_fontError_none hf
  have hblocks' : 40 * (keysOf f.order).length ≤ (f.atlas.map pixelOf).length := by
    simpa [keysOf] using hblocks
  exact {
    memCanonical := h.memCanonical
    glyphsCanonical := wf_storeBlocks rfl hblocks'
    glyphsFit := (length_storeBlocks hblocks').trans_le hcap
    fallbackStored := fun _ => by
      simp [GlyphMap.isSome_find_iff, GlyphMap.keySet_storeBlocks, hfallback]
    emptyUnloaded := nofun
    controlShaped := h.controlShaped
    fullHolds := h.fullHolds }

/-- A command's end keeps the invariant; a well-formed one answers at most 64 words. -/
theorem ends {i : Instr} (h : s.Inv) (hw : i.WellFormed = true) (he : Ends i s t) : t.Inv := by
  obtain ⟨s', e, hx, rfl, -⟩ | ⟨s', ws, hx, rfl, hl⟩ | ⟨s', d, rf, p, hx, -, rfl⟩ |
    ⟨f, -, hf, rfl⟩ | hreset | ⟨p, c, -, rfl, hw0, ks, hstrip⟩ := he
  · exact (h.transacts hx).raise e
  · exact (h.transacts hx).respond (hl hw h)
  · exact ((h.transacts hx).setRot d).respond (Nat.zero_le _)
  · exact (h.loadFont hf).respond (Nat.zero_le _)
  · exact h.resetLands hreset
  · exact h.setCtl (scrollOk_start h.glyphsCanonical hw0 hstrip)

/-- The driver goes on to a window only where the strip has one (44_text.md R206). -/
theorem nextWindow (h : s.Inv) (hc : scrollOk c = true) : (nextWindow c s).Inv := by
  obtain ⟨hmore, e⟩ | ⟨-, e⟩ := nextWindow_cases c s <;> rw [e]
  · refine h.setCtl ?_
    simp only [scrollOk, Bool.and_eq_true, decide_eq_true_eq, controlOk] at hc ⊢
    exact ⟨hc.1, by omega⟩
  · exact h.respond (Nat.zero_le _)

theorem afterWindow (h : s.Inv) (hc : scrollOk c = true) : (afterWindow c s).Inv := by
  obtain ⟨-, e⟩ | ⟨-, e⟩ := afterWindow_cases c s <;> rw [e]
  · exact h.nextWindow hc
  · exact h.setCtl hc

theorem stepIdle (h : s.Inv) (e : stepIdle s = .next t) : t.Inv := by
  obtain ⟨-, he⟩ | ⟨i, rest, hf, he⟩ | ⟨r, rest, -, he⟩ := stepIdle_cases s <;> rw [he] at e
  · exact Host.Outcome.next.inj e ▸ h
  · exact (h.setCmd rest).ends (wellFormed_of_fetch hf) (exec_cases _ _ _ e)
  · exact Host.Outcome.next.inj e ▸ (h.setCmd rest).raise _

theorem stepRespond (h : s.Inv) (hw : isResponse ws = true) (e : stepRespond ws s = .next t) :
    t.Inv := by
  cases hfull : s.rspFull with
  | true => exact Host.Outcome.next.inj ((stepRespond_full hfull).symm.trans e) ▸ h
  | false => exact Host.Outcome.next.inj ((stepRespond_room hfull).symm.trans e) ▸ h.putResponse hw

theorem stepScroll (h : s.Inv) (hc : scrollOk c = true) (e : stepScroll c s = .next t) : t.Inv := by
  obtain ⟨m, hm, hend⟩ := stepScroll_cases e
  have h' := h.transacted (hm h.memCanonical)
  obtain ⟨-, rfl⟩ | ⟨cause, rfl⟩ | rfl := hend
  · exact .engineReset h'.memCanonical
  · exact h'.raise cause
  · exact h'.afterWindow hc

theorem stepWait {n : Nat} (h : s.Inv) (hc : scrollOk c = true) (e : stepWait c n s = .next t) :
    t.Inv :=
  Host.Outcome.next.inj e ▸ (h.endWait n).nextWindow hc

end State.Inv

/-! ### Which registers a command or a later step can write -/

/-- But for a reset, only SET_ROT's and LOAD_FONT's OK ends write a register (10_state.md R24, R25). -/
theorem Ends.registers {i : Instr} (h : Ends i s t) (hn : noResetBetween s t) :
    RegistersKept s t ∨
    (∃ s' d rf p, Transacts s s' ∧ i = .setRot rf p ∧ t = respond [] { s' with rot := d }) ∨
    (∃ f, i = .loadFont (.accepted f) ∧ t.rot = s.rot) := by
  obtain ⟨s', e, hx, rfl, -⟩ | ⟨s', ws, hx, rfl, -⟩ | hrot | ⟨f, hi, -, rfl⟩ | hreset |
    ⟨p, c, -, rfl, -⟩ := h
  · exact .inl ((RegistersKept.transacts hx).trans (.putResponse _ s'))
  · exact .inl ((RegistersKept.transacts hx).trans (.putResponse _ s'))
  · exact .inr (.inl hrot)
  · exact .inr (.inr ⟨f, hi, by simp [respond_eq]⟩)
  · exact absurd hn hreset.spec.1
  · exact .inl ⟨rfl, rfl, rfl⟩

/-- No step of a command under way writes a register: neither a held response nor the driver. -/
theorem step_registersKept (hr : s.resetIn = false) (hc : s.ctl ≠ .idle)
    (hn : (∃ c, s.ctl = .scrolling c) → nextEvent s ≠ .reset) (h : step s = .next t) :
    RegistersKept s t := by
  obtain ⟨hreset, -⟩ | ⟨-, hidle, -⟩ | ⟨-, ws, -, e⟩ | ⟨-, c, hctl, e⟩ | ⟨-, c, n, -, e⟩ :=
    step_cases s
  · rw [hr] at hreset
    cases hreset
  · exact absurd hidle hc
  · rw [e] at h
    cases hfull : s.rspFull with
    | true => exact Host.Outcome.next.inj ((stepRespond_full hfull).symm.trans h) ▸ .refl s
    | false =>
      exact Host.Outcome.next.inj ((stepRespond_room hfull).symm.trans h) ▸ .putResponse ws s
  · rw [e] at h
    obtain ⟨m, -, ⟨he, -⟩ | ⟨e, rfl⟩ | rfl⟩ := stepScroll_cases h
    · exact absurd he (hn ⟨c, hctl⟩)
    · exact RegistersKept.trans ⟨rfl, rfl, rfl⟩ (.putResponse _ (transacted m s))
    · exact RegistersKept.trans ⟨rfl, rfl, rfl⟩ (.afterWindow c (transacted m s))
  · rw [e] at h
    exact Host.Outcome.next.inj h ▸
      RegistersKept.trans ⟨rfl, rfl, rfl⟩ (.nextWindow c (endWait n s))

/-! ### Commands that only answer -/

/-- The outcome is a response put on `s`, and nothing else. -/
def OnlyAnswers (s : State) (o : Out) : Prop := ∃ ws, o = .next (putResponse ws s)

namespace OnlyAnswers

theorem error {e : ErrorCause} : OnlyAnswers s (.next (raise e s)) := ⟨_, rfl⟩

theorem result : OnlyAnswers s (.next (respond ws s)) := ⟨_, rfl⟩

/-- A check only chooses between two outcomes. -/
theorem check {p : Prop} [Decidable p] {o o' : Out} (h : OnlyAnswers s o) (h' : OnlyAnswers s o') :
    OnlyAnswers s (if p then o else o') := by
  split
  · exact h
  · exact h'

theorem enc (p : Payload (List PixWord)) : OnlyAnswers s (exec (.enc p) s) := by
  cases p with
  | badLength ws => exact error
  | accepted ps => exact check error (check error result)

theorem dec (p : Payload (List CodeWord)) : OnlyAnswers s (exec (.dec p) s) := by
  cases p with
  | badLength ws => exact error
  | accepted cs => exact check error result

theorem xlat (p : Payload XydWord) : OnlyAnswers s (exec (.xlat p) s) := by
  cases p with
  | badLength ws => exact error
  | accepted w =>
    simp only [exec, execXlat]
    cases Rotation.ofDeg w.deg with
    | none => exact error
    | some d => exact check result error

theorem getRot (p : Payload Unit) : OnlyAnswers s (exec (.getRot p) s) := by
  cases p with
  | badLength ws => exact error
  | accepted _ => exact result

theorem glyph (cs : List CharWord) : OnlyAnswers s (exec (.glyph cs) s) :=
  check error (check error result)

theorem glyphTrim (cs : List CharWord) : OnlyAnswers s (exec (.glyphTrim cs) s) :=
  check error (check error result)

end OnlyAnswers

end Sys2Proof.Machine
end

section
/-! PROOFS. The statements about the engine's state (10_state.md). -/

namespace Sys2Proof.Machine

/-! ### The invariant -/

/-- Settles O11: by the control state, each step's inversion lemma and the parts of the invariant. -/
theorem stepKeepsInvariant : Obligations.StepKeepsInvariant := by
  unfold Obligations.StepKeepsInvariant
  intro s t h e
  have hctl := h.controlShaped
  obtain ⟨-, he⟩ | ⟨-, -, he⟩ | ⟨-, ws, hc, he⟩ | ⟨-, c, hc, he⟩ | ⟨-, c, n, hc, he⟩ :=
    step_cases s <;> rw [he] at e
  · exact Host.Outcome.next.inj e ▸ .engineReset h.memCanonical
  · exact h.stepIdle e
  · exact h.stepRespond (by rwa [hc] at hctl) e
  · exact h.stepScroll (by rwa [hc] at hctl) e
  · exact h.stepWait (by rwa [hc] at hctl) e

/-- Settles O12: the reset state is what a reset makes of itself. -/
theorem resetStateMeetsInvariant : Obligations.ResetStateMeetsInvariant :=
  State.Inv.engineReset (s := State.reset) rfl

/-- Settles O13, action by action. -/
theorem hostActionsKeepInvariant : Obligations.HostActionsKeepInvariant := by
  unfold Obligations.HostActionsKeepInvariant
  intro s h
  refine ⟨fun ws => ?send, fun n => ?take, ?fill, fun b => ?reset, fun launch => ?powerUp⟩
  case send =>
    unfold hostSend
    split
    · exact h
    · exact h.setCmd _
  case take =>
    refine h.keep h.memCanonical rfl rfl h.controlShaped fun hfull => ?_
    simp only [hostTake, Bool.and_eq_true, Bool.or_eq_true, beq_iff_eq, List.isEmpty_iff]
      at hfull ⊢
    obtain ⟨hfull, rfl | hempty⟩ := hfull
    · exact h.fullHolds hfull
    · exact absurd hempty (h.fullHolds hfull)
  case fill =>
    exact h.keep h.memCanonical rfl rfl h.controlShaped fun hfull => by simpa [hostFill] using hfull
  case reset =>
    unfold hostReset
    split
    · have hreset := State.Inv.engineReset h.memCanonical
      exact hreset.keep hreset.memCanonical rfl rfl rfl nofun
    · exact h
  case powerUp =>
    have hwf : (Memory.writeBytes [] 0 (launch.take Config.fbBytes)).wf = true :=
      Memory.wf_writeBytes _ rfl (by simp)
    exact State.Inv.keep resetStateMeetsInvariant hwf rfl rfl rfl nofun

/-! ### Who writes the registers -/

/-- Settles O15: by the ends of a command and the later steps of one. -/
theorem onlySetRotWritesRotation : Obligations.OnlySetRotWritesRotation := by
  unfold Obligations.OnlySetRotWritesRotation
  refine ⟨fun i s t hi h hn => ?other, fun s t hr hc hn h => ?later,
    fun rf p s t hroom h hn hrsp => ?setRot⟩
  case other =>
    obtain ⟨hrot, -⟩ | ⟨-, -, rf, p, -, hp, -⟩ | ⟨-, -, hrot⟩ := (exec_cases i s t h).registers hn
    · exact hrot
    · exact absurd hp (hi rf p)
    · exact hrot
  case later => exact (step_registersKept hr hc hn h).1
  case setRot =>
    obtain ⟨hrot, -⟩ | ⟨s', d, -, -, hx, -, rfl⟩ | ⟨-, -, hrot⟩ := (exec_cases _ s t h).registers hn
    · exact hrot
    · obtain ⟨-, -, -, -, -, hs', -, hfull, -⟩ := hx.frame
      have hok : (respond [] { s' with rot := d }).rsp = s'.rsp ++ [0x00000000] :=
        respond_nil_rsp (hfull.trans hroom)
      exact absurd (hok.trans (by rw [hs'])) hrsp
    · exact hrot

/-- Settles O16: as O15, and LOAD_FONT by its own two outcomes. -/
theorem onlyLoadFontWritesGlyphStore : Obligations.OnlyLoadFontWritesGlyphStore := by
  unfold Obligations.OnlyLoadFontWritesGlyphStore
  refine ⟨fun i s t hi h hn => ?other, fun s t hr hc hn h => ?later, fun p s t hroom h => ?loadFont⟩
  case other =>
    obtain ⟨-, hkept⟩ | ⟨s', d, -, -, hx, -, rfl⟩ | ⟨f, hf, -⟩ := (exec_cases i s t h).registers hn
    · exact hkept
    · simpa [respond_eq] using (RegistersKept.transacts hx).2
    · exact absurd hf (hi _)
  case later => exact (step_registersKept hr hc hn h).2
  case loadFont =>
    obtain ⟨e, rfl⟩ | ⟨f, hf, rfl⟩ := exec_loadFont_cases h
    · exact .inr ⟨raise_rsp_ne_ok e hroom, (RegistersKept.putResponse _ s).2⟩
    · exact .inl ⟨respond_nil_rsp hroom, (of_fontError_none hf).1, by simp [respond_eq]⟩

/-- Settles O18: each of the six commands only answers. -/
theorem readOnlyCommandsChangeNothing : Obligations.ReadOnlyCommandsChangeNothing := by
  unfold Obligations.ReadOnlyCommandsChangeNothing
  intro s i hi
  have h : OnlyAnswers s (exec i s) := by
    obtain ⟨p, rfl⟩ | ⟨p, rfl⟩ | ⟨p, rfl⟩ | ⟨p, rfl⟩ | ⟨cs, rfl⟩ | ⟨cs, rfl⟩ := hi
    · exact .enc p
    · exact .dec p
    · exact .xlat p
    · exact .getRot p
    · exact .glyph cs
    · exact .glyphTrim cs
  obtain ⟨ws, e⟩ := h
  exact ⟨ws, _, e, rfl, by simp⟩

/-! ### The streams -/

/-- Settles O7. -/
theorem stepRunsTheDecodedCommand : Obligations.StepRunsTheDecodedCommand := by
  unfold Obligations.StepRunsTheDecodedCommand
  intro s i rest hr hc hf
  rw [step_of_idle hr hc, stepIdle, hf]

/-- Settles O9: waiting for words, waiting for room, and the response with and without room. -/
theorem engineWaitsForHost : Obligations.EngineWaitsForHost := by
  unfold Obligations.EngineWaitsForHost
  refine ⟨fun s hr hc hcmd => ?words, fun s ws hr hc => ?room, fun s ws => ?response⟩
  case words => rw [step_of_idle hr hc, stepIdle, (fetch_eq_none_iff s.cmd).2 hcmd]
  case room =>
    rw [step_of_responding hr hc]
    have room (h : s.rspFull = false) :
        stepRespond ws s = .next { s with ctl := .idle, rsp := s.rsp ++ ws } := by
      rw [stepRespond_room h, putResponse_room s ws h, answered]
    exact ⟨stepRespond_full, room⟩
  case response => exact ⟨putResponse_full s ws, putResponse_room s ws⟩

end Sys2Proof.Machine
end

section
/-! PROOFS. What a command does once its operands have passed their checks, and what a failed device
transaction leaves: the rules the statements about 20_memory.md are proved from. -/

namespace Sys2Proof.Machine

variable {s : State}

/-! ### The checks of an operand, as facts about its fields -/

@[simp] theorem pixReserved_iff (p : PixWord) : pixReserved p = true ↔ p.rsv ≠ 0 := by
  simp [pixReserved]

@[simp] theorem xyReserved_iff (a : XyWord) : xyReserved a = true ↔ a.rsv ≠ 0 := by
  simp [xyReserved]

@[simp] theorem degReserved_iff (w : DegWord) : degReserved w = true ↔ w.rsv ≠ 0 := by
  simp [degReserved]

@[simp] theorem charReserved_iff (c : CharWord) : charReserved c = true ↔ c.rsv ≠ 0 := by
  simp [charReserved]

/-- `ValidPix` is the range of the three channels (42_surface.md R120). -/
@[simp] theorem validPix_iff (p : PixWord) : validPix p = true ↔ pixOk p := by
  simp [validPix, channelInRange, pixOk, channelOk, and_assoc]

@[simp] theorem coordInRange_iff (x y : BitVec 8) :
    coordInRange x y = true ↔ x.toNat ≤ 7 ∧ y.toNat ≤ 7 := by
  simp [coordInRange]

/-- A rotation's own degree value names it (10_state.md R23, 60_exceptions.md R255). -/
theorem Rotation.ofDeg_of_deg {w : BitVec 16} {d : Rotation} (h : w.toNat = d.deg) :
    Rotation.ofDeg w = some d := by
  cases d <;> simp [Rotation.ofDeg, h, Rotation.deg, Rotation.sel]

/-! ### Transactions inside FB -/

/-- The two bytes of a cell are bytes of FB (20_memory.md R56). -/
theorem onDevice_cell {x y : Nat} (hx : x ≤ 7) (hy : y ≤ 7) (d : Rotation) (t : State) :
    onDevice (2 * offset x y d) 2 t = .next t :=
  onDevice_inside t (by have := offset_lt hx hy d; omega)

/-! ### Commands whose operands pass every check -/

theorem exec_setPixel_valid {a : XyWord} {c : PixWord} (ha : a.rsv = 0) (hx : a.x.toNat ≤ 7)
    (hy : a.y.toNat ≤ 7) (hc : c.rsv = 0) (hok : pixOk c) (s : State) :
    exec (.setPixel (.accepted (a, c))) s =
      .next (memWrite (2 * offset a.x.toNat a.y.toNat s.rot)
        (cellBytes (encode565 (pixelOf c))) s (respond [])) := by
  have hcoord : coordInRange a.x a.y = true := (coordInRange_iff a.x a.y).2 ⟨hx, hy⟩
  have hpix : validPix c = true := (validPix_iff c).2 hok
  simp [exec, execSetPixel, ha, hc, hcoord, hpix, onDevice_cell hx hy]

theorem exec_getPixel_valid {a : XyWord} (ha : a.rsv = 0) (hx : a.x.toNat ≤ 7)
    (hy : a.y.toNat ≤ 7) (s : State) :
    exec (.getPixel (.accepted a)) s =
      .next (memRead (2 * offset a.x.toNat a.y.toNat s.rot) 2 s
        fun bytes => respond [pixResult (pixelOfBytes bytes)]) := by
  have hcoord : coordInRange a.x a.y = true := (coordInRange_iff a.x a.y).2 ⟨hx, hy⟩
  simp [exec, execGetPixel, ha, hcoord, onDevice_cell hx hy]

theorem exec_setPixels_valid {ps : List PixWord} (h : ∀ p ∈ ps, p.rsv = 0 ∧ pixOk p) (s : State) :
    exec (.setPixels (.accepted ps)) s =
      .next (writeFrame (ps.map pixelOf) s.rot s (respond [])) := by
  have hrsv : ¬ ps.any pixReserved = true := by simpa using fun p hp => (h p hp).1
  have hok : ps.all validPix = true := by simpa using fun p hp => (h p hp).2
  simp [exec, execSetPixels, hrsv, hok]

theorem exec_getPixels_valid (s : State) :
    exec (.getPixels (.accepted ())) s =
      .next (readFrame s.rot s fun l => respond (l.map pixResult)) :=
  onDevice_frame _

theorem exec_flipH_valid (rf : Bool) (s : State) :
    exec (.flipH rf (.accepted ())) s = .next (flipFrame flipGridH rf s) :=
  onDevice_frame _

theorem exec_flipV_valid (rf : Bool) (s : State) :
    exec (.flipV rf (.accepted ())) s = .next (flipFrame flipGridV rf s) :=
  onDevice_frame _

theorem exec_clear_valid {c : Option PixWord} (h : ∀ p ∈ c, p.rsv = 0 ∧ pixOk p) (s : State) :
    exec (.clear (.accepted c)) s =
      .next (writeFrame (List.replicate Config.cells ((c.map pixelOf).getD Pixel.black)) s.rot s
        (respond [])) := by
  cases c with
  | none => exact onDevice_frame _
  | some p =>
    obtain ⟨hrsv, hok⟩ := h p rfl
    have hpix : validPix p = true := (validPix_iff p).2 hok
    simp [exec, execClear, hrsv, hpix]

theorem exec_setRot_redraw {w : DegWord} {d : Rotation} (hw : w.rsv = 0) (hd : w.deg.toNat = d.deg)
    (s : State) :
    exec (.setRot true (.accepted w)) s =
      .next (readFrame s.rot s fun l s' => writeFrame l d s' (finishSetRot d)) := by
  simp [exec, execSetRot, hw, Rotation.ofDeg_of_deg hd]

/-- The grid that SHOW_LETTER draws (44_text.md R202, R203, R210). -/
def letterGrid (l : LetterOperands) (s : State) : Grid :=
  (letterFrame (lookup s.glyphs (keysOf l.chars))).map (recolor (pixelOf l.text) (pixelOf l.back))

theorem exec_showLetter_valid {l : LetterOperands} (hrsv : textUnreserved l.text l.back l.chars)
    (ht : pixOk l.text) (hb : pixOk l.back) (hl : l.chars.length ≤ 1) (hf : s.fontLoaded = true) :
    exec (.showLetter (.accepted l)) s =
      .next (writeFrame (letterGrid l s) (effRotation s.rot) s (respond [])) := by
  obtain ⟨htext, hback, hchars⟩ := hrsv
  have hchars' : ¬ l.chars.any charReserved = true := by simpa using hchars
  have hcolours : (validPix l.text && validPix l.back) = true := by simp [ht, hb]
  have hlen : ¬ 2 ≤ l.chars.length := by omega
  simp [exec, execShowLetter, htext, hback, hchars', hcolours, hlen, hf, letterGrid]

/-! ### Outcomes that are a next state -/

/-- The outcome is a state: no fault and no refusal. -/
def AnswersNext (o : Out) : Prop := ∃ t, o = .next t

namespace AnswersNext

theorem next (t : State) : AnswersNext (.next t) := ⟨t, rfl⟩

theorem onlyAnswers {o : Out} (h : OnlyAnswers s o) : AnswersNext o := by
  obtain ⟨ws, rfl⟩ := h
  exact next _

/-- A check that rejects answers its error; only what passes it is left to look at. -/
theorem check {bad : Prop} [Decidable bad] {t : State} {o : Out} (h : ¬ bad → AnswersNext o) :
    AnswersNext (if bad then .next t else o) := by
  split
  · exact next t
  · next hgood => exact h hgood

theorem frame (t : State) : AnswersNext (onDevice 0 Config.fbBytes t) := ⟨t, onDevice_frame t⟩

/-- Past the check of its coordinate, a command's cell is in FB (20_memory.md R56). -/
theorem cell {x y : BitVec 8} (h : ¬ (!coordInRange x y) = true) (d : Rotation) (t : State) :
    AnswersNext (onDevice (2 * offset x.toNat y.toNat d) 2 t) := by
  obtain ⟨hx, hy⟩ := (coordInRange_iff x y).1 (by simpa using h)
  exact ⟨t, onDevice_cell hx hy d t⟩

theorem of_setRot (rf : Bool) (p : Payload DegWord) : AnswersNext (exec (.setRot rf p) s) := by
  cases p with
  | badLength ws => exact next _
  | accepted w =>
    refine check fun _ => ?_
    cases Rotation.ofDeg w.deg with
    | none => exact next _
    | some d =>
      cases rf with
      | false => exact next _
      | true => exact frame _

/-- Every command answers a state: a payload of a wrong length an error, operands in the checks or by
the one transaction behind them. -/
theorem of_exec : (i : Instr) → (s : State) → AnswersNext (exec i s)
  | .enc p, _ => onlyAnswers (.enc p)
  | .dec p, _ => onlyAnswers (.dec p)
  | .xlat p, _ => onlyAnswers (.xlat p)
  | .setPixels (.badLength _), _ => next _
  | .setPixels (.accepted _), _ => check fun _ => check fun _ => frame _
  | .getPixels (.badLength _), _ => next _
  | .getPixels (.accepted _), _ => frame _
  | .setPixel (.badLength _), _ => next _
  | .setPixel (.accepted _), _ => check fun _ => check fun h => check fun _ => cell h _ _
  | .getPixel (.badLength _), _ => next _
  | .getPixel (.accepted _), _ => check fun _ => check fun h => cell h _ _
  | .flipH _ (.badLength _), _ => next _
  | .flipH _ (.accepted _), _ => frame _
  | .flipV _ (.badLength _), _ => next _
  | .flipV _ (.accepted _), _ => frame _
  | .clear (.badLength _), _ => next _
  | .clear (.accepted _), _ => check fun _ => check fun _ => frame _
  | .setRot rf p, _ => of_setRot rf p
  | .getRot p, _ => onlyAnswers (.getRot p)
  | .loadFont (.badLength _), _ => next _
  | .loadFont (.accepted _), _ => next _
  | .glyph cs, _ => onlyAnswers (.glyph cs)
  | .glyphTrim cs, _ => onlyAnswers (.glyphTrim cs)
  | .showLetter (.badLength _), _ => next _
  | .showLetter (.accepted _), _ =>
    check fun _ => check fun _ => check fun _ => check fun _ => frame _
  | .showMessage (.badLength _), _ => next _
  | .showMessage (.accepted _), _ => check fun _ => check fun _ => check fun _ => next _

theorem of_stepIdle (s : State) : AnswersNext (stepIdle s) := by
  obtain ⟨-, h⟩ | ⟨i, rest, -, h⟩ | ⟨r, rest, -, h⟩ := stepIdle_cases s <;> rw [h]
  · exact next s
  · exact of_exec i _
  · exact next _

theorem of_step (s : State) : AnswersNext (step s) := by
  obtain ⟨-, h⟩ | ⟨-, -, h⟩ | ⟨-, ws, -, h⟩ | ⟨-, c, -, h⟩ | ⟨-, c, n, -, h⟩ := step_cases s <;>
    rw [h]
  · exact next _
  · exact of_stepIdle s
  · exact check fun _ => next _
  · exact frame _
  · exact next _

end AnswersNext

/-! ### Commands that redraw what they read -/

/-- FLIP_H, FLIP_V and SET_ROT with a redraw: a frame read, then a frame write (41_rotation.md R108,
42_surface.md R130, R131). -/
def Redraws (i : Instr) : Prop :=
  i = .flipH true (.accepted ()) ∨ i = .flipV true (.accepted ()) ∨
    ∃ (w : DegWord) (d : Rotation), w.rsv = 0 ∧ w.deg.toNat = d.deg ∧
      i = .setRot true (.accepted w)

theorem flipFrame_redraw_of_ok (mirror : Grid → Grid) (ho : nextEvent s = .ok) :
    ∃ l d k, flipFrame mirror true s = writeFrame l d (takeEvent s) k :=
  ⟨_, _, _, readFrame_of_ok ho⟩

/-- Its read answered, such a command is at its write, with FB as it was. -/
theorem Redraws.exec_of_ok {i : Instr} (hi : Redraws i) (ho : nextEvent s = .ok) :
    ∃ l d k, exec i s = .next (writeFrame l d (takeEvent s) k) := by
  obtain rfl | rfl | ⟨w, d, hw, hd, rfl⟩ := hi
  · obtain ⟨l, d, k, h⟩ := flipFrame_redraw_of_ok (s := s) flipGridH ho
    exact ⟨l, d, k, by rw [exec_flipH_valid, h]⟩
  · obtain ⟨l, d, k, h⟩ := flipFrame_redraw_of_ok (s := s) flipGridV ho
    exact ⟨l, d, k, by rw [exec_flipV_valid, h]⟩
  · exact ⟨_, d, _, by rw [exec_setRot_redraw hw hd, readFrame_of_ok ho]⟩

/-! ### Device transactions that fail -/

/-- The next transaction fails as a read, and `st` is the DeviceError of its cause
(60_exceptions.md R251, R256). -/
def ReadFails (s : State) (st : Word) : Prop :=
  (nextEvent s = .failOpen ∧ st = 0x00000104) ∨ (nextEvent s = .failAccess ∧ st = 0x00000204)

/-- The next transaction fails as a write, and `st` is the DeviceError of its cause
(60_exceptions.md R251, R256). -/
def WriteFails (s : State) (st : Word) : Prop :=
  (nextEvent s = .failOpen ∧ st = 0x00000104) ∨ (nextEvent s = .failAccess ∧ st = 0x00000304)

/-- A failed read ends the command: what was to follow it does not happen (20_memory.md R55). -/
theorem memRead_of_fails {st : Word} (h : ReadFails s st) (addr n : Nat)
    (k : List Byte → State → State) :
    memRead addr n s k = putResponse [st] (transacted s.mem s) := by
  obtain ⟨he, rfl⟩ | ⟨he, rfl⟩ := h <;> simp only [memRead, he] <;> rfl

theorem readFrame_of_fails {st : Word} (h : ReadFails s st) (d : Rotation)
    (k : Grid → State → State) :
    readFrame d s k = putResponse [st] (transacted s.mem s) :=
  memRead_of_fails h _ _ _

theorem flipFrame_of_fails {st : Word} (h : ReadFails s st) (mirror : Grid → Grid) (rf : Bool) :
    flipFrame mirror rf s = putResponse [st] (transacted s.mem s) :=
  readFrame_of_fails h _ _

/-- A failed write ends the command, and only the bytes of its range are lost (20_memory.md R55). -/
theorem memWrite_of_fails {st : Word} (h : WriteFails s st) (addr : Nat) (v : List Byte)
    (k : State → State) :
    ∃ m, memWrite addr v s k = putResponse [st] (transacted m s) ∧
      bytesKeptOutside addr v.length s.mem m := by
  refine ⟨scrambled s addr v.length, ?_, bytesKept_scrambled s addr v.length⟩
  obtain ⟨he, rfl⟩ | ⟨he, rfl⟩ := h <;> simp only [memWrite, he] <;> rfl

theorem writeFrame_of_fails {st : Word} (h : WriteFails s st) (l : Grid) (d : Rotation)
    (k : State → State) :
    ∃ m, writeFrame l d s k = putResponse [st] (transacted m s) ∧
      bytesKeptOutside 0 128 s.mem m := by
  simpa [writeFrame] using memWrite_of_fails h 0 (frameBytes l d) k

end Sys2Proof.Machine
end

section
/-! PROOFS. The statements about the frame buffer and the device port (20_memory.md). -/

namespace Sys2Proof.Machine

/-- Settles O10, command by command and by the control state of a step. -/
theorem everyStepAnswersNextState : Obligations.EveryStepAnswersNextState :=
  ⟨AnswersNext.of_step, AnswersNext.of_exec⟩

/-- Settles O44: past its checks each command is one write, and a failed write loses its range. -/
theorem failedWriteLosesOnlyItsRange : Obligations.FailedWriteLosesOnlyItsRange := by
  unfold Obligations.FailedWriteLosesOnlyItsRange
  intro s st (hfail : WriteFails s st)
  have frame (l : Grid) (d : Rotation) (k : State → State) :
      ∃ m, (.next (writeFrame l d s k) : Out) = .next (putResponse [st] (transacted m s)) ∧
        bytesKeptOutside 0 128 s.mem m := by
    simpa using writeFrame_of_fails hfail l d k
  refine ⟨fun a c ha hx hy hc hok => ?setPixel, fun c hc => ?clear, fun ps hps => ?setPixels,
    fun l hrsv ht hb hl hf => ?showLetter⟩
  case setPixel =>
    rw [exec_setPixel_valid ha hx hy hc hok]
    simpa [cellBytes] using memWrite_of_fails hfail _ (cellBytes (encode565 (pixelOf c))) (respond [])
  case clear => exact exec_clear_valid hc s ▸ frame _ _ _
  case setPixels => exact exec_setPixels_valid hps s ▸ frame _ _ _
  case showLetter => exact exec_showLetter_valid hrsv ht hb hl hf ▸ frame _ _ _

/-- Settles O45: a failed read ends the command; after an answered one its write is the frame's. -/
theorem failedReadIssuesNoWrite : Obligations.FailedReadIssuesNoWrite := by
  unfold Obligations.FailedReadIssuesNoWrite
  refine fun s st => ⟨fun (hfail : ReadFails s st) => ?read,
    fun ho (hfail : WriteFails (takeEvent s) st) i (hi : Redraws i) => ?write⟩
  case read =>
    refine ⟨?_, fun a ha hx hy => ?_, fun rf => ?_, fun rf => ?_, fun w d hw hd => ?_⟩
    · rw [exec_getPixels_valid, readFrame_of_fails hfail]
    · rw [exec_getPixel_valid ha hx hy, memRead_of_fails hfail]
    · rw [exec_flipH_valid, flipFrame_of_fails hfail]
    · rw [exec_flipV_valid, flipFrame_of_fails hfail]
    · rw [exec_setRot_redraw hw hd, readFrame_of_fails hfail]
  case write =>
    obtain ⟨l, d, k, he⟩ := hi.exec_of_ok ho
    obtain ⟨m, hm, hkept⟩ := writeFrame_of_fails hfail l d k
    exact ⟨m, by rw [he, hm, takeEvent_eq], hkept⟩

end Sys2Proof.Machine
end

section
/-! PROOFS. What each parser makes of the words of a payload and back, what a header and its words
decode to, and what a fetched command leaves on CMD and RSP: the rules the statements about
30_encoding.md are proved from. -/

namespace Sys2Proof

variable {α : Type} {f : Word → α} {g : α → Word}

/-! ### Operands read back as they were written -/

/-- A payload marked `badLength` has a length its command refuses. -/
theorem Payload.refused_of_wellFormed {ok : α → Bool} {bad : List Word → Bool} {ws : List Word}
    (h : (Payload.badLength ws : Payload α).WellFormed ok bad = true) : bad ws = true := by
  simp only [Payload.WellFormed, Bool.and_eq_true] at h
  exact h.2

theorem oneOr64_payloadWords (hfg : ∀ a, f (g a) = a) {p : Payload (List α)}
    (hp : p.WellFormed (fun as => as.length == 1 || as.length == 64)
      (fun ws => ws.length != 1 && ws.length != 64) = true) :
    oneOr64 f (payloadWords (·.map g) p) = p := by
  cases p with
  | accepted as =>
    have hl : (as.map g).length = 1 ∨ (as.map g).length = 64 := by
      simpa [Payload.WellFormed] using hp
    rw [payloadWords, oneOr64, if_pos hl, Function.LeftInverse.list_map hfg as]
  | badLength ws =>
    have hl : ¬ (ws.length = 1 ∨ ws.length = 64) := by
      simpa using Payload.refused_of_wellFormed hp
    rw [payloadWords, oneOr64, if_neg hl]

theorem parsePixels_payloadWords {p : Payload (List PixWord)}
    (hp : p.WellFormed (fun ps => ps.length == 64) (fun ws => ws.length != 64) = true) :
    parsePixels (payloadWords (·.map PixWord.toWord) p) = p := by
  cases p with
  | accepted ps =>
    have hl : (ps.map PixWord.toWord).length = 64 := by simpa [Payload.WellFormed] using hp
    rw [payloadWords, parsePixels, if_pos hl,
      Function.LeftInverse.list_map PixWord.ofWord_toWord ps]
  | badLength ws =>
    have hl : ¬ ws.length = 64 := by simpa using Payload.refused_of_wellFormed hp
    rw [payloadWords, parsePixels, if_neg hl]

theorem noOperand_payloadWords {p : Payload Unit}
    (hp : p.WellFormed (fun _ => true) (fun ws => ws.length != 0) = true) :
    noOperand (payloadWords (fun _ => []) p) = p := by
  match p, hp with
  | .accepted (), _ => rfl
  | .badLength [], hp => cases hp
  | .badLength (_ :: _), _ => rfl

theorem oneOperand_payloadWords (hfg : ∀ a, f (g a) = a) {p : Payload α}
    (hp : p.WellFormed (fun _ => true) (fun ws => ws.length != 1) = true) :
    oneOperand f (payloadWords (fun a => [g a]) p) = p := by
  match p, hp with
  | .accepted a, _ => simp only [payloadWords, oneOperand, hfg]
  | .badLength [], _ => rfl
  | .badLength [_], hp => cases Payload.refused_of_wellFormed hp
  | .badLength (_ :: _ :: _), _ => rfl

theorem parseSetPixel_payloadWords {p : Payload (XyWord × PixWord)}
    (hp : p.WellFormed (fun _ => true) (fun ws => ws.length != 2) = true) :
    parseSetPixel (payloadWords (fun a => [a.1.toWord, a.2.toWord]) p) = p := by
  match p, hp with
  | .accepted (a, c), _ => simp [payloadWords, parseSetPixel]
  | .badLength [], _ => rfl
  | .badLength [_], _ => rfl
  | .badLength [_, _], hp => cases Payload.refused_of_wellFormed hp
  | .badLength (_ :: _ :: _ :: _), _ => rfl

theorem parseClear_payloadWords {p : Payload (Option PixWord)}
    (hp : p.WellFormed (fun _ => true) (fun ws => ws.length != 0 && ws.length != 1) = true) :
    parseClear (payloadWords (fun a => (a.map PixWord.toWord).toList) p) = p := by
  match p, hp with
  | .accepted none, _ => rfl
  | .accepted (some c), _ => simp [payloadWords, parseClear]
  | .badLength [], hp => cases Payload.refused_of_wellFormed hp
  | .badLength [_], hp => cases Payload.refused_of_wellFormed hp
  | .badLength (_ :: _ :: _), _ => rfl

/-- COUNT says where the atlas ends and the order string begins (43_glyph.md R160). -/
theorem parseFont_payloadWords {p : Payload FontOperands}
    (hp : p.WellFormed (fun a => decide (lenFits (1 + a.atlas.length + a.order.length)))
      badFontLength = true) :
    parseFont (payloadWords (fun a => BitVec.ofNat 32 a.atlas.length ::
      (a.atlas.map PixWord.toWord ++ a.order.map CharWord.toWord)) p) = p := by
  match p, hp with
  | .accepted a, hp =>
    have hfits : 1 + a.atlas.length + a.order.length ≤ 65535 := by
      simpa [Payload.WellFormed] using hp
    have hcount : (BitVec.ofNat 32 a.atlas.length).toNat = (a.atlas.map PixWord.toWord).length := by
      rw [BitVec.toNat_ofNat, List.length_map]
      omega
    simp only [payloadWords, parseFont, hcount, List.take_left', List.drop_left']
    simp [Function.comp_def]
  | .badLength [], _ => rfl
  | .badLength (count :: rest), hp =>
    have hl : rest.length < count.toNat := by
      simpa [badFontLength] using Payload.refused_of_wellFormed hp
    rw [payloadWords, parseFont, if_pos hl]

theorem parseLetter_payloadWords {p : Payload LetterOperands}
    (hp : p.WellFormed (fun a => decide (lenFits (2 + a.chars.length)))
      (fun ws => decide (ws.length < 2)) = true) :
    parseLetter (payloadWords (fun a => a.text.toWord :: a.back.toWord ::
      a.chars.map CharWord.toWord) p) = p := by
  match p, hp with
  | .accepted a, _ => simp [payloadWords, parseLetter, Function.comp_def]
  | .badLength [], _ => rfl
  | .badLength [_], _ => rfl
  | .badLength (_ :: _ :: _), hp => simpa using Payload.refused_of_wellFormed hp

theorem parseMessage_payloadWords {p : Payload MessageOperands}
    (hp : p.WellFormed (fun a => decide (lenFits (3 + a.chars.length)))
      (fun ws => decide (ws.length < 3)) = true) :
    parseMessage (payloadWords (fun a => a.speed :: a.text.toWord :: a.back.toWord ::
      a.chars.map CharWord.toWord) p) = p := by
  match p, hp with
  | .accepted a, _ => simp [payloadWords, parseMessage, Function.comp_def]
  | .badLength [], _ => rfl
  | .badLength [_], _ => rfl
  | .badLength [_, _], _ => rfl
  | .badLength (_ :: _ :: _ :: _), hp =>
    have hl := Payload.refused_of_wellFormed hp
    simp only [List.length_cons, decide_eq_true_eq] at hl
    omega

/-! ### A parsed payload is written with the words it was read from -/

theorem payloadWords_oneOr64 (hgf : ∀ w, g (f w) = w) (ws : List Word) :
    payloadWords (·.map g) (oneOr64 f ws) = ws := by
  unfold oneOr64
  split
  · simp [payloadWords, Function.comp_def, hgf]
  · rfl

theorem payloadWords_parsePixels (ws : List Word) :
    payloadWords (·.map PixWord.toWord) (parsePixels ws) = ws := by
  unfold parsePixels
  split
  · simp [payloadWords, Function.comp_def]
  · rfl

theorem payloadWords_noOperand (ws : List Word) :
    payloadWords (fun _ => []) (noOperand ws) = ws := by
  cases ws <;> rfl

theorem payloadWords_oneOperand (hgf : ∀ w, g (f w) = w) (ws : List Word) :
    payloadWords (fun a => [g a]) (oneOperand f ws) = ws := by
  match ws with
  | [] => rfl
  | [w] => simp only [oneOperand, payloadWords, hgf]
  | _ :: _ :: _ => rfl

theorem payloadWords_parseSetPixel (ws : List Word) :
    payloadWords (fun a => [a.1.toWord, a.2.toWord]) (parseSetPixel ws) = ws := by
  match ws with
  | [] => rfl
  | [_] => rfl
  | [_, _] => simp [parseSetPixel, payloadWords]
  | _ :: _ :: _ :: _ => rfl

theorem payloadWords_parseClear (ws : List Word) :
    payloadWords (fun a => (a.map PixWord.toWord).toList) (parseClear ws) = ws := by
  match ws with
  | [] => rfl
  | [_] => simp [parseClear, payloadWords]
  | _ :: _ :: _ => rfl

theorem payloadWords_parseFont (ws : List Word) :
    payloadWords (fun a => BitVec.ofNat 32 a.atlas.length ::
      (a.atlas.map PixWord.toWord ++ a.order.map CharWord.toWord)) (parseFont ws) = ws := by
  cases ws with
  | nil => rfl
  | cons count rest =>
    simp only [parseFont]
    split
    · rfl
    · next hl =>
      have hcount : min count.toNat rest.length = count.toNat := by omega
      simp [payloadWords, Function.comp_def, hcount]

theorem payloadWords_parseLetter (ws : List Word) :
    payloadWords (fun a => a.text.toWord :: a.back.toWord :: a.chars.map CharWord.toWord)
      (parseLetter ws) = ws := by
  match ws with
  | [] => rfl
  | [_] => rfl
  | _ :: _ :: _ => simp [parseLetter, payloadWords, Function.comp_def]

theorem payloadWords_parseMessage (ws : List Word) :
    payloadWords (fun a => a.speed :: a.text.toWord :: a.back.toWord ::
      a.chars.map CharWord.toWord) (parseMessage ws) = ws := by
  match ws with
  | [] => rfl
  | [_] => rfl
  | [_, _] => rfl
  | _ :: _ :: _ :: _ => simp [parseMessage, payloadWords, Function.comp_def]

/-! ### What a header and its words decode to -/

variable {h : Word} {i : Instr} {ws : List Word}

/-- The opcodes of no command (30_encoding.md R71). -/
def ReservedOpcode (n : Nat) : Prop :=
  n = 0x00 ∨ (0x04 ≤ n ∧ n ≤ 0x0F) ∨ n = 0x17 ∨ (0x1A ≤ n ∧ n ≤ 0x1F) ∨ (0x23 ≤ n ∧ n ≤ 0x2F) ∨
    0x32 ≤ n

/-- The opcodes that define `RF`: FLIP_H, FLIP_V and SET_ROT (30_encoding.md R69). -/
def definesRf (opc : BitVec 8) : Bool := opc == 0x14 || opc == 0x15 || opc == 0x18

theorem definesRf_eq_false_iff (opc : BitVec 8) :
    definesRf opc = false ↔ opc ≠ 0x14 ∧ opc ≠ 0x15 ∧ opc ≠ 0x18 := by
  simp [definesRf, and_assoc]

/-- A reserved header bit is set, `RF` among them but for the opcodes that define it
(30_encoding.md R69). -/
def ReservedBitSet (h : Word) : Prop :=
  headerReserved h ≠ 0 ∨ (headerRf h = true ∧ definesRf (headerOpc h) = false)

/-- The header's `OPC` and `RF` and the payload words `ws` are those of the command `i`. -/
def HeaderNames (h : Word) (ws : List Word) (i : Instr) : Prop :=
  i.opcode = headerOpc h ∧ i.redraw = headerRf h ∧ i.payload = ws

/-- All that a header with an opcode of the table decodes to: rejected for a reserved bit, or the
command of its fields and words. -/
def DecodesByBits (h : Word) (ws : List Word) (d : Decoded) : Prop :=
  ¬ ReservedOpcode (headerOpc h).toNat ∧
    ((ReservedBitSet h ∧ d = .rejected .reservedBits) ∨
      (¬ ReservedBitSet h ∧ ∃ i, HeaderNames h ws i ∧ d = .command i))

theorem not_reservedOpcode_opcode (i : Instr) : ¬ ReservedOpcode i.opcode.toNat := by
  cases i <;> simp [Instr.opcode, ReservedOpcode]

theorem decodesByBits_plainCommand (hn : (headerOpc h).toNat = i.opcode.toNat)
    (hrf : i.redraw = false) (hplain : definesRf i.opcode = false) (hp : i.payload = ws) :
    DecodesByBits h ws (plainCommand h i) := by
  have hopc : headerOpc h = i.opcode := BitVec.eq_of_toNat_eq hn
  have hbits : ReservedBitSet h ↔ ¬ (headerReserved h = 0 ∧ headerRf h = false) := by
    simp [ReservedBitSet, hopc, hplain, ← imp_iff_not_or]
  refine ⟨hopc ▸ not_reservedOpcode_opcode i, ?_⟩
  unfold plainCommand
  split
  · next hc =>
    have ⟨_, hclear⟩ := hc
    exact .inr ⟨by simp [hbits, hc], i, ⟨hopc.symm, hrf.trans hclear.symm, hp⟩, rfl⟩
  · next hc => exact .inl ⟨hbits.2 hc, rfl⟩

theorem decodesByBits_redrawCommand (hn : (headerOpc h).toNat = i.opcode.toNat)
    (hrf : i.redraw = headerRf h) (hredraw : definesRf i.opcode = true) (hp : i.payload = ws) :
    DecodesByBits h ws (redrawCommand h i) := by
  have hopc : headerOpc h = i.opcode := BitVec.eq_of_toNat_eq hn
  have hbits : ReservedBitSet h ↔ ¬ headerReserved h = 0 := by
    simp [ReservedBitSet, hopc, hredraw]
  refine ⟨hopc ▸ not_reservedOpcode_opcode i, ?_⟩
  unfold redrawCommand
  split
  · next hc => exact .inr ⟨by simp [hbits, hc], i, ⟨hopc.symm, hrf, hp⟩, rfl⟩
  · next hc => exact .inl ⟨hbits.2 hc, rfl⟩

/-- All a header and its words can decode to: the opcode is looked at first, then the reserved bits
(60_exceptions.md R259 steps 1 and 2). -/
theorem decode_cases (h : Word) (ws : List Word) :
    (ReservedOpcode (headerOpc h).toNat ∧ decode h ws = .rejected .reservedOpcode) ∨
    DecodesByBits h ws (decode h ws) := by
  unfold decode
  split
  · next ho => exact .inr (decodesByBits_plainCommand ho rfl rfl
      (payloadWords_oneOr64 PixWord.toWord_ofWord ws))
  · next ho => exact .inr (decodesByBits_plainCommand ho rfl rfl
      (payloadWords_oneOr64 CodeWord.toWord_ofWord ws))
  · next ho => exact .inr (decodesByBits_plainCommand ho rfl rfl
      (payloadWords_oneOperand XydWord.toWord_ofWord ws))
  · next ho => exact .inr (decodesByBits_plainCommand ho rfl rfl (payloadWords_parsePixels ws))
  · next ho => exact .inr (decodesByBits_plainCommand ho rfl rfl (payloadWords_noOperand ws))
  · next ho => exact .inr (decodesByBits_plainCommand ho rfl rfl (payloadWords_parseSetPixel ws))
  · next ho => exact .inr (decodesByBits_plainCommand ho rfl rfl
      (payloadWords_oneOperand XyWord.toWord_ofWord ws))
  · next ho => exact .inr (decodesByBits_redrawCommand ho rfl rfl (payloadWords_noOperand ws))
  · next ho => exact .inr (decodesByBits_redrawCommand ho rfl rfl (payloadWords_noOperand ws))
  · next ho => exact .inr (decodesByBits_plainCommand ho rfl rfl (payloadWords_parseClear ws))
  · next ho => exact .inr (decodesByBits_redrawCommand ho rfl rfl
      (payloadWords_oneOperand DegWord.toWord_ofWord ws))
  · next ho => exact .inr (decodesByBits_plainCommand ho rfl rfl (payloadWords_noOperand ws))
  · next ho => exact .inr (decodesByBits_plainCommand ho rfl rfl (payloadWords_parseFont ws))
  · next ho => exact .inr (decodesByBits_plainCommand ho rfl rfl
      (Function.LeftInverse.list_map CharWord.toWord_ofWord ws))
  · next ho => exact .inr (decodesByBits_plainCommand ho rfl rfl
      (Function.LeftInverse.list_map CharWord.toWord_ofWord ws))
  · next ho => exact .inr (decodesByBits_plainCommand ho rfl rfl (payloadWords_parseLetter ws))
  · next ho => exact .inr (decodesByBits_plainCommand ho rfl rfl (payloadWords_parseMessage ws))
  · refine .inl ⟨?_, rfl⟩
    simp only [imp_false] at *
    unfold ReservedOpcode
    omega

theorem decode_eq_reservedOpcode_iff :
    decode h ws = .rejected .reservedOpcode ↔ ReservedOpcode (headerOpc h).toNat := by
  obtain ⟨hres, hd⟩ | ⟨hres, ⟨-, hd⟩ | ⟨-, i, -, hd⟩⟩ := decode_cases h ws <;> simp [hd, hres]

theorem decode_eq_reservedBits_iff (ho : decode h ws ≠ .rejected .reservedOpcode) :
    decode h ws = .rejected .reservedBits ↔ ReservedBitSet h := by
  obtain ⟨-, hd⟩ | ⟨-, ⟨hbit, hd⟩ | ⟨hbit, i, -, hd⟩⟩ := decode_cases h ws
  · exact absurd hd ho
  · simp [hd, hbit]
  · simp [hd, hbit]

/-- A command is decoded only from its own fields and words, with the bits 15:9 clear
(30_encoding.md R66, R69). -/
theorem headerNames_of_decode (hd : decode h ws = .command i) :
    headerReserved h = 0 ∧ HeaderNames h ws i := by
  obtain ⟨-, hd'⟩ | ⟨-, ⟨-, hd'⟩ | ⟨hbit, j, hj, hd'⟩⟩ := decode_cases h ws <;> rw [hd'] at hd
  · cases hd
  · cases hd
  · cases hd
    exact ⟨by_contra fun hrsv => hbit (.inl hrsv), hj⟩

/-! ### The words of a command decode to it -/

theorem plainCommand_of_clear (hrsv : headerReserved h = 0) (hrf : headerRf h = false) {j : Instr}
    (hi : j = i) : plainCommand h j = .command i := by
  simp [plainCommand, hrsv, hrf, hi]

theorem redrawCommand_of_clear (hrsv : headerReserved h = 0) {j : Instr} (hi : j = i) :
    redrawCommand h j = .command i := by
  simp [redrawCommand, hrsv, hi]

/-- With its opcode and redraw flag in the header, a well-formed command's payload is parsed to the
operands it was written from (30_encoding.md R70). -/
theorem decode_payload (hw : i.WellFormed = true) (hopc : headerOpc h = i.opcode)
    (hrf : headerRf h = i.redraw) (hrsv : headerReserved h = 0) :
    decode h i.payload = .command i := by
  have chars (cs : List CharWord) : (cs.map CharWord.toWord).map CharWord.ofWord = cs :=
    Function.LeftInverse.list_map CharWord.ofWord_toWord cs
  unfold decode
  rw [hopc]
  cases i with
  | enc p =>
    exact plainCommand_of_clear hrsv hrf
      (congrArg Instr.enc (oneOr64_payloadWords PixWord.ofWord_toWord hw))
  | dec p =>
    exact plainCommand_of_clear hrsv hrf
      (congrArg Instr.dec (oneOr64_payloadWords CodeWord.ofWord_toWord hw))
  | xlat p =>
    exact plainCommand_of_clear hrsv hrf
      (congrArg Instr.xlat (oneOperand_payloadWords XydWord.ofWord_toWord hw))
  | setPixels p =>
    exact plainCommand_of_clear hrsv hrf (congrArg Instr.setPixels (parsePixels_payloadWords hw))
  | getPixels p =>
    exact plainCommand_of_clear hrsv hrf (congrArg Instr.getPixels (noOperand_payloadWords hw))
  | setPixel p =>
    exact plainCommand_of_clear hrsv hrf (congrArg Instr.setPixel (parseSetPixel_payloadWords hw))
  | getPixel p =>
    exact plainCommand_of_clear hrsv hrf
      (congrArg Instr.getPixel (oneOperand_payloadWords XyWord.ofWord_toWord hw))
  | flipH rf p =>
    exact redrawCommand_of_clear hrsv (congrArg₂ Instr.flipH hrf (noOperand_payloadWords hw))
  | flipV rf p =>
    exact redrawCommand_of_clear hrsv (congrArg₂ Instr.flipV hrf (noOperand_payloadWords hw))
  | clear p =>
    exact plainCommand_of_clear hrsv hrf (congrArg Instr.clear (parseClear_payloadWords hw))
  | setRot rf p =>
    exact redrawCommand_of_clear hrsv
      (congrArg₂ Instr.setRot hrf (oneOperand_payloadWords DegWord.ofWord_toWord hw))
  | getRot p =>
    exact plainCommand_of_clear hrsv hrf (congrArg Instr.getRot (noOperand_payloadWords hw))
  | loadFont p =>
    exact plainCommand_of_clear hrsv hrf (congrArg Instr.loadFont (parseFont_payloadWords hw))
  | glyph cs => exact plainCommand_of_clear hrsv hrf (congrArg Instr.glyph (chars cs))
  | glyphTrim cs => exact plainCommand_of_clear hrsv hrf (congrArg Instr.glyphTrim (chars cs))
  | showLetter p =>
    exact plainCommand_of_clear hrsv hrf (congrArg Instr.showLetter (parseLetter_payloadWords hw))
  | showMessage p =>
    exact plainCommand_of_clear hrsv hrf (congrArg Instr.showMessage (parseMessage_payloadWords hw))

open Laws.EncodedHeader in
/-- Every well-formed command has a header with its fields (30_encoding.md R66). -/
theorem exists_header_of_wellFormed : (i : Instr) → Statement i
  | .enc p => enc p
  | .dec p => dec p
  | .xlat p => xlat p
  | .setPixels p => setPixels p
  | .getPixels p => getPixels p
  | .setPixel p => setPixel p
  | .getPixel p => getPixel p
  | .flipH rf p => flipH rf p
  | .flipV rf p => flipV rf p
  | .clear p => clear p
  | .setRot rf p => setRot rf p
  | .getRot p => getRot p
  | .loadFont p => loadFont p
  | .glyph cs => glyph cs
  | .glyphTrim cs => glyphTrim cs
  | .showLetter p => showLetter p
  | .showMessage p => showMessage p

/-- A fetch takes the header and its `LEN` words, and leaves the rest (30_encoding.md R67). -/
theorem fetch_cons_append (hl : ws.length = headerLen h) (rest : List Word) :
    fetch (h :: (ws ++ rest)) = some (decode h ws, rest) := by
  simp [fetch, ← hl]

end Sys2Proof

namespace Sys2Proof.Machine

variable {s s' t : State} {h : Word} {ws rest : List Word}

/-! ### What a command leaves on CMD and RSP -/

/-- A rejected header's words are taken, and its error answered (30_encoding.md R67,
60_exceptions.md R257). -/
theorem step_of_rejected {r : Reject} (hd : decode h ws = .rejected r) (hr : s.resetIn = false)
    (hc : s.ctl = .idle) (hl : ws.length = headerLen h) (hcmd : s.cmd = h :: (ws ++ rest)) :
    step s = .next (raise (rejectCause r) { s with cmd := rest }) := by
  rw [step_of_idle hr hc, stepIdle, hcmd, fetch_cons_append hl, hd]

/-- Between states at the same draw no transaction was made. -/
theorem noResetBetween_of_draws_eq (hd : t.draws = s.draws) : noResetBetween s t := by
  simp [noResetBetween, hd, noResetPulse]

/-- The words on CMD are no part of what the device answers. -/
theorem noResetBetween_setCmd (s t : State) (cmd : List Word) :
    noResetBetween { s with cmd := cmd } t ↔ noResetBetween s t :=
  noResetPulse_congr rfl rfl

/-- But for a reset, no command touches CMD once its own words are taken. -/
theorem Ends.cmd_of_noReset {i : Instr} (he : Ends i s t) (hn : noResetBetween s t) :
    t.cmd = s.cmd := by
  have kept {s' : State} (hx : Transacts s s') : s'.cmd = s.cmd := by
    obtain ⟨-, -, -, -, hcmd, -⟩ := hx.frame
    exact hcmd
  obtain ⟨s', e, hx, rfl, -⟩ | ⟨s', ws, hx, rfl, -⟩ | ⟨s', d, rf, p, hx, -, rfl⟩ |
    ⟨f, -, -, rfl⟩ | hreset | ⟨p, c, -, rfl, -⟩ := he
  · simpa [raise_eq] using kept hx
  · simpa [respond_eq] using kept hx
  · simpa [respond_eq] using kept hx
  · simp [respond_eq]
  · exact absurd hn hreset.spec.1
  · rfl

/-- A reset on a command's transaction empties CMD (70_reset_and_hazards.md R303). -/
theorem ResetLands.cmd (hx : ResetLands s t) : t.cmd = [] := by
  obtain ⟨s', m, -, -, rfl, -⟩ := hx
  rfl

/-- `t` is idle, and exactly one whole response further on RSP than `s` (60_exceptions.md R260). -/
def AnswersOneResponse (s t : State) : Prop :=
  ∃ ws, isResponse ws = true ∧ t.rsp = s.rsp ++ ws ∧ t.ctl = .idle

theorem answersOneResponse_putResponse (hroom : s'.rspFull = false) (hrsp : s'.rsp = s.rsp)
    (hw : isResponse ws = true) : AnswersOneResponse s (putResponse ws s') := by
  rw [putResponse_room s' ws hroom]
  exact ⟨ws, hw, by simp [hrsp], rfl⟩

/-- But for a reset, a command ends with one whole response or with its scroll started
(60_exceptions.md R260). -/
theorem Ends.answersOneResponse {i : Instr} (he : Ends i s t) (hw : i.WellFormed = true)
    (hi : s.Inv) (hroom : s.rspFull = false) (hn : noResetBetween s t) :
    AnswersOneResponse s t ∨ ∃ p c, i = .showMessage p ∧ t.ctl = .scrolling c ∧ t.rsp = s.rsp := by
  have put {s' : State} {ws : List Word} (hx : Transacts s s') (hw : isResponse ws = true) :
      AnswersOneResponse s (putResponse ws s') := by
    obtain ⟨-, -, -, -, -, hrsp, -, hfull, -⟩ := hx.frame
    exact answersOneResponse_putResponse (hfull.trans hroom) hrsp hw
  obtain ⟨s', e, hx, rfl, -⟩ | ⟨s', ws, hx, rfl, hl⟩ | ⟨s', d, rf, p, hx, -, rfl⟩ |
    ⟨f, -, -, rfl⟩ | hreset | ⟨p, c, hp, rfl, -⟩ := he
  · exact .inl (put hx (isResponse_error e))
  · exact .inl (put hx (isResponse_ok (hl hw hi)))
  · obtain ⟨-, -, -, -, -, hrsp, -, hfull, -⟩ := hx.frame
    exact .inl (answersOneResponse_putResponse (hfull.trans hroom) hrsp (by decide))
  · exact .inl (answersOneResponse_putResponse hroom rfl (by decide))
  · exact absurd hn hreset.spec.1
  · exact .inr ⟨p, c, hp, rfl, rfl⟩

/-! ### Channels -/

/-- A channel in 0..255 keeps its value as the 8 bits of a pixel (30_encoding.md R72). -/
theorem toNat_setWidth_of_channelOk {c : BitVec 10} (hc : channelOk c) :
    ((c.setWidth 8).toNat : Int) = c.toInt := by
  obtain ⟨hlow, hhigh⟩ := hc
  rw [BitVec.toInt_eq_toNat_cond] at hlow hhigh ⊢
  rw [BitVec.toNat_setWidth]
  split <;> omega

/-- A result word holds its pixel's channels, reserved bits 0 (30_encoding.md R72). -/
@[simp] theorem ofWord_pixResult (q : Pixel) :
    PixWord.ofWord (pixResult q) =
      { rsv := 0, b := q.b.setWidth 10, g := q.g.setWidth 10, r := q.r.setWidth 10 } :=
  PixWord.ofWord_toWord _

end Sys2Proof.Machine
end

section
/-! PROOFS. The statements about the encoding (30_encoding.md). -/

namespace Sys2Proof.Machine

/-! ### Words and commands -/

/-- Settles O2: the command's header has its fields, and each format parses the words it wrote. -/
theorem encodedCommandDecodesBack : Obligations.EncodedCommandDecodesBack := by
  unfold Obligations.EncodedCommandDecodesBack
  intro i rest hw
  obtain ⟨h, he, hopc, hrf, hrsv, hlen⟩ := exists_header_of_wellFormed i hw
  rw [he, List.cons_append, fetch_cons_append hlen.symm, decode_payload hw hopc hrf hrsv]

/-- Settles O3: a command is decoded only from a header of its own fields, reserved bits 0. -/
theorem decodedCommandEncodesBack : Obligations.DecodedCommandEncodesBack := by
  unfold Obligations.DecodedCommandEncodesBack
  intro h ws i hl hd
  have hfits : lenFits ws.length := hl ▸ headerLen_le h
  refine ⟨?_, wellFormed_of_decode hfits hd⟩
  obtain ⟨hrsv, hopc, hrf, hp⟩ := headerNames_of_decode hd
  rw [encode, hopc, hrf, hp, hl, headerWord_of_fields h hrsv]

/-- Settles O4: by what a header can decode to. -/
theorem reservedOpcodeIsIllegalCommand : Obligations.ReservedOpcodeIsIllegalCommand := by
  unfold Obligations.ReservedOpcodeIsIllegalCommand
  refine fun h ws => ⟨decode_eq_reservedOpcode_iff, fun s rest hres hr hc hl hcmd => ?_⟩
  exact step_of_rejected (decode_eq_reservedOpcode_iff.2 hres) hr hc hl hcmd

/-- Settles O5: by what a header can decode to. -/
theorem reservedHeaderBitIsIllegalCommand : Obligations.ReservedHeaderBitIsIllegalCommand := by
  unfold Obligations.ReservedHeaderBitIsIllegalCommand
  refine fun h ws hd => ⟨?_, fun s rest hd hr hc hl hcmd => step_of_rejected hd hr hc hl hcmd⟩
  rw [decode_eq_reservedBits_iff hd, ReservedBitSet, definesRf_eq_false_iff]

/-- Settles O1, by evaluation: each is one fetch. -/
theorem writtenOutWordsDecode : Obligations.WrittenOutWordsDecode := by
  unfold Obligations.WrittenOutWordsDecode
  decide

/-! ### Commands on the streams -/

/-- Settles O8: a rejected header is answered at once; a command's ends leave CMD alone, but for a
reset. -/
theorem commandTakesOnePlusLenWords : Obligations.CommandTakesOnePlusLenWords := by
  unfold Obligations.CommandTakesOnePlusLenWords
  intro s h ws rest hr hc hcmd hl
  cases hd : decode h ws with
  | rejected r =>
    have hn : noResetBetween s (raise (rejectCause r) { s with cmd := rest }) :=
      noResetBetween_of_draws_eq (by simp [raise_eq])
    exact ⟨_, step_of_rejected hd hr hc hl hcmd, fun _ => by simp [raise_eq], absurd hn⟩
  | command i =>
    have hfetch : fetch s.cmd = some (.command i, rest) := by
      rw [hcmd, fetch_cons_append hl, hd]
    obtain ⟨t, ht⟩ := AnswersNext.of_exec i { s with cmd := rest }
    have hends := exec_cases _ _ _ ht
    refine ⟨t, (stepRunsTheDecodedCommand s i rest hr hc hfetch).trans ht, ?_⟩
    rw [← noResetBetween_setCmd s t rest]
    refine ⟨hends.cmd_of_noReset, fun hn => ?_⟩
    exact (hends.reset_or_noReset.resolve_right hn).cmd

/-- Settles O17: by the ends of a command. -/
theorem commandGivesOneResponse : Obligations.CommandGivesOneResponse := by
  unfold Obligations.CommandGivesOneResponse
  intro i s t hw hi hroom ht hn
  exact (exec_cases i s t ht).answersOneResponse hw hi hroom hn

/-! ### Pixel operands -/

/-- Settles O23: channel by channel. -/
theorem pixelOperandsAreSignedChannels : Obligations.PixelOperandsAreSignedChannels := by
  unfold Obligations.PixelOperandsAreSignedChannels
  refine ⟨validPix_iff, fun p hp => ?value, fun q => ⟨?fields, ?pixel⟩⟩
  case value =>
    obtain ⟨hr, hg, hb⟩ := hp
    exact ⟨toNat_setWidth_of_channelOk hr, toNat_setWidth_of_channelOk hg,
      toNat_setWidth_of_channelOk hb⟩
  case fields => simp [BitVec.ofNat_toNat]
  case pixel => simp [pixelOf]

end Sys2Proof.Machine
end

section
/-! PROOFS. The RGB565 fields as concatenations, frames as bytes and back, and what ENC and DEC answer:
the rules the statements about 40_codec.md are proved from. -/

namespace Sys2Proof.Machine

/-! ### Concatenations and masks -/

/-- The parts of a concatenation never overlap, so its value is a sum. -/
theorem toNat_append_eq_add {m n : Nat} (x : BitVec m) (y : BitVec n) :
    (x ++ y).toNat = x.toNat * 2 ^ n + y.toNat := by
  rw [BitVec.toNat_append, ← Nat.shiftLeft_add_eq_or_of_lt y.isLt, Nat.shiftLeft_eq]

theorem toNat_append_zero_mod {m : Nat} (x : BitVec m) (n : Nat) :
    (x ++ 0#n).toNat % 2 ^ n = 0 := by
  rw [toNat_append_eq_add, BitVec.toNat_ofNat, Nat.zero_mod, Nat.add_zero, Nat.mul_mod_left]

/-- Fields at different places have no bit in common. -/
theorem append_zero_and_zero_append {m n : Nat} (x : BitVec m) (y : BitVec n) :
    (x ++ 0#n) &&& (0#m ++ y) = 0#(m + n) := by
  rw [BitVec.and_append, BitVec.and_zero, BitVec.zero_and, BitVec.zero_append_zero]

/-- A mask of high ones clears the low bits. -/
theorem and_highMask {m n : Nat} (x : BitVec (m + n)) :
    x &&& (BitVec.allOnes m ++ 0#n) = x.extractLsb' n m ++ 0#n := by
  conv_lhs => rw [← BitVec.extractLsb'_append_extractLsb' (x := x)]
  rw [BitVec.and_append, BitVec.and_allOnes, BitVec.and_zero]

/-- Clearing low bits that are 0 changes nothing. -/
theorem and_highMask_eq_self_iff {m n : Nat} (x : BitVec (m + n)) :
    x &&& (BitVec.allOnes m ++ 0#n) = x ↔ x.toNat % 2 ^ n = 0 := by
  have hsplit : x.toNat = (x.extractLsb' n m).toNat * 2 ^ n + x.toNat % 2 ^ n := by
    conv_lhs => rw [← BitVec.extractLsb'_append_extractLsb' (x := x)]
    rw [toNat_append_eq_add, BitVec.extractLsb'_toNat 0 n, Nat.shiftRight_zero]
  rw [and_highMask, ← BitVec.toNat_inj, toNat_append_eq_add, BitVec.toNat_ofNat, Nat.zero_mod]
  omega

/-- The mask of a red or blue channel (40_codec.md R85). -/
theorem and_mask5 (x : Byte) : x &&& 0xF8 = x.extractLsb' 3 5 ++ 0#3 :=
  and_highMask (m := 5) (n := 3) x

/-- The mask of a green channel (40_codec.md R85). -/
theorem and_mask6 (x : Byte) : x &&& 0xFC = x.extractLsb' 2 6 ++ 0#2 :=
  and_highMask (m := 6) (n := 2) x

theorem and_mask5_eq_self_iff (x : Byte) : x &&& 0xF8 = x ↔ x.toNat % 8 = 0 :=
  and_highMask_eq_self_iff (m := 5) (n := 3) x

theorem and_mask6_eq_self_iff (x : Byte) : x &&& 0xFC = x ↔ x.toNat % 4 = 0 :=
  and_highMask_eq_self_iff (m := 6) (n := 2) x

/-! ### The fields of a code

Each channel's term of `Encode565`, bit by bit: its top bits at its own place among three, zeros at the
two others. -/

theorem redTerm_eq (r : Byte) :
    (r.setWidth 16 &&& 0xF8#16) <<< 8 = r.extractLsb' 3 5 ++ (0#6 ++ 0#5) := by
  refine BitVec.eq_of_getLsbD_eq fun i hi => ?_
  rw [BitVec.getLsbD_append, BitVec.getLsbD_append]
  interval_cases i <;> simp

theorem greenTerm_eq (g : Byte) :
    (g.setWidth 16 &&& 0xFC#16) <<< 3 = 0#5 ++ (g.extractLsb' 2 6 ++ 0#5) := by
  refine BitVec.eq_of_getLsbD_eq fun i hi => ?_
  rw [BitVec.getLsbD_append, BitVec.getLsbD_append]
  interval_cases i <;> simp

theorem blueTerm_eq (b : Byte) : b.setWidth 16 >>> 3 = 0#5 ++ (0#6 ++ b.extractLsb' 3 5) := by
  refine BitVec.eq_of_getLsbD_eq fun i hi => ?_
  rw [BitVec.getLsbD_append, BitVec.getLsbD_append]
  interval_cases i <;> simp

/-- `Encode565` puts the three fields side by side (40_codec.md R85). -/
theorem encode565_eq_append (p : Pixel) :
    encode565 p = p.r.extractLsb' 3 5 ++ (p.g.extractLsb' 2 6 ++ p.b.extractLsb' 3 5) := by
  calc encode565 p
      = (p.r.extractLsb' 3 5 ++ (0#6 ++ 0#5)) ||| (0#5 ++ (p.g.extractLsb' 2 6 ++ 0#5)) |||
          (0#5 ++ (0#6 ++ p.b.extractLsb' 3 5)) := by
        rw [← redTerm_eq, ← greenTerm_eq, ← blueTerm_eq]; rfl
    _ = p.r.extractLsb' 3 5 ++ (p.g.extractLsb' 2 6 ++ p.b.extractLsb' 3 5) := by
        simp only [BitVec.or_append, BitVec.or_zero, BitVec.zero_or]

/-- `Decode565` widens the three fields of a code with zeros (40_codec.md R86). -/
theorem decode565_eq (c : Code565) :
    decode565 c =
      { r := c.extractLsb' 11 5 ++ 0#3
        g := c.extractLsb' 5 6 ++ 0#2
        b := c.extractLsb' 0 5 ++ 0#3 } := by
  rw [decode565, Pixel.mk.injEq]
  refine ⟨?_, ?_, ?_⟩ <;>
  · refine BitVec.eq_of_getLsbD_eq fun i hi => ?_
    rw [BitVec.getLsbD_append]
    interval_cases i <;> simp

/-- A code is its three fields side by side. -/
theorem code_of_fields (c : Code565) :
    c.extractLsb' 11 5 ++ (c.extractLsb' 5 6 ++ c.extractLsb' 0 5) = c := by
  rw [BitVec.extractLsb'_append_extractLsb'_eq_extractLsb' (start₂ := 5) (start₁ := 0) rfl,
    BitVec.extractLsb'_append_extractLsb'_eq_extractLsb' (start₂ := 11) (start₁ := 0) rfl,
    BitVec.extractLsb'_eq_self]

/-! ### The codec laws (40_codec.md R87) -/

/-- A pixel sent through the codec loses the low bits of its channels. -/
theorem decode565_encode565 (p : Pixel) :
    decode565 (encode565 p) = { r := p.r &&& 0xF8, g := p.g &&& 0xFC, b := p.b &&& 0xF8 } := by
  obtain ⟨r, g, b⟩ := p
  rw [encode565_eq_append, decode565_eq, and_mask5, and_mask6, and_mask5,
    BitVec.extractLsb'_append_eq_left (b := g.extractLsb' 2 6 ++ b.extractLsb' 3 5),
    BitVec.extractLsb'_append_eq_of_add_le (by omega), BitVec.extractLsb'_append_eq_left,
    BitVec.extractLsb'_append_eq_of_add_le (by omega), BitVec.extractLsb'_append_eq_right]

theorem encode565_decode565 (c : Code565) : encode565 (decode565 c) = c := by
  have top {m n : Nat} (x : BitVec m) : (x ++ 0#n).extractLsb' n m = x :=
    BitVec.extractLsb'_append_eq_left
  rw [encode565_eq_append, decode565_eq, top, top, top, code_of_fields]

/-- The codec keeps the pixels whose low bits are 0, and only those. -/
theorem decode565_encode565_eq_self_iff (p : Pixel) :
    decode565 (encode565 p) = p ↔
      p.r.toNat % 8 = 0 ∧ p.g.toNat % 4 = 0 ∧ p.b.toNat % 8 = 0 := by
  obtain ⟨r, g, b⟩ := p
  rw [decode565_encode565, Pixel.mk.injEq, and_mask5_eq_self_iff, and_mask6_eq_self_iff,
    and_mask5_eq_self_iff]

/-! ### Frames (40_codec.md R88) -/

/-- The bytes of a cell's code are the two it was put together from. -/
theorem cellBytes_cellCode (lo hi : Byte) : cellBytes (cellCode lo hi) = [lo, hi] := by
  rw [cellBytes, cellCode, BitVec.extractLsb'_append_eq_right, BitVec.extractLsb'_append_eq_left]

/-- Unpacking a packed grid sends each pixel through the codec. -/
theorem decodeFrame_encodeFrame (q : Grid) :
    decodeFrame (encodeFrame q) = q.map fun p => decode565 (encode565 p) := by
  induction q with
  | nil => rfl
  | cons p q ih => rw [encodeFrame_cons, decodeFrame, cellCode, code_of_bytes, ih, List.map_cons]

/-- Packing an unpacked frame gives its bytes back, when they are whole cells. -/
theorem encodeFrame_decodeFrame : (bs : List Byte) → bs.length % 2 = 0 →
    encodeFrame (decodeFrame bs) = bs
  | [], _ => rfl
  | [_], h => absurd h (by simp)
  | lo :: hi :: bs, h => by
    have heven : bs.length % 2 = 0 := by
      simp only [List.length_cons] at h
      omega
    have ih : encodeFrame (decodeFrame bs) = bs := encodeFrame_decodeFrame bs heven
    calc encodeFrame (decodeFrame (lo :: hi :: bs))
        = cellBytes (encode565 (decode565 (cellCode lo hi))) ++ encodeFrame (decodeFrame bs) := rfl
      _ = lo :: hi :: bs := by rw [encode565_decode565, cellBytes_cellCode, ih]; rfl

/-! ### ENC and DEC (40_codec.md R90, R91) -/

variable {s : State}

@[simp] theorem codeReserved_iff (c : CodeWord) : codeReserved c = true ↔ c.rsv ≠ 0 := by
  simp [codeReserved]

theorem exec_enc_reserved {ps : List PixWord} (h : ∃ p ∈ ps, p.rsv ≠ 0) :
    exec (.enc (.accepted ps)) s = .next (raise .reservedBits s) := by
  have hrsv : ps.any pixReserved = true := by simpa using h
  exact if_pos hrsv

theorem exec_enc_range {ps : List PixWord} (h : ∀ p ∈ ps, p.rsv = 0)
    (hbad : ∃ p ∈ ps, ¬ pixOk p) :
    exec (.enc (.accepted ps)) s = .next (raise .channelRange s) := by
  have hrsv : ¬ ps.any pixReserved = true := by simpa using h
  have hok : (!ps.all validPix) = true := by simpa [← Bool.not_eq_true] using hbad
  exact (if_neg hrsv).trans (if_pos hok)

theorem exec_enc_valid {ps : List PixWord} (h : ∀ p ∈ ps, p.rsv = 0 ∧ pixOk p) :
    exec (.enc (.accepted ps)) s =
      .next (respond (ps.map fun p => codeResult (encode565 (pixelOf p))) s) := by
  have hrsv : ¬ ps.any pixReserved = true := by simpa using fun p hp => (h p hp).1
  have hok : ¬ (!ps.all validPix) = true := by simpa using fun p hp => (h p hp).2
  exact (if_neg hrsv).trans (if_neg hok)

theorem exec_dec_reserved {cs : List CodeWord} (h : ∃ c ∈ cs, c.rsv ≠ 0) :
    exec (.dec (.accepted cs)) s = .next (raise .reservedBits s) := by
  have hrsv : cs.any codeReserved = true := by simpa using h
  exact if_pos hrsv

theorem exec_dec_valid {cs : List CodeWord} (h : ∀ c ∈ cs, c.rsv = 0) :
    exec (.dec (.accepted cs)) s =
      .next (respond (cs.map fun c => pixResult (decode565 c.code)) s) := by
  have hrsv : ¬ cs.any codeReserved = true := by simpa using h
  exact if_neg hrsv

/-- A response is its OK status, the number of results in the top half, and the results
(30_encoding.md R79). -/
theorem respond_map {α : Type} (f : α → Word) (xs : List α) :
    respond (xs.map f) s = putResponse ((BitVec.ofNat 16 xs.length ++ 0#16) :: xs.map f) s := by
  rw [respond_eq, okStatus_eq, List.length_map]

end Sys2Proof.Machine
end

section
/-! PROOFS. The statements about the pixel codec (40_codec.md). -/

namespace Sys2Proof.Machine

/-! ### Codes -/

/-- Settles O19: the three terms as concatenations, zeros at each other's places. -/
theorem encode565IsThreeFields : Obligations.Encode565IsThreeFields := by
  unfold Obligations.Encode565IsThreeFields
  intro p
  rw [redTerm_eq, greenTerm_eq, blueTerm_eq]
  refine ⟨encode565_eq_append p, ?value, ?redGreen, ?redBlue, ?greenBlue⟩
  case value =>
    rw [encode565_eq_append, toNat_append_eq_add, toNat_append_eq_add]
    simp only [BitVec.extractLsb'_toNat, Nat.shiftRight_eq_div_pow]
    omega
  case redGreen => exact append_zero_and_zero_append _ _
  case redBlue => exact append_zero_and_zero_append _ _
  case greenBlue => rw [BitVec.and_append, append_zero_and_zero_append, BitVec.and_zero]; rfl

/-- Settles O20: each channel is its field and zeros. -/
theorem decode565IsThreeFields : Obligations.Decode565IsThreeFields := by
  unfold Obligations.Decode565IsThreeFields
  intro c
  rw [decode565_eq]
  exact ⟨rfl, rfl, rfl, toNat_append_zero_mod _ 3, toNat_append_zero_mod _ 2,
    toNat_append_zero_mod _ 3⟩

/-- Settles O21: a decoded code encodes back, so the second pass through the codec keeps what the first
one left. -/
theorem codecRoundTripLaws : Obligations.CodecRoundTripLaws :=
  ⟨decode565_encode565, encode565_decode565, fun p => by rw [encode565_decode565],
    decode565_encode565_eq_self_iff⟩

/-- Settles O22: cell by cell. -/
theorem framePackingIsLittleEndian : Obligations.FramePackingIsLittleEndian := by
  unfold Obligations.FramePackingIsLittleEndian
  refine ⟨fun q p v _ => getElem?_encodeFrame q p v,
    fun bs p lo hi _ => getElem?_decodeFrame bs p lo hi,
    fun q _ => ?unpackPacked, fun bs hl => encodeFrame_decodeFrame bs (by rw [hl])⟩
  case unpackPacked => simp only [decodeFrame_encodeFrame, decode565_encode565]

/-! ### Commands -/

/-- Settles O24: by the first check that fails. -/
theorem encAnswersCodes : Obligations.EncAnswersCodes := by
  unfold Obligations.EncAnswersCodes
  refine fun s => ⟨fun _ => rfl, fun ps => ⟨exec_enc_reserved, exec_enc_range, fun h => ?valid⟩⟩
  case valid => rw [exec_enc_valid h, respond_map]; rfl

/-- Settles O25: by the first check that fails. -/
theorem decAnswersPixels : Obligations.DecAnswersPixels := by
  unfold Obligations.DecAnswersPixels
  refine fun s => ⟨fun _ => rfl, fun cs => ⟨exec_dec_reserved, fun h => ?valid⟩⟩
  case valid => rw [exec_dec_valid h, respond_map]

end Sys2Proof.Machine
end

section
/-! PROOFS. The cell map as a quarter turn, the bulk rotation, and what XLAT and SET_ROT do once their
operands are known: the rules the statements about 41_rotation.md are proved from. -/

namespace Sys2Proof.Machine

variable {s : State}

/-! ### The cell map (41_rotation.md R100 to R103) -/

/-- The physical column and row of a logical cell (41_rotation.md R101). -/
def place (x y : Nat) (d : Rotation) : Nat × Nat := (offset x y d % 8, offset x y d / 8)

/-- The quarter turn `T(col, row) = (7 - row, col)` (41_rotation.md R103). -/
def quarterTurn (c : Nat × Nat) : Nat × Nat := (7 - c.2, c.1)

section Place

variable {x y : Nat}

theorem place_deg0 (hx : x < 8) : place x y .deg0 = (x, y) := by
  simp only [place, offset, Prod.mk.injEq]
  omega

theorem place_deg90 (hy : y < 8) : place x y .deg90 = (7 - y, x) := by
  simp only [place, offset, Prod.mk.injEq]
  omega

theorem place_deg180 (hx : x < 8) (hy : y < 8) : place x y .deg180 = (7 - x, 7 - y) := by
  simp only [place, offset, Prod.mk.injEq]
  omega

theorem place_deg270 (hx : x < 8) (hy : y < 8) : place x y .deg270 = (y, 7 - x) := by
  simp only [place, offset, Prod.mk.injEq]
  omega

/-- A rotation by `90 * ROTSEL` degrees is `ROTSEL` quarter turns. -/
theorem place_eq_quarterTurn_iterate (hx : x < 8) (hy : y < 8) :
    (d : Rotation) → place x y d = quarterTurn^[d.sel.toNat] (x, y)
  | .deg0 => place_deg0 hx
  | .deg90 => place_deg90 hy
  | .deg180 => place_deg180 hx hy
  | .deg270 => by
    have hback : 7 - (7 - y) = y := Nat.sub_sub_self (Nat.le_of_lt_succ hy)
    calc place x y .deg270
        = (7 - (7 - y), 7 - x) := by rw [place_deg270 hx hy, hback]
      _ = quarterTurn^[3] (x, y) := rfl

end Place

theorem quarterTurn_iterate_four {c : Nat × Nat} (hx : c.1 < 8) (hy : c.2 < 8) :
    quarterTurn^[4] c = c :=
  calc quarterTurn^[4] c
      = (7 - (7 - c.1), 7 - (7 - c.2)) := rfl
    _ = c := by
      rw [Nat.sub_sub_self (Nat.le_of_lt_succ hx), Nat.sub_sub_self (Nat.le_of_lt_succ hy)]

/-- Every physical cell is the place of one logical cell: the one its logical index names. -/
theorem existsUnique_offset_eq (d : Rotation) {p : Nat} (hp : p < 64) :
    ∃! c : Nat × Nat, c.1 < 8 ∧ c.2 < 8 ∧ offset c.1 c.2 d = p := by
  have hi : logicalIndex p d < 64 := logicalIndex_lt hp d
  refine ⟨(logicalIndex p d % 8, logicalIndex p d / 8),
    ⟨Nat.mod_lt _ (by decide), Nat.div_lt_of_lt_mul hi, offset_logicalIndex hp d⟩, ?_⟩
  rintro ⟨x, y⟩ ⟨hx, hy, rfl⟩
  have hindex := logicalIndex_offset hx hy d
  simp only [hindex, Prod.mk.injEq]
  omega

/-! ### The bulk rotation (41_rotation.md R105, R106) -/

theorem getElem?_eq_of_cellAt_eq {a b : Grid} {i j : Nat} (ha : a.length = 64) (hb : b.length = 64)
    (hi : i < 64) (hj : j < 64) (h : cellAt a i = cellAt b j) : a[i]? = b[j]? := by
  rw [getElem?_of_length ha hi, getElem?_of_length hb hj, h]

section Bulk

variable {x y : Nat}

theorem cellAt_toPhysical (g : Grid) (d : Rotation) (hx : x < 8) (hy : y < 8) :
    cellAt (toPhysical g d) (offset x y d) = cellAt g (x + 8 * y) := by
  rw [toPhysical, cellAt_gridOf _ (offset_lt (by omega) (by omega) d), logicalIndex_offset hx hy]

theorem cellAt_toLogical (g : Grid) (d : Rotation) (hx : x < 8) (hy : y < 8) :
    cellAt (toLogical g d) (x + 8 * y) = cellAt g (offset x y d) := by
  rw [toLogical, cellAt_gridOf _ (by omega), show (x + 8 * y) % 8 = x by omega,
    show (x + 8 * y) / 8 = y by omega]

end Bulk

theorem toLogical_toPhysical {g : Grid} (hg : g.length = 64) (d : Rotation) :
    toLogical (toPhysical g d) d = g :=
  grid_ext (length_toLogical _ _) hg <| forall_cell_of_offset .deg0 fun x y hx hy =>
    calc cellAt (toLogical (toPhysical g d) d) (x + 8 * y)
        = cellAt (toPhysical g d) (offset x y d) := cellAt_toLogical _ d hx hy
      _ = cellAt g (x + 8 * y) := cellAt_toPhysical g d hx hy

theorem toPhysical_toLogical {g : Grid} (hg : g.length = 64) (d : Rotation) :
    toPhysical (toLogical g d) d = g :=
  grid_ext (length_toPhysical _ _) hg <| forall_cell_of_offset d fun x y hx hy =>
    calc cellAt (toPhysical (toLogical g d) d) (offset x y d)
        = cellAt (toLogical g d) (x + 8 * y) := cellAt_toPhysical _ d hx hy
      _ = cellAt g (offset x y d) := cellAt_toLogical g d hx hy

/-! ### Degree values -/

/-- What names no rotation is refused (60_exceptions.md R255). -/
theorem Rotation.ofDeg_eq_none {w : BitVec 16} (h : ∀ d : Rotation, w.toNat ≠ d.deg) :
    Rotation.ofDeg w = none := by
  have h0 : w.toNat ≠ 0 := h .deg0
  have h90 : w.toNat ≠ 90 := h .deg90
  have h180 : w.toNat ≠ 180 := h .deg180
  have h270 : w.toNat ≠ 270 := h .deg270
  simp [Rotation.ofDeg, h0, h90, h180, h270]

/-! ### XLAT and GET_ROT (41_rotation.md R107, R110) -/

/-- A response of one word: status OK, and `RLEN` 1 (30_encoding.md R79). -/
theorem respond_singleton (w : Word) : respond [w] s = putResponse [0x00010000, w] s := by
  have hstatus : okStatus 1 = 0x00010000 := by decide
  rw [respond_eq, List.length_singleton, hstatus]

theorem exec_getRot_accepted :
    exec (.getRot (.accepted ())) s = .next (respond [natResult s.rot.deg] s) := rfl

theorem exec_xlat_noRotation {w : XydWord} (h : ∀ d : Rotation, w.deg.toNat ≠ d.deg) :
    exec (.xlat (.accepted w)) s = .next (raise .invalidRotation s) := by
  simp only [exec, execXlat, Rotation.ofDeg_eq_none h]

theorem exec_xlat_rotation {w : XydWord} {d : Rotation} (h : w.deg.toNat = d.deg) :
    exec (.xlat (.accepted w)) s =
      if coordInRange w.x w.y then .next (respond [natResult (offset w.x.toNat w.y.toNat d)] s)
      else .next (raise .coordRange s) := by
  simp only [exec, execXlat, Rotation.ofDeg_of_deg h]

/-! ### SET_ROT (41_rotation.md R108) -/

theorem exec_setRot_reserved {w : DegWord} (hw : w.rsv ≠ 0) (rf : Bool) :
    exec (.setRot rf (.accepted w)) s = .next (raise .reservedBits s) :=
  if_pos ((degReserved_iff w).2 hw)

theorem exec_setRot_noRotation {w : DegWord} (hw : w.rsv = 0)
    (h : ∀ d : Rotation, w.deg.toNat ≠ d.deg) (rf : Bool) :
    exec (.setRot rf (.accepted w)) s = .next (raise .invalidRotation s) := by
  simp [exec, execSetRot, hw, Rotation.ofDeg_eq_none h]

theorem exec_setRot_plain {w : DegWord} {d : Rotation} (hw : w.rsv = 0) (hd : w.deg.toNat = d.deg) :
    exec (.setRot false (.accepted w)) s =
      .next (putResponse [0x00000000] { s with rot := d }) := by
  have hfinish : exec (.setRot false (.accepted w)) s = .next (finishSetRot d s) := by
    simp [exec, execSetRot, hw, Rotation.ofDeg_of_deg hd]
  exact hfinish

/-- FB once a frame read under `e` is written under `d` (41_rotation.md R108). -/
def redrawn (m : Memory) (e d : Rotation) : Memory :=
  m.writeBytes 0 (frameBytes (toLogical (decodeFrame (m.readBytes 0 128)) e) d)

/-- A redraw keeps the logical picture: decoding loses nothing of a code (40_codec.md R87). -/
theorem logicalCode_redrawn (m : Memory) (e d : Rotation) {x y : Nat} (hx : x < 8) (hy : y < 8) :
    logicalCode (redrawn m e d) d x y = logicalCode m e x y := by
  rw [logicalCode, redrawn, codeAt_frameBytes m _ d hx hy, cellAt_readFrame m e hx hy,
    encode565_decode565]

theorem bytesKept_redrawn (m : Memory) (e d : Rotation) :
    bytesKeptOutside 0 128 m (redrawn m e d) :=
  bytesKept_frameBytes m _ d

theorem exec_setRot_redrawn {w : DegWord} {d : Rotation} (hw : w.rsv = 0) (hd : w.deg.toNat = d.deg)
    (hok : answersOk 2 s) :
    exec (.setRot true (.accepted w)) s =
      .next (putResponse [0x00000000]
        { transacted (redrawn s.mem s.rot d) (transacted s.mem s) with rot := d }) := by
  obtain ⟨hread, hwrite, -⟩ := hok
  rw [exec_setRot_redraw hw hd, readFrame_of_ok hread, writeFrame_of_ok hwrite]
  rfl

/-! ### Two redraws in a row (41_rotation.md R109) -/

/-- Equal codes are equal pairs of bytes. -/
theorem codeAt_eq_iff (m m' : Memory) (p : Nat) :
    codeAt m p = codeAt m' p ↔
      m.read (2 * p) = m'.read (2 * p) ∧ m.read (2 * p + 1) = m'.read (2 * p + 1) := by
  have hbytes (n : Memory) : cellBytes (codeAt n p) = [n.read (2 * p), n.read (2 * p + 1)] :=
    cellBytes_cellCode _ _
  refine ⟨fun h => ?_, fun ⟨hlo, hhi⟩ => by rw [codeAt, hlo, hhi, codeAt]⟩
  simpa [hbytes] using congrArg cellBytes h

/-- FB is its 64 codes: memories that agree on them and outside FB agree on every byte. -/
theorem read_eq_of_codeAt_eq {m m' : Memory} (h : ∀ p, p < 64 → codeAt m' p = codeAt m p)
    (hout : bytesKeptOutside 0 128 m m') (a : Nat) : m'.read a = m.read a := by
  by_cases ha : a < 128
  · obtain ⟨hlo, hhi⟩ := (codeAt_eq_iff m' m (a / 2)).1 (h _ (by omega))
    obtain heven | hodd : a = 2 * (a / 2) ∨ a = 2 * (a / 2) + 1 := by omega
    · rwa [← heven] at hlo
    · rwa [← hodd] at hhi
  · exact hout a (by omega)

theorem read_redrawn_redrawn (m : Memory) (e d : Rotation) (a : Nat) :
    (redrawn (redrawn m e d) d e).read a = m.read a := by
  have hcodes : ∀ p, p < 64 → codeAt (redrawn (redrawn m e d) d e) p = codeAt m p :=
    forall_cell_of_offset e fun x y hx hy =>
      calc logicalCode (redrawn (redrawn m e d) d e) e x y
          = logicalCode (redrawn m e d) d x y := logicalCode_redrawn _ d e hx hy
        _ = logicalCode m e x y := logicalCode_redrawn m e d hx hy
  have hout : bytesKeptOutside 0 128 m (redrawn (redrawn m e d) d e) := fun b hb =>
    (bytesKept_redrawn _ d e b hb).trans (bytesKept_redrawn m e d b hb)
  exact read_eq_of_codeAt_eq hcodes hout a

/-- What the device answers depends on the oracle's tape and counter alone. -/
theorem answersOk_congr {n : Nat} {s s' : State} (he : s'.events = s.events)
    (hd : s'.draws = s.draws) : answersOk n s' ↔ answersOk n s := by
  induction n generalizing s s' with
  | zero => rfl
  | succ n ih =>
    have hn : nextEvent s' = nextEvent s := by simp only [nextEvent, he, hd]
    rw [answersOk, answersOk, hn, ih (s := takeEvent s) (by simp [he]) (by simp [hd])]

/-- A redraw that is answered leaves FB redrawn and ROT written, and the device where it was two
transactions on. -/
theorem exec_setRot_redraws {w : DegWord} {d : Rotation} {n : Nat} (hw : w.rsv = 0)
    (hd : w.deg.toNat = d.deg) (hok : answersOk (n + 2) s) :
    ∃ t, exec (.setRot true (.accepted w)) s = .next t ∧ t.rot = d ∧
      t.mem = redrawn s.mem s.rot d ∧ answersOk n t := by
  obtain ⟨hread, hwrite, hrest⟩ := hok
  exact ⟨_, exec_setRot_redrawn hw hd ⟨hread, hwrite, trivial⟩, by simp, by simp,
    (answersOk_congr (by simp) (by simp)).2 hrest⟩

end Sys2Proof.Machine
end

section
/-! PROOFS. The statements about the rotation map (41_rotation.md). -/

namespace Sys2Proof.Machine

/-! ### The cell map and the bulk rotation -/

/-- Settles O26: the formulas by their definition, the rows and columns by `place`. -/
theorem offsetFormulasAndPlaces : Obligations.OffsetFormulasAndPlaces := by
  unfold Obligations.OffsetFormulasAndPlaces
  refine fun x y hx hy => ⟨?formulas, congrArg Prod.swap (place_deg0 hx),
    congrArg Prod.swap (place_deg90 hy), congrArg Prod.swap (place_deg180 hx hy),
    congrArg Prod.swap (place_deg270 hx hy)⟩
  case formulas =>
    simp only [offset]
    omega

/-- Settles O27: by the inverse map and the powers of the quarter turn. -/
theorem offsetIsQuarterTurnBijection : Obligations.OffsetIsQuarterTurnBijection := by
  unfold Obligations.OffsetIsQuarterTurnBijection
  refine ⟨fun d p hp => existsUnique_offset_eq d hp, fun p hp => ?inverse,
    fun d x y hx hy => ⟨offset_lt (by omega) (by omega) d, place_eq_quarterTurn_iterate hx hy d⟩,
    fun c hx hy => quarterTurn_iterate_four hx hy⟩
  case inverse =>
    simp only [offset]
    omega

/-- Settles O28: entry by entry, through the logical order. -/
theorem bulkRotationAgreesWithCells : Obligations.BulkRotationAgreesWithCells := by
  unfold Obligations.BulkRotationAgreesWithCells
  intro g d hg
  refine ⟨fun x y hx hy => ?_, toLogical_toPhysical hg d, toPhysical_toLogical hg d,
    fun e x y hx hy => ?_⟩
  · have hp : offset x y d < 64 := offset_lt (by omega) (by omega) d
    exact ⟨getElem?_eq_of_cellAt_eq (by simp) hg hp (by omega) (cellAt_toPhysical g d hx hy),
      getElem?_eq_of_cellAt_eq (by simp) hg (by omega) hp (cellAt_toLogical g d hx hy)⟩
  · refine getElem?_eq_of_cellAt_eq (by simp) hg (offset_lt (by omega) (by omega) e)
      (offset_lt (by omega) (by omega) d) ?_
    rw [cellAt_toPhysical _ e hx hy, cellAt_toLogical g d hx hy]

/-! ### Commands -/

/-- Settles O29: by the first check that fails. -/
theorem xlatAnswersCell : Obligations.XlatAnswersCell := by
  unfold Obligations.XlatAnswersCell
  refine fun s => ⟨fun _ => rfl, fun w => ⟨exec_xlat_noRotation, fun d hd => ⟨fun hout => ?range,
    fun hx hy => ?cell⟩⟩⟩
  case range =>
    have hcoord : ¬ coordInRange w.x w.y = true := by
      rw [coordInRange_iff]
      omega
    rw [exec_xlat_rotation hd, if_neg hcoord]
    rfl
  case cell =>
    rw [exec_xlat_rotation hd, if_pos ((coordInRange_iff w.x w.y).2 ⟨hx, hy⟩), respond_singleton]
    rfl

/-- Settles O30: by the first check that fails. -/
theorem setRotWithoutRedrawWritesRot : Obligations.SetRotWithoutRedrawWritesRot := by
  unfold Obligations.SetRotWithoutRedrawWritesRot
  exact fun s rf => ⟨fun _ => rfl, fun w => ⟨fun hw => exec_setRot_reserved hw rf,
    fun hw hd => exec_setRot_noRotation hw hd rf, fun d hw hd => exec_setRot_plain hw hd⟩⟩

/-- Settles O31: the redrawn frame has the codes of the old one, each at its new cell. -/
theorem setRotRedrawMovesCodes : Obligations.SetRotRedrawMovesCodes := by
  unfold Obligations.SetRotRedrawMovesCodes
  exact fun s w d hw hd hok => ⟨redrawn s.mem s.rot d, exec_setRot_redrawn hw hd hok,
    fun x y hx hy => logicalCode_redrawn s.mem s.rot d hx hy, bytesKept_redrawn s.mem s.rot d⟩

/-- Settles O32: the one result word is `deg(ROT)`. -/
theorem getRotAnswersDegrees : Obligations.GetRotAnswersDegrees := by
  unfold Obligations.GetRotAnswersDegrees
  refine fun s => ⟨fun _ => rfl, ?degrees, ?rotations⟩
  case degrees =>
    rw [exec_getRot_accepted, respond_singleton]
    rfl
  case rotations => cases s.rot <;> simp

/-- Settles O33: without a redraw FB is not touched; with one, the second redraw undoes the first. -/
theorem rotationRoundTripRestoresFrame : Obligations.RotationRoundTripRestoresFrame := by
  unfold Obligations.RotationRoundTripRestoresFrame
  intro s rf hrot hok
  cases rf with
  | false =>
    exact ⟨_, _, exec_setRot_plain (d := .deg90) rfl rfl, exec_setRot_plain (d := .deg0) rfl rfl,
      by simp, by simp, fun a => by simp, nofun⟩
  | true =>
    obtain ⟨t, hfirst, htrot, htmem, htok⟩ :=
      exec_setRot_redraws (w := ⟨0, 90⟩) (d := .deg90) (n := 2) rfl rfl hok
    obtain ⟨u, hsecond, hurot, humem, -⟩ :=
      exec_setRot_redraws (w := ⟨0, 0⟩) (d := .deg0) (n := 0) rfl rfl htok
    rw [hrot] at htmem
    rw [htrot, htmem] at humem
    refine ⟨t, u, hfirst, hsecond, htrot, hurot, fun a => ?frame, fun _ x y hx hy => ?picture⟩
    case frame => rw [humem, read_redrawn_redrawn]
    case picture => rw [htmem, htrot, hrot, logicalCode_redrawn _ _ _ hx hy]

end Sys2Proof.Machine
end

section
/-! PROOFS. The frame and the single cell as the surface commands read and write them, the checks of
those commands, and the mirrors of the flips: the rules the statements about 42_surface.md are proved
from. -/

namespace Sys2Proof.Machine

variable {s : State}

/-! ### Responses and the device after them -/

/-- A response of a frame: status OK, `RLEN` 64, and one PIX word for each cell (30_encoding.md R79). -/
theorem respond_frame {g : Grid} (hg : g.length = 64) :
    respond (g.map pixResult) s = putResponse (0x00400000 :: g.map pixResult) s := by
  rw [respond_map, hg]
  rfl

theorem getElem?_map_pixResult {g : Grid} (hg : g.length = 64) {i : Nat} (hi : i < 64) :
    (g.map pixResult)[i]? = some (pixResult (cellAt g i)) := by
  rw [List.getElem?_map, getElem?_of_length hg hi, Option.map_some]

theorem putResponse_rsp (ws : List Word) (h : s.rspFull = false) :
    (putResponse ws s).rsp = s.rsp ++ ws := by
  rw [putResponse_room s ws h, answered_rsp]

/-- A response uses no device event, and the transaction before it used one. -/
theorem answersOk_putResponse_transacted {n : Nat} (ws : List Word) (m : Memory) :
    answersOk n (putResponse ws (transacted m s)) ↔ answersOk n (takeEvent s) :=
  answersOk_congr (by simp) (by simp)

/-! ### The frame as a grid (42_surface.md R121, R122) -/

/-- The entry of cell `(x, y)` in a grid computed from columns and rows. -/
theorem cellAt_gridOf_cell (f : Nat → Nat → Pixel) {x y : Nat} (hx : x < 8) (hy : y < 8) :
    cellAt (gridOf fun i => f (i % 8) (i / 8)) (x + 8 * y) = f x y := by
  rw [cellAt_gridOf _ (by omega), show (x + 8 * y) % 8 = x by omega,
    show (x + 8 * y) / 8 = y by omega]

/-- The logical grid that FB shows under a rotation. -/
def shownGrid (m : Memory) (d : Rotation) : Grid := toLogical (decodeFrame (m.readBytes 0 128)) d

@[simp] theorem length_shownGrid (m : Memory) (d : Rotation) : (shownGrid m d).length = 64 :=
  length_toLogical _ d

theorem cellAt_shownGrid (m : Memory) (d : Rotation) {x y : Nat} (hx : x < 8) (hy : y < 8) :
    cellAt (shownGrid m d) (x + 8 * y) = decode565 (logicalCode m d x y) :=
  cellAt_readFrame m d hx hy

theorem cellAt_replicate (v : Pixel) {i : Nat} (hi : i < 64) :
    cellAt (List.replicate Config.cells v) i = v := by
  rw [cellAt, List.getD_eq_getElem _ _ (by simpa using hi), List.getElem_replicate]

/-- A grid all of whose entries are one pixel is that pixel 64 times. -/
theorem grid_eq_replicate {g : Grid} {v : Pixel} (hg : g.length = 64)
    (h : ∀ x y, x < 8 → y < 8 → cellAt g (x + 8 * y) = v) : g = List.replicate 64 v :=
  grid_ext hg List.length_replicate <| forall_cell_of_offset .deg0 fun x y hx hy =>
    (h x y hx hy).trans (cellAt_replicate v (offset_lt (by omega) (by omega) .deg0)).symm

/-- FB once a grid is written to it under a rotation. -/
def drawn (m : Memory) (l : Grid) (d : Rotation) : Memory := m.writeBytes 0 (frameBytes l d)

theorem logicalCode_drawn (m : Memory) (l : Grid) (d : Rotation) {x y : Nat} (hx : x < 8) (hy : y < 8) :
    logicalCode (drawn m l d) d x y = encode565 (cellAt l (x + 8 * y)) :=
  codeAt_frameBytes m l d hx hy

theorem bytesKept_drawn (m : Memory) (l : Grid) (d : Rotation) :
    bytesKeptOutside 0 128 m (drawn m l d) :=
  bytesKept_frameBytes m l d

/-- A frame of one colour has its code in every cell, whatever the rotation. -/
theorem codeAt_drawn_replicate (m : Memory) (v : Pixel) (d : Rotation) {p : Nat} (hp : p < 64) :
    codeAt (drawn m (List.replicate Config.cells v) d) p = encode565 v := by
  refine forall_cell_of_offset (P := fun p => codeAt _ p = encode565 v) d (fun x y hx hy => ?_) p hp
  calc logicalCode (drawn m (List.replicate Config.cells v) d) d x y
      = encode565 (cellAt (List.replicate Config.cells v) (x + 8 * y)) :=
        logicalCode_drawn m _ d hx hy
    _ = encode565 v := by rw [cellAt_replicate v (by omega)]

theorem codeAt_nil (p : Nat) : codeAt [] p = 0 := by
  rw [codeAt, Memory.read, Memory.read]
  decide

/-- A byte is fixed by the code of its cell, byte `a` being in cell `a / 2` (20_memory.md R51). -/
theorem read_eq_of_codeAt_half_eq {m m' : Memory} {a : Nat}
    (h : codeAt m' (a / 2) = codeAt m (a / 2)) : m'.read a = m.read a := by
  obtain ⟨hlo, hhi⟩ := (codeAt_eq_iff m' m (a / 2)).1 h
  obtain heven | hodd : a = 2 * (a / 2) ∨ a = 2 * (a / 2) + 1 := by omega
  · rwa [← heven] at hlo
  · rwa [← hodd] at hhi

/-! ### One cell (42_surface.md R126, R127) -/

/-- FB once a code is written to the two bytes of a physical cell (20_memory.md R51). -/
def cellWritten (m : Memory) (p : Nat) (c : Code565) : Memory := m.writeBytes (2 * p) (cellBytes c)

section Cell

variable (m : Memory) (p : Nat) (c : Code565)

theorem read_cellWritten_low : (cellWritten m p c).read (2 * p) = c.extractLsb' 0 8 := by
  simp [cellWritten, Memory.read_writeBytes, cellBytes]

theorem read_cellWritten_high : (cellWritten m p c).read (2 * p + 1) = c.extractLsb' 8 8 := by
  simp [cellWritten, Memory.read_writeBytes, cellBytes]

theorem bytesKept_cellWritten : bytesKeptOutside (2 * p) 2 m (cellWritten m p c) :=
  Memory.bytesKept_writeBytes m (2 * p) (cellBytes c)

theorem codeAt_cellWritten_same : codeAt (cellWritten m p c) p = c := by
  rw [codeAt, read_cellWritten_low, read_cellWritten_high, code_of_bytes]

theorem codeAt_cellWritten_ne {q : Nat} (hq : q ≠ p) : codeAt (cellWritten m p c) q = codeAt m q := by
  have hkept := bytesKept_cellWritten m p c
  exact (codeAt_eq_iff _ _ q).2 ⟨hkept _ (by omega), hkept _ (by omega)⟩

/-- The two bytes read at a cell are the pixel of its code. -/
theorem pixelOfBytes_readBytes : pixelOfBytes (m.readBytes (2 * p) 2) = decode565 (codeAt m p) := rfl

end Cell

/-! ### SET_PIXELS and GET_PIXELS (42_surface.md R124, R125) -/

theorem exec_setPixels_reserved {ps : List PixWord} (h : ∃ p ∈ ps, p.rsv ≠ 0) :
    exec (.setPixels (.accepted ps)) s = .next (raise .reservedBits s) := by
  have hrsv : ps.any pixReserved = true := by simpa using h
  exact if_pos hrsv

theorem exec_setPixels_range {ps : List PixWord} (h : ∀ p ∈ ps, p.rsv = 0)
    (hbad : ∃ p ∈ ps, ¬ pixOk p) :
    exec (.setPixels (.accepted ps)) s = .next (raise .channelRange s) := by
  have hrsv : ¬ ps.any pixReserved = true := by simpa using h
  have hok : (!ps.all validPix) = true := by simpa [← Bool.not_eq_true] using hbad
  exact (if_neg hrsv).trans (if_pos hok)

theorem exec_setPixels_drawn {ps : List PixWord} (h : ∀ p ∈ ps, p.rsv = 0 ∧ pixOk p)
    (hok : nextEvent s = .ok) :
    exec (.setPixels (.accepted ps)) s = .next (putResponse [0x00000000]
      (transacted (drawn s.mem (ps.map pixelOf) s.rot) s)) := by
  rw [exec_setPixels_valid h, writeFrame_of_ok hok]
  rfl

theorem exec_getPixels_shown (hok : nextEvent s = .ok) :
    exec (.getPixels (.accepted ())) s = .next (putResponse
      (0x00400000 :: (shownGrid s.mem s.rot).map pixResult) (transacted s.mem s)) := by
  rw [exec_getPixels_valid, readFrame_of_ok hok, respond_frame (length_toLogical _ _)]
  rfl

/-! ### SET_PIXEL and GET_PIXEL (42_surface.md R126, R127) -/

section Pixel

variable {a : XyWord} {c : PixWord}

theorem coordInRange_eq_false {x y : BitVec 8} (h : 7 < x.toNat ∨ 7 < y.toNat) :
    coordInRange x y = false := by
  rw [← Bool.not_eq_true, coordInRange_iff]
  omega

theorem validPix_eq_false (h : ¬ pixOk c) : validPix c = false := by
  rwa [← Bool.not_eq_true, validPix_iff]

theorem exec_setPixel_reserved (h : a.rsv ≠ 0 ∨ c.rsv ≠ 0) :
    exec (.setPixel (.accepted (a, c))) s = .next (raise .reservedBits s) := by
  have hrsv : (xyReserved a || pixReserved c) = true := by simpa using h
  exact if_pos hrsv

theorem exec_setPixel_coord (ha : a.rsv = 0) (hc : c.rsv = 0) (h : 7 < a.x.toNat ∨ 7 < a.y.toNat) :
    exec (.setPixel (.accepted (a, c))) s = .next (raise .coordRange s) := by
  simp [exec, execSetPixel, ha, hc, coordInRange_eq_false h]

theorem exec_setPixel_range (ha : a.rsv = 0) (hc : c.rsv = 0) (hx : a.x.toNat ≤ 7)
    (hy : a.y.toNat ≤ 7) (hbad : ¬ pixOk c) :
    exec (.setPixel (.accepted (a, c))) s = .next (raise .channelRange s) := by
  have hcoord : coordInRange a.x a.y = true := (coordInRange_iff a.x a.y).2 ⟨hx, hy⟩
  simp [exec, execSetPixel, ha, hc, hcoord, validPix_eq_false hbad]

theorem exec_setPixel_written (ha : a.rsv = 0) (hc : c.rsv = 0) (hx : a.x.toNat ≤ 7)
    (hy : a.y.toNat ≤ 7) (hpix : pixOk c) (hok : nextEvent s = .ok) :
    exec (.setPixel (.accepted (a, c))) s = .next (putResponse [0x00000000] (transacted
      (cellWritten s.mem (offset a.x.toNat a.y.toNat s.rot) (encode565 (pixelOf c))) s)) := by
  rw [exec_setPixel_valid ha hx hy hc hpix, memWrite_of_ok hok]
  rfl

theorem exec_getPixel_reserved (h : a.rsv ≠ 0) :
    exec (.getPixel (.accepted a)) s = .next (raise .reservedBits s) :=
  if_pos ((xyReserved_iff a).2 h)

theorem exec_getPixel_coord (ha : a.rsv = 0) (h : 7 < a.x.toNat ∨ 7 < a.y.toNat) :
    exec (.getPixel (.accepted a)) s = .next (raise .coordRange s) := by
  simp [exec, execGetPixel, ha, coordInRange_eq_false h]

theorem exec_getPixel_shown (ha : a.rsv = 0) (hx : a.x.toNat ≤ 7) (hy : a.y.toNat ≤ 7)
    (hok : nextEvent s = .ok) :
    exec (.getPixel (.accepted a)) s = .next (putResponse
      [0x00010000, pixResult (decode565 (logicalCode s.mem s.rot a.x.toNat a.y.toNat))]
      (transacted s.mem s)) := by
  rw [exec_getPixel_valid ha hx hy, memRead_of_ok hok, respond_singleton, pixelOfBytes_readBytes,
    takeEvent_eq, logicalCode]

end Pixel

/-! ### CLEAR (42_surface.md R132) -/

section Clear

variable {c : PixWord}

theorem exec_clear_reserved (h : c.rsv ≠ 0) :
    exec (.clear (.accepted (some c))) s = .next (raise .reservedBits s) :=
  if_pos ((pixReserved_iff c).2 h)

theorem exec_clear_range (h : c.rsv = 0) (hbad : ¬ pixOk c) :
    exec (.clear (.accepted (some c))) s = .next (raise .channelRange s) := by
  simp [exec, execClear, h, validPix_eq_false hbad]

theorem forall_mem_some_valid (hrsv : c.rsv = 0) (hpix : pixOk c) :
    ∀ p ∈ some c, p.rsv = 0 ∧ pixOk p := by
  rintro _ ⟨⟩
  exact ⟨hrsv, hpix⟩

end Clear

/-- The colour CLEAR fills the frame with: black when none is given. -/
def clearColour (c : Option PixWord) : Pixel := (c.map pixelOf).getD Pixel.black

/-- FB once CLEAR has filled it. -/
def cleared (m : Memory) (c : Option PixWord) (d : Rotation) : Memory :=
  drawn m (List.replicate Config.cells (clearColour c)) d

theorem codeAt_cleared (m : Memory) (c : Option PixWord) (d : Rotation) {p : Nat} (hp : p < 64) :
    codeAt (cleared m c d) p = encode565 (clearColour c) :=
  codeAt_drawn_replicate m (clearColour c) d hp

theorem bytesKept_cleared (m : Memory) (c : Option PixWord) (d : Rotation) :
    bytesKeptOutside 0 128 m (cleared m c d) :=
  bytesKept_drawn m _ d

theorem exec_clear_cleared {c : Option PixWord} (h : ∀ p ∈ c, p.rsv = 0 ∧ pixOk p)
    (hok : nextEvent s = .ok) :
    exec (.clear (.accepted c)) s =
      .next (putResponse [0x00000000] (transacted (cleared s.mem c s.rot) s)) := by
  rw [exec_clear_valid h, writeFrame_of_ok hok]
  rfl

/-! ### Mirrors and flips (42_surface.md R129 to R131) -/

/-- A map of the eight columns, or rows, that undoes itself. -/
def Reflects (f : Nat → Nat) : Prop := ∀ n, n < 8 → f n < 8 ∧ f (f n) = n

theorem reflects_id : Reflects id := fun _ hn => ⟨hn, rfl⟩

theorem reflects_sevenSub : Reflects (7 - ·) := fun n hn =>
  ⟨Nat.lt_succ_of_le (Nat.sub_le 7 n), Nat.sub_sub_self (Nat.le_of_lt_succ hn)⟩

/-- `mirror` puts in each logical cell `(x, y)` of a grid the entry of cell `(col x, row y)`, and undoes
itself. -/
structure Mirrors (mirror : Grid → Grid) (col row : Nat → Nat) : Prop where
  length : ∀ l, (mirror l).length = 64
  cell : ∀ l x y, x < 8 → y < 8 → cellAt (mirror l) (x + 8 * y) = cellAt l (col x + 8 * row y)
  reflectsCol : Reflects col
  reflectsRow : Reflects row

theorem mirrors_flipGridH : Mirrors flipGridH (7 - ·) id where
  length _ := length_gridOf _
  cell l _ _ hx hy := cellAt_gridOf_cell (fun x y => cellAt l (7 - x + 8 * y)) hx hy
  reflectsCol := reflects_sevenSub
  reflectsRow := reflects_id

theorem mirrors_flipGridV : Mirrors flipGridV id (7 - ·) where
  length _ := length_gridOf _
  cell l _ _ hx hy := cellAt_gridOf_cell (fun x y => cellAt l (x + 8 * (7 - y))) hx hy
  reflectsCol := reflects_id
  reflectsRow := reflects_sevenSub

/-- FB once the grid it shows is mirrored and written back. -/
def flipped (mirror : Grid → Grid) (m : Memory) (d : Rotation) : Memory :=
  drawn m (mirror (shownGrid m d)) d

theorem flipFrame_shown {mirror : Grid → Grid} (hlen : ∀ l, (mirror l).length = 64)
    (hok : nextEvent s = .ok) :
    flipFrame mirror false s = putResponse
      (0x00400000 :: (mirror (shownGrid s.mem s.rot)).map pixResult) (transacted s.mem s) := by
  rw [flipFrame, readFrame_of_ok hok]
  exact respond_frame (hlen _)

theorem flipFrame_flipped {mirror : Grid → Grid} (hlen : ∀ l, (mirror l).length = 64)
    (hok : answersOk 2 s) :
    flipFrame mirror true s = putResponse
      (0x00400000 :: (mirror (shownGrid s.mem s.rot)).map pixResult)
      (transacted (flipped mirror s.mem s.rot) (transacted s.mem s)) := by
  obtain ⟨hread, hwrite, -⟩ := hok
  rw [flipFrame, readFrame_of_ok hread]
  exact (writeFrame_of_ok hwrite).trans (respond_frame (hlen _))

namespace Mirrors

variable {mirror : Grid → Grid} {col row : Nat → Nat} {x y : Nat}

theorem cellAt_shownGrid (h : Mirrors mirror col row) (m : Memory) (d : Rotation) (hx : x < 8)
    (hy : y < 8) :
    cellAt (mirror (shownGrid m d)) (x + 8 * y) = decode565 (logicalCode m d (col x) (row y)) := by
  rw [h.cell _ x y hx hy,
    Machine.cellAt_shownGrid m d (h.reflectsCol x hx).1 (h.reflectsRow y hy).1]

/-- A flip moves codes unchanged: decoding loses nothing of a code (40_codec.md R87). -/
theorem logicalCode_flipped (h : Mirrors mirror col row) (m : Memory) (d : Rotation) (hx : x < 8)
    (hy : y < 8) :
    logicalCode (flipped mirror m d) d x y = logicalCode m d (col x) (row y) := by
  rw [flipped, logicalCode_drawn m _ d hx hy, h.cellAt_shownGrid m d hx hy, encode565_decode565]

/-- A second flip undoes the first, byte by byte. -/
theorem read_flipped_flipped (h : Mirrors mirror col row) (m : Memory) (d : Rotation) (a : Nat) :
    (flipped mirror (flipped mirror m d) d).read a = m.read a := by
  have hcodes : ∀ p, p < 64 → codeAt (flipped mirror (flipped mirror m d) d) p = codeAt m p :=
    forall_cell_of_offset d fun x y hx hy => by
      obtain ⟨hcol, hcolcol⟩ := h.reflectsCol x hx
      obtain ⟨hrow, hrowrow⟩ := h.reflectsRow y hy
      calc logicalCode (flipped mirror (flipped mirror m d) d) d x y
          = logicalCode (flipped mirror m d) d (col x) (row y) := h.logicalCode_flipped _ d hx hy
        _ = logicalCode m d (col (col x)) (row (row y)) := h.logicalCode_flipped m d hcol hrow
        _ = logicalCode m d x y := by rw [hcolcol, hrowrow]
  have hout : bytesKeptOutside 0 128 m (flipped mirror (flipped mirror m d) d) := fun b hb =>
    (bytesKept_drawn _ _ d b hb).trans (bytesKept_drawn m _ d b hb)
  exact read_eq_of_codeAt_eq hcodes hout a

/-- What a flip answers and leaves, with and without a redraw. -/
theorem flipFrame_answers (h : Mirrors mirror col row) (hok : answersOk 1 s) :
    ∃ ws, ws.length = 64 ∧
      (∀ x y, x < 8 → y < 8 →
        ws[x + 8 * y]? = some (pixResult (decode565 (logicalCode s.mem s.rot (col x) (row y))))) ∧
      flipFrame mirror false s = putResponse (0x00400000 :: ws) (transacted s.mem s) ∧
      (answersOk 2 s → ∃ m,
        flipFrame mirror true s =
          putResponse (0x00400000 :: ws) (transacted m (transacted s.mem s)) ∧
        (∀ x y, x < 8 → y < 8 →
          logicalCode m s.rot x y = logicalCode s.mem s.rot (col x) (row y)) ∧
        bytesKeptOutside 0 128 s.mem m) := by
  obtain ⟨hread, -⟩ := hok
  refine ⟨(mirror (shownGrid s.mem s.rot)).map pixResult, by simp [h.length], fun x y hx hy => ?_,
    flipFrame_shown h.length hread, fun hok2 => ⟨flipped mirror s.mem s.rot,
      flipFrame_flipped h.length hok2, fun x y hx hy => h.logicalCode_flipped s.mem s.rot hx hy,
      bytesKept_drawn s.mem _ s.rot⟩⟩
  rw [getElem?_map_pixResult (h.length _) (by omega), h.cellAt_shownGrid s.mem s.rot hx hy]

theorem read_flipFrame_twice (h : Mirrors mirror col row) (hok : answersOk 4 s) (a : Nat) :
    (flipFrame mirror true (flipFrame mirror true s)).mem.read a = s.mem.read a := by
  obtain ⟨hread, hwrite, hrest⟩ := hok
  have hfirst := flipFrame_flipped (s := s) h.length ⟨hread, hwrite, trivial⟩
  have hrest' : answersOk 2 (flipFrame mirror true s) := by
    rw [hfirst, answersOk_putResponse_transacted]
    exact hrest
  rw [flipFrame_flipped h.length hrest', hfirst]
  simpa using h.read_flipped_flipped s.mem s.rot a

end Mirrors

end Sys2Proof.Machine
end

section
/-! PROOFS. The statements about the matrix surface (42_surface.md). -/

namespace Sys2Proof.Machine

/-! ### The whole frame -/

/-- Settles O34: by the first check that fails; past them, by what a frame write leaves in a cell. -/
theorem setPixelsWritesFrame : Obligations.SetPixelsWritesFrame := by
  unfold Obligations.SetPixelsWritesFrame
  refine fun s => ⟨fun _ => rfl, fun ps => ⟨exec_setPixels_reserved, exec_setPixels_range,
    fun h _ ⟨hok, _⟩ => ⟨_, exec_setPixels_drawn h hok, fun x y p hx hy hp => ?cell,
      bytesKept_drawn s.mem _ s.rot⟩⟩⟩
  case cell =>
    have hcell : cellAt (ps.map pixelOf) (x + 8 * y) = pixelOf p := by simp [cellAt, hp]
    rw [← hcell]
    exact logicalCode_drawn s.mem _ s.rot hx hy

/-- Settles O35: the words are the grid FB shows. -/
theorem getPixelsReadsFrame : Obligations.GetPixelsReadsFrame := by
  unfold Obligations.GetPixelsReadsFrame
  refine fun s => ⟨fun _ => rfl, fun ⟨hok, _⟩ => ⟨(shownGrid s.mem s.rot).map pixResult,
    exec_getPixels_shown hok, by simp, fun x y hx hy => ?word⟩⟩
  case word =>
    rw [getElem?_map_pixResult (length_shownGrid _ _) (by omega), cellAt_shownGrid _ _ hx hy]

/-- Settles O41: every cell of a cleared frame has the colour's code, and black's is 0. -/
theorem clearFillsFrame : Obligations.ClearFillsFrame := by
  unfold Obligations.ClearFillsFrame
  refine fun s => ⟨fun _ => rfl, fun c => ⟨exec_clear_reserved, exec_clear_range,
    fun hrsv hpix ⟨hok, _⟩ => ?colour⟩, fun ⟨hok, _⟩ => ?black⟩
  case colour =>
    exact ⟨_, exec_clear_cleared (forall_mem_some_valid hrsv hpix) hok,
      fun p hp => codeAt_cleared s.mem (some c) s.rot hp, bytesKept_cleared s.mem (some c) s.rot⟩
  case black =>
    refine ⟨_, exec_clear_cleared nofun hok, fun a ha => read_eq_of_codeAt_half_eq (m := []) ?_,
      bytesKept_cleared s.mem none s.rot⟩
    have hblack : encode565 (clearColour none) = 0 := by decide
    rw [codeAt_cleared s.mem none s.rot (by omega), hblack, codeAt_nil]

/-- Settles O43: all cells hold one code, so the grid shown is one decoded pixel 64 times. -/
theorem clearThenGetPixelsQuantizes : Obligations.ClearThenGetPixelsQuantizes := by
  unfold Obligations.ClearThenGetPixelsQuantizes
  intro s c hrsv hpix ⟨hwrite, hrest⟩ hroom
  have hshown : shownGrid (cleared s.mem (some c) s.rot) s.rot =
      List.replicate 64 (decode565 (encode565 (pixelOf c))) :=
    grid_eq_replicate (length_shownGrid _ _) fun x y hx hy => by
      rw [cellAt_shownGrid _ _ hx hy, logicalCode,
        codeAt_cleared _ _ _ (offset_lt (by omega) (by omega) s.rot)]
      rfl
  obtain ⟨hread, -⟩ := (answersOk_putResponse_transacted [0x00000000]
    (cleared s.mem (some c) s.rot)).2 hrest
  refine ⟨_, _, exec_clear_cleared (forall_mem_some_valid hrsv hpix) hwrite,
    exec_getPixels_shown hread, ?_⟩
  simp [putResponse_rsp, hroom, hshown]

/-! ### One cell -/

/-- Settles O36: by the first check that fails; past them, by what a cell write leaves. -/
theorem setPixelWritesOneCell : Obligations.SetPixelWritesOneCell := by
  unfold Obligations.SetPixelWritesOneCell
  exact fun s => ⟨fun _ => rfl, fun a c => ⟨exec_setPixel_reserved, exec_setPixel_coord,
    exec_setPixel_range, fun ha hc hx hy hpix ⟨hok, _⟩ =>
      ⟨_, exec_setPixel_written ha hc hx hy hpix hok, read_cellWritten_low _ _ _,
        read_cellWritten_high _ _ _, bytesKept_cellWritten _ _ _⟩⟩⟩

/-- Settles O37: by the first check that fails. -/
theorem getPixelReadsOneCell : Obligations.GetPixelReadsOneCell := by
  unfold Obligations.GetPixelReadsOneCell
  exact fun s => ⟨fun _ => rfl, fun a => ⟨exec_getPixel_reserved, exec_getPixel_coord,
    fun ha hx hy ⟨hok, _⟩ => exec_getPixel_shown ha hx hy hok⟩⟩

/-- Settles O42: the cell read is the one written, since neither command changes ROT. -/
theorem setThenGetPixelQuantizes : Obligations.SetThenGetPixelQuantizes := by
  unfold Obligations.SetThenGetPixelQuantizes
  intro s a c ha hx hy hc hpix ⟨hwrite, hrest⟩ hroom
  obtain ⟨hread, -⟩ := (answersOk_putResponse_transacted [0x00000000]
    (cellWritten s.mem (offset a.x.toNat a.y.toNat s.rot) (encode565 (pixelOf c)))).2 hrest
  refine ⟨_, _, exec_setPixel_written ha hc hx hy hpix hwrite, exec_getPixel_shown ha hx hy hread,
    ?answer, fun p hp => ?others⟩
  case answer => simp [putResponse_rsp, hroom, logicalCode, codeAt_cellWritten_same]
  case others => simpa using codeAt_cellWritten_ne s.mem _ _ hp

/-! ### Flips -/

/-- Settles O38. -/
theorem flipHMirrorsEachRow : Obligations.FlipHMirrorsEachRow := by
  unfold Obligations.FlipHMirrorsEachRow
  simp only [exec_flipH_valid, Host.Outcome.next.injEq]
  exact fun s => ⟨fun _ _ => rfl, mirrors_flipGridH.flipFrame_answers⟩

/-- Settles O39. -/
theorem flipVReversesRowOrder : Obligations.FlipVReversesRowOrder := by
  unfold Obligations.FlipVReversesRowOrder
  simp only [exec_flipV_valid, Host.Outcome.next.injEq]
  exact fun s => ⟨fun _ _ => rfl, mirrors_flipGridV.flipFrame_answers⟩

/-- Settles O40: both mirrors undo themselves. -/
theorem flipTwiceRestoresFrame : Obligations.FlipTwiceRestoresFrame := by
  unfold Obligations.FlipTwiceRestoresFrame
  exact fun s hok =>
    ⟨⟨_, _, exec_flipH_valid true s, exec_flipH_valid true _,
        mirrors_flipGridH.read_flipFrame_twice hok⟩,
      ⟨_, _, exec_flipV_valid true s, exec_flipV_valid true _,
        mirrors_flipGridV.read_flipFrame_twice hok⟩⟩

end Sys2Proof.Machine
end

section
/-! PROOFS. The errors of a load in their order and the load past them, what GLYPH and GLYPH_TRIM
answer from one lookup, and the rows a trim keeps: the rules the statements about 43_glyph.md are proved
from. -/

namespace Sys2Proof.Machine

variable {s : State}

/-! ### The asset errors in order (43_glyph.md R162 to R164, 60_exceptions.md R259 step 9) -/

/-! Each check is reached once the ones before it have passed: its lemma takes what they found. -/

section FontError

variable {cap : Nat} {f : FontOperands}

theorem fontError_fontLocked (h : s.fontLoaded = true) : fontError cap f s = some .fontLocked :=
  if_pos h

variable (hunlocked : s.fontLoaded = false)
include hunlocked

theorem fontError_atlasChannel (h : ∃ p ∈ f.atlas, ¬ pixOk p) :
    fontError cap f s = some .atlasChannel := by
  have hbad : ¬ f.atlas.all validPix = true := by simpa using h
  simp [fontError, hunlocked, hbad]

variable (hpix : ∀ p ∈ f.atlas, pixOk p)
include hpix

/-- The checks that are left once the store is unlocked and the atlas pixels are in range. -/
theorem fontError_of_validAtlas :
    fontError cap f s =
      if f.atlas.length % 40 ≠ 0 then some .atlasNotMultiple
      else if f.atlas.length < 40 * f.order.length then some .atlasTooShort
      else if fallbackKey ∉ keysOf f.order then some .noFallback
      else if cap < (keysOf f.order).toFinset.card then some .capacity
      else none := by
  have hvalid : f.atlas.all validPix = true := by simpa using hpix
  simp [fontError, hunlocked, hvalid, countDistinct_eq_card]

theorem fontError_atlasNotMultiple (h : f.atlas.length % 40 ≠ 0) :
    fontError cap f s = some .atlasNotMultiple := by
  rw [fontError_of_validAtlas hunlocked hpix, if_pos h]

variable (hblocks : f.atlas.length % 40 = 0)
include hblocks

theorem fontError_atlasTooShort (h : f.atlas.length < 40 * f.order.length) :
    fontError cap f s = some .atlasTooShort := by
  rw [fontError_of_validAtlas hunlocked hpix, if_neg (not_not.2 hblocks), if_pos h]

variable (hlong : 40 * f.order.length ≤ f.atlas.length)
include hlong

theorem fontError_noFallback (h : fallbackKey ∉ keysOf f.order) :
    fontError cap f s = some .noFallback := by
  rw [fontError_of_validAtlas hunlocked hpix, if_neg (not_not.2 hblocks), if_neg (not_lt.2 hlong),
    if_pos h]

variable (hfallback : fallbackKey ∈ keysOf f.order)
include hfallback

theorem fontError_capacity (h : cap < (keysOf f.order).toFinset.card) :
    fontError cap f s = some .capacity := by
  rw [fontError_of_validAtlas hunlocked hpix, if_neg (not_not.2 hblocks), if_neg (not_lt.2 hlong),
    if_neg (not_not.2 hfallback), if_pos h]

theorem fontError_none (h : (keysOf f.order).toFinset.card ≤ cap) : fontError cap f s = none := by
  rw [fontError_of_validAtlas hunlocked hpix, if_neg (not_not.2 hblocks), if_neg (not_lt.2 hlong),
    if_neg (not_not.2 hfallback), if_neg (not_lt.2 h)]

end FontError

/-! ### LOAD_FONT (43_glyph.md R160) -/

section LoadFont

variable {cap : Nat} {f : FontOperands}

theorem loadFontIn_reserved (h : (∃ p ∈ f.atlas, p.rsv ≠ 0) ∨ ∃ c ∈ f.order, c.rsv ≠ 0) :
    loadFontIn cap f s = raise .reservedBits s := by
  have hrsv : (f.atlas.any pixReserved || f.order.any charReserved) = true := by simpa using h
  exact if_pos hrsv

variable (hatlas : ∀ p ∈ f.atlas, p.rsv = 0) (horder : ∀ c ∈ f.order, c.rsv = 0)
include hatlas horder

theorem not_fontReserved : ¬ (f.atlas.any pixReserved || f.order.any charReserved) = true := by
  simpa using ⟨hatlas, horder⟩

theorem loadFontIn_error {e : ErrorCause} (h : fontError cap f s = some e) :
    loadFontIn cap f s = raise e s := by
  rw [loadFontIn, if_neg (not_fontReserved hatlas horder), h]

theorem loadFontIn_loaded (h : fontError cap f s = none) :
    loadFontIn cap f s = putResponse [0x00000000] { s with
      glyphs := storeBlocks [] (f.atlas.map pixelOf) (keysOf f.order)
      fontLoaded := true } := by
  rw [loadFontIn, if_neg (not_fontReserved hatlas horder), h]
  rfl

end LoadFont

/-! ### Lookup (43_glyph.md R165) -/

theorem lookup_of_find {m : GlyphMap} {k : Key} {g : Glyph} (h : m.find k = some g) :
    lookup m [k] = g := by
  simp [lookup, h]

/-- A string that is not one stored key looks up `?`. -/
theorem lookup_fallback {m : GlyphMap} {ks : List Key} {g : Glyph}
    (hks : ∀ k, ks = [k] → m.find k = none) (hg : m.find fallbackKey = some g) :
    lookup m ks = g := by
  unfold lookup
  split
  · next k => simp [hks k rfl, hg]
  · simp [hg]

/-! ### GLYPH and GLYPH_TRIM (43_glyph.md R166, R168) -/

/-- A command that looks a string up and answers words made of the glyph found. -/
def glyphQuery (answer : Glyph → List Word) (cs : List CharWord) (s : State) : Out :=
  if cs.any charReserved then .next (raise .reservedBits s)
  else if !s.fontLoaded then .next (raise .noFont s)
  else .next (respond (answer (lookup s.glyphs (keysOf cs))) s)

/-- What GLYPH_TRIM answers of a glyph: the trimmed height and its pixels. -/
def trimWords (g : Glyph) : List Word := natResult (trimHeight g) :: (trimPixels g).map pixResult

theorem exec_glyph_eq (cs : List CharWord) (s : State) :
    exec (.glyph cs) s = glyphQuery (List.map pixResult) cs s := rfl

theorem exec_glyphTrim_eq (cs : List CharWord) (s : State) :
    exec (.glyphTrim cs) s = glyphQuery trimWords cs s := rfl

section GlyphQuery

variable {answer : Glyph → List Word} {cs : List CharWord}

theorem glyphQuery_reserved (h : ∃ c ∈ cs, c.rsv ≠ 0) :
    glyphQuery answer cs s = .next (raise .reservedBits s) := by
  have hrsv : cs.any charReserved = true := by simpa using h
  exact if_pos hrsv

theorem glyphQuery_noFont (h : ∀ c ∈ cs, c.rsv = 0) (hf : s.fontLoaded = false) :
    glyphQuery answer cs s = .next (raise .noFont s) := by
  have hrsv : ¬ cs.any charReserved = true := by simpa using h
  rw [glyphQuery, if_neg hrsv, hf]
  rfl

theorem glyphQuery_loaded (h : ∀ c ∈ cs, c.rsv = 0) (hf : s.fontLoaded = true) :
    glyphQuery answer cs s = .next (respond (answer (lookup s.glyphs (keysOf cs))) s) := by
  have hrsv : ¬ cs.any charReserved = true := by simpa using h
  rw [glyphQuery, if_neg hrsv, hf]
  rfl

end GlyphQuery

/-- A response of a glyph: status OK, `RLEN` 40, and one PIX word for each pixel (30_encoding.md R79). -/
theorem respond_glyph {g : Glyph} (hg : g.length = 40) :
    respond (g.map pixResult) s = putResponse (0x00280000 :: g.map pixResult) s := by
  rw [respond_map, hg]
  rfl

/-- A response of a trimmed glyph: status OK, `RLEN` `1 + 8h`, the height `h` and `8h` PIX words. -/
theorem respond_trimWords {g : Glyph} (hg : g.length = 40) :
    respond (trimWords g) s = putResponse ((BitVec.ofNat 16 (1 + 8 * trimHeight g) ++ 0#16) ::
      BitVec.ofNat 32 (trimHeight g) :: (trimPixels g).map pixResult) s := by
  have hlen : (trimWords g).length = 1 + 8 * trimHeight g := by
    rw [trimWords, List.length_cons, List.length_map, length_trimPixels hg, Nat.add_comm]
  rw [respond_eq, okStatus_eq, hlen]
  rfl

/-! ### The rows a trim keeps (43_glyph.md R167) -/

/-- Row `r` of a glyph has a pixel that is not black. -/
def LitRow (g : Glyph) (r : Nat) : Prop :=
  ∃ c, c < 8 ∧ ∃ p, g[8 * r + c]? = some p ∧ p ≠ Pixel.black

theorem Pixel.channels_eq_zero_iff (p : Pixel) :
    p.r.toNat + p.g.toNat + p.b.toNat = 0 ↔ p = Pixel.black := by
  obtain ⟨r, g, b⟩ := p
  simp [Pixel.black, ← BitVec.toNat_inj, and_assoc]

/-- A line's channels add up to 0 only if all its pixels are black. -/
theorem channelSum_eq_zero_iff (l : Line) : channelSum l = 0 ↔ ∀ p ∈ l, p = Pixel.black := by
  simp only [channelSum, List.sum_eq_zero_iff, List.forall_mem_map, Pixel.channels_eq_zero_iff]

theorem mem_glyphRow_iff {g : Glyph} {r : Nat} {p : Pixel} :
    p ∈ glyphRow g r ↔ ∃ c, c < 8 ∧ g[8 * r + c]? = some p := by
  simp only [glyphRow, List.mem_iff_getElem?, List.getElem?_take, List.getElem?_drop]
  simp

theorem litRow_iff_channelSum (g : Glyph) (r : Nat) :
    LitRow g r ↔ channelSum (glyphRow g r) ≠ 0 := by
  rw [ne_eq, channelSum_eq_zero_iff]
  push Not
  simp only [mem_glyphRow_iff, LitRow]
  constructor
  · rintro ⟨c, hc, p, hp, hne⟩
    exact ⟨p, ⟨c, hc, hp⟩, hne⟩
  · rintro ⟨p, ⟨c, hc, hp⟩, hne⟩
    exact ⟨c, hc, p, hp, hne⟩

theorem mem_litRows_iff {g : Glyph} {r : Nat} : r ∈ litRows g ↔ r < 5 ∧ LitRow g r := by
  simp [litRows, litRow_iff_channelSum]

theorem trimSpan_of_black {g : Glyph} (h : ∀ r, r < 5 → ¬ LitRow g r) : trimSpan g = (0, 0) := by
  obtain ⟨-, hspan⟩ | ⟨a, -, ha, -⟩ := trimSpan_cases g
  · exact hspan
  · obtain ⟨ha5, halit⟩ := mem_litRows_iff.1 ha
    exact absurd halit (h a ha5)

/-- The span is the one from the first lit row to the last: both ends are lit, and no row outside is. -/
theorem trimSpan_of_ends {g : Glyph} {first last : Nat} (hlast : last < 5) (hf : LitRow g first)
    (hl : LitRow g last) (hbefore : ∀ r, r < first → ¬ LitRow g r)
    (hafter : ∀ r, last < r → r < 5 → ¬ LitRow g r) :
    trimSpan g = (first, last - first + 1) := by
  have hle : first ≤ last := not_lt.1 fun h => hbefore last h hl
  have hfmem : first ∈ litRows g := mem_litRows_iff.2 ⟨by omega, hf⟩
  have hlmem : last ∈ litRows g := mem_litRows_iff.2 ⟨hlast, hl⟩
  obtain ⟨hnil, -⟩ | ⟨a, b, ha, hb, hbounds, hspan⟩ := trimSpan_cases g
  · simp [hnil] at hfmem
  · obtain ⟨ha5, halit⟩ := mem_litRows_iff.1 ha
    obtain ⟨hb5, hblit⟩ := mem_litRows_iff.1 hb
    have haf : a = first :=
      le_antisymm (hbounds first hfmem).1 (not_lt.1 fun h => hbefore a h halit)
    have hbl : b = last :=
      le_antisymm (not_lt.1 fun h => hafter b h hb5 hblit) (hbounds last hlmem).2
    rw [hspan, haf, hbl]

theorem trimHeight_le (g : Glyph) : trimHeight g ≤ 5 :=
  (Nat.le_add_left _ _).trans (trimSpan_le g)

theorem getElem?_trimPixels {g : Glyph} {j : Nat} (hj : j < 8 * trimHeight g) :
    (trimPixels g)[j]? = g[8 * (trimSpan g).1 + j]? :=
  (List.getElem?_take_of_lt hj).trans List.getElem?_drop

end Sys2Proof.Machine
end

section
/-! PROOFS. The statements about the glyph store (43_glyph.md). -/

namespace Sys2Proof.Machine

/-! ### Loading -/

/-- Settles O48: past every check a load stores its blocks from an empty store, the last one of a key
over the ones before. -/
theorem loadFontStoresBlocks : Obligations.LoadFontStoresBlocks := by
  unfold Obligations.LoadFontStoresBlocks
  intro s f hunlocked hatlas horder hblocks hlong hfallback hcap
  have hnone : fontError Config.glyphCap f s = none :=
    fontError_none hunlocked (fun p hp => (hatlas p hp).2) hblocks hlong hfallback hcap
  refine ⟨storeBlocks [] (f.atlas.map pixelOf) (keysOf f.order), ?loaded,
    fun n k hn hlast => find_storeBlocks_last [] _ hn hlast,
    fun k hk => find_storeBlocks_of_notMem [] _ hk⟩
  case loaded =>
    exact congrArg Host.Outcome.next
      (loadFontIn_loaded (fun p hp => (hatlas p hp).1) horder hnone)

/-- Settles O49: by the first check that fails. -/
theorem loadFontErrorsInOrder : Obligations.LoadFontErrorsInOrder := by
  unfold Obligations.LoadFontErrorsInOrder
  refine fun s => ⟨fun _ => rfl, fun f => ⟨rfl, fun cap => ⟨loadFontIn_reserved,
    fun hatlas horder => ?unreserved⟩⟩⟩
  case unreserved =>
    have answer {e : ErrorCause} (he : fontError cap f s = some e) :
        loadFontIn cap f s = raise e s := loadFontIn_error hatlas horder he
    exact ⟨fun hlocked => answer (fontError_fontLocked hlocked), fun hunlocked =>
      ⟨fun hbad => answer (fontError_atlasChannel hunlocked hbad), fun hpix =>
      ⟨fun hmultiple => answer (fontError_atlasNotMultiple hunlocked hpix hmultiple), fun hblocks =>
      ⟨fun hshort => answer (fontError_atlasTooShort hunlocked hpix hblocks hshort), fun hlong =>
      ⟨fun hmissing => answer (fontError_noFallback hunlocked hpix hblocks hlong hmissing),
        fun hfallback hcap =>
          answer (fontError_capacity hunlocked hpix hblocks hlong hfallback hcap)⟩⟩⟩⟩⟩

/-! ### Looking up -/

/-- Settles O50: by the first check that fails; past them, by what the string looks up. -/
theorem glyphAnswersLookup : Obligations.GlyphAnswersLookup := by
  unfold Obligations.GlyphAnswersLookup
  simp only [exec_glyph_eq]
  refine fun s cs => ⟨glyphQuery_reserved, fun hrsv => ⟨glyphQuery_noFont hrsv,
    fun g hloaded hinv hfound => ?found⟩⟩
  case found =>
    have hlookup : lookup s.glyphs (keysOf cs) = g := by
      obtain ⟨k, hk, hg⟩ | ⟨hunknown, hg⟩ := hfound
      · rw [hk, lookup_of_find hg]
      · exact lookup_fallback hunknown hg
    have hlen : g.length = 40 := hlookup ▸ length_lookup hinv.glyphsCanonical (keysOf cs)
    exact ⟨hlen, by rw [glyphQuery_loaded hrsv hloaded, hlookup, respond_glyph hlen]⟩

/-! ### Trimming -/

/-- Settles O51: the rows whose channels do not add up to 0 are the ones with a lit pixel. -/
theorem trimDropsOnlyBlackEnds : Obligations.TrimDropsOnlyBlackEnds := by
  unfold Obligations.TrimDropsOnlyBlackEnds
  refine fun g hg => ⟨fun hblack => ?allBlack, fun first last hlast hf hl hbefore hafter => ?ends⟩
  case allBlack =>
    have hspan := trimSpan_of_black hblack
    exact ⟨by rw [trimHeight, hspan], by simp [trimPixels, hspan]⟩
  case ends =>
    have hspan := trimSpan_of_ends hlast hf hl hbefore hafter
    have hheight : trimHeight g = last - first + 1 := by rw [trimHeight, hspan]
    refine ⟨hheight, by rw [length_trimPixels hg, hheight], fun j hj => ?_⟩
    rw [getElem?_trimPixels (hheight ▸ hj), hspan]

/-- Settles O52: by the first check that fails; past them, by the size of a trimmed glyph. -/
theorem glyphTrimAnswersTrimmedRows : Obligations.GlyphTrimAnswersTrimmedRows := by
  unfold Obligations.GlyphTrimAnswersTrimmedRows
  simp only [exec_glyphTrim_eq]
  refine fun s cs => ⟨glyphQuery_reserved, fun hrsv => ⟨glyphQuery_noFont hrsv,
    fun g hloaded hinv hlookup => ?found⟩⟩
  case found =>
    have hlen : g.length = 40 := hlookup ▸ length_lookup hinv.glyphsCanonical (keysOf cs)
    exact ⟨length_trimPixels hlen, trimHeight_le g,
      by rw [glyphQuery_loaded hrsv hloaded, hlookup, respond_trimWords hlen]⟩

end Sys2Proof.Machine
end

section
/-! PROOFS. The checks of the two text commands, what a recoloured grid, a strip and a window hold, and
what one window of a scroll does: the rules the statements about 44_text.md are proved from. -/

namespace Sys2Proof.Machine

variable {s t : State} {c : Scroll}

/-! ### The checks of a text command (44_text.md R204) -/

section Checks

variable {text back : PixWord} {cs : List CharWord} {o : Out}

theorem textReserved_iff : (pixReserved text || pixReserved back || cs.any charReserved) = true ↔
    ¬ textUnreserved text back cs := by
  simp only [Bool.or_eq_true, pixReserved_iff, List.any_eq_true, charReserved_iff, textUnreserved,
    not_and_or, not_forall, exists_prop, or_assoc, ne_eq]

theorem coloursInvalid_iff : (!(validPix text && validPix back)) = true ↔
    ¬ (pixOk text ∧ pixOk back) := by
  rw [Bool.not_eq_true', ← Bool.not_eq_true, Bool.and_eq_true, validPix_iff, validPix_iff]

/-- What both text commands check first of their operands; `o` is the rest of the command. -/
def textChecked (text back : PixWord) (cs : List CharWord) (s : State) (o : Out) : Out :=
  if pixReserved text || pixReserved back || cs.any charReserved then .next (raise .reservedBits s)
  else if !(validPix text && validPix back) then .next (raise .channelRange s)
  else o

theorem textChecked_reserved (h : ¬ textUnreserved text back cs) :
    textChecked text back cs s o = .next (raise .reservedBits s) :=
  if_pos (textReserved_iff.2 h)

theorem textChecked_of_unreserved (h : textUnreserved text back cs) :
    textChecked text back cs s o =
      if !(validPix text && validPix back) then .next (raise .channelRange s) else o :=
  if_neg fun hrsv => textReserved_iff.1 hrsv h

theorem textChecked_range (h : textUnreserved text back cs) (hbad : ¬ (pixOk text ∧ pixOk back)) :
    textChecked text back cs s o = .next (raise .channelRange s) :=
  (textChecked_of_unreserved h).trans (if_pos (coloursInvalid_iff.2 hbad))

theorem textChecked_passed (h : textUnreserved text back cs) (ht : pixOk text) (hb : pixOk back) :
    textChecked text back cs s o = o :=
  (textChecked_of_unreserved h).trans (if_neg fun hbad => coloursInvalid_iff.1 hbad ⟨ht, hb⟩)

end Checks

/-! ### The effective rotation (44_text.md R200) -/

theorem deg_effRotation (d : Rotation) : (effRotation d).deg = (d.deg + 270) % 360 := by
  cases d <;> rfl

theorem Rotation.deg_injective : Function.Injective Rotation.deg := by
  intro d e
  cases d <;> cases e <;> decide

theorem eq_effRotation {d e : Rotation} (h : e.deg = (d.deg + 270) % 360) : e = effRotation d :=
  Rotation.deg_injective (h.trans (deg_effRotation d).symm)

/-! ### Recolouring and the letter (44_text.md R202, R203) -/

theorem cellAt_map (f : Pixel → Pixel) {g : Grid} (hg : g.length = 64) {i : Nat} (hi : i < 64) :
    cellAt (g.map f) i = f (cellAt g i) := by
  simp [cellAt, List.getD, hg, hi]

theorem recolor_black (text back : Pixel) : recolor text back Pixel.black = back :=
  if_neg (by decide)

/-- A pixel looked for outside a glyph counts as black, so never as white. -/
theorem getD_eq_white_iff {g : Glyph} {i : Nat} :
    g.getD i Pixel.black = Pixel.white ↔ g[i]? = some Pixel.white := by
  rw [List.getD_eq_getElem?_getD]
  cases g[i]? with
  | none => simp [Pixel.black, Pixel.white]
  | some p => simp

theorem cellAt_letterFrame (g : Glyph) {x y : Nat} (hx : x < 8) (hy : y < 8) :
    cellAt (letterFrame g) (x + 8 * y) =
      if 1 ≤ y ∧ y ≤ 5 then g.getD (x + 8 * (y - 1)) Pixel.black else Pixel.black :=
  cellAt_gridOf_cell (fun x y =>
    if 1 ≤ y ∧ y ≤ 5 then g.getD (x + 8 * (y - 1)) Pixel.black else Pixel.black) hx hy

/-- A letter's cell is white where its glyph is, on the five rows it stands on (44_text.md R203). -/
theorem cellAt_letterFrame_eq_white_iff (g : Glyph) {x y : Nat} (hx : x < 8) (hy : y < 8) :
    cellAt (letterFrame g) (x + 8 * y) = Pixel.white ↔
      1 ≤ y ∧ y ≤ 5 ∧ g[x + 8 * (y - 1)]? = some Pixel.white := by
  rw [cellAt_letterFrame g hx hy, ← getD_eq_white_iff, ← and_assoc]
  split
  · next hrow => simp [hrow]
  · next hrow => simp [hrow, Pixel.black, Pixel.white]

theorem cellAt_letterGrid (a : LetterOperands) (s : State) {x y : Nat} (hx : x < 8) (hy : y < 8) :
    cellAt (letterGrid a s) (x + 8 * y) =
      if 1 ≤ y ∧ y ≤ 5 ∧ (lookup s.glyphs (keysOf a.chars))[x + 8 * (y - 1)]? = some Pixel.white
      then pixelOf a.text else pixelOf a.back := by
  have hg : (letterFrame (lookup s.glyphs (keysOf a.chars))).length = 64 := length_gridOf _
  rw [letterGrid, cellAt_map _ hg (by omega), recolor]
  simp only [cellAt_letterFrame_eq_white_iff _ hx hy]

/-! ### SHOW_LETTER (44_text.md R210) -/

section ShowLetter

variable {a : LetterOperands}

theorem exec_showLetter_checked (a : LetterOperands) (s : State) :
    exec (.showLetter (.accepted a)) s = textChecked a.text a.back a.chars s
      (if 2 ≤ a.chars.length then .next (raise .textLength s)
      else if !s.fontLoaded then .next (raise .noFont s)
      else onDevice 0 Config.fbBytes
        (writeFrame (letterGrid a s) (effRotation s.rot) s (respond []))) := rfl

theorem exec_showLetter_reserved (h : ¬ textUnreserved a.text a.back a.chars) :
    exec (.showLetter (.accepted a)) s = .next (raise .reservedBits s) :=
  textChecked_reserved h

variable (hrsv : textUnreserved a.text a.back a.chars)
include hrsv

theorem exec_showLetter_range (h : ¬ (pixOk a.text ∧ pixOk a.back)) :
    exec (.showLetter (.accepted a)) s = .next (raise .channelRange s) :=
  textChecked_range hrsv h

variable (ht : pixOk a.text) (hb : pixOk a.back)
include ht hb

theorem exec_showLetter_length (h : 2 ≤ a.chars.length) :
    exec (.showLetter (.accepted a)) s = .next (raise .textLength s) := by
  rw [exec_showLetter_checked, textChecked_passed hrsv ht hb, if_pos h]

variable (hl : a.chars.length ≤ 1)
include hl

theorem exec_showLetter_noFont (h : s.fontLoaded = false) :
    exec (.showLetter (.accepted a)) s = .next (raise .noFont s) := by
  rw [exec_showLetter_checked, textChecked_passed hrsv ht hb, if_neg (by omega), h]
  rfl

theorem exec_showLetter_drawn (hf : s.fontLoaded = true) (hok : nextEvent s = .ok) :
    exec (.showLetter (.accepted a)) s = .next (putResponse [0x00000000]
      (transacted (drawn s.mem (letterGrid a s) (effRotation s.rot)) s)) := by
  rw [exec_showLetter_valid hrsv ht hb hl hf, writeFrame_of_ok hok]
  rfl

end ShowLetter

/-! ### SHOW_MESSAGE (44_text.md R211) -/

section ShowMessage

variable {a : MessageOperands}

theorem exec_showMessage_checked (a : MessageOperands) (s : State) :
    exec (.showMessage (.accepted a)) s = textChecked a.text a.back a.chars s
      (if !s.fontLoaded then .next (raise .noFont s)
      else .next { s with ctl := .scrolling (startScroll a s) }) := rfl

theorem exec_showMessage_reserved (h : ¬ textUnreserved a.text a.back a.chars) :
    exec (.showMessage (.accepted a)) s = .next (raise .reservedBits s) :=
  textChecked_reserved h

variable (hrsv : textUnreserved a.text a.back a.chars)
include hrsv

theorem exec_showMessage_range (h : ¬ (pixOk a.text ∧ pixOk a.back)) :
    exec (.showMessage (.accepted a)) s = .next (raise .channelRange s) :=
  textChecked_range hrsv h

variable (ht : pixOk a.text) (hb : pixOk a.back)
include ht hb

theorem exec_showMessage_noFont (h : s.fontLoaded = false) :
    exec (.showMessage (.accepted a)) s = .next (raise .noFont s) := by
  rw [exec_showMessage_checked, textChecked_passed hrsv ht hb, h]
  rfl

theorem exec_showMessage_started (h : s.fontLoaded = true) :
    exec (.showMessage (.accepted a)) s =
      .next { s with ctl := .scrolling (startScroll a s) } := by
  rw [exec_showMessage_checked, textChecked_passed hrsv ht hb, h]
  rfl

end ShowMessage

/-! ### The strip (44_text.md R205) -/

section Strip

variable {m : GlyphMap}

theorem length_stripOf (m : GlyphMap) (ks : List Key) :
    (stripOf m ks).length = 16 + (ks.map fun k => trimHeight (lookup m [k]) + 1).sum := by
  simp only [stripOf, List.length_append, List.length_replicate, List.length_flatMap,
    length_charLines]
  omega

theorem drop_stripOf (m : GlyphMap) (ks : List Key) :
    (stripOf m ks).drop 8 = ks.flatMap (charLines m) ++ List.replicate 8 blankLine :=
  List.drop_left' List.length_replicate

/-- The first character's lines stand between the blank block and the strip of the others. -/
theorem stripOf_cons (m : GlyphMap) (k : Key) (ks : List Key) :
    stripOf m (k :: ks) = List.replicate 8 blankLine ++
      (glyphLines (lookup m [k]) ++ blankLine :: (stripOf m ks).drop 8) := by
  rw [drop_stripOf]
  simp [stripOf, charLines]

theorem getElem?_stripOf_start (m : GlyphMap) (ks : List Key) {i : Nat} (hi : i < 8) :
    (stripOf m ks)[i]? = some blankLine := by
  rw [stripOf, List.getElem?_append_left (by simpa using hi), List.getElem?_replicate, if_pos hi]

/-- The last nine lines of a strip are blank: the end block, and before it the blank line of the last
character or, with no character, a line of the first block. -/
theorem exists_stripOf_eq_append_blank (m : GlyphMap) (ks : List Key) :
    ∃ ls, stripOf m ks = ls ++ List.replicate 9 blankLine := by
  obtain rfl | ⟨ks, k, rfl⟩ := List.eq_nil_or_concat' ks
  · exact ⟨List.replicate 7 blankLine, rfl⟩
  · refine ⟨List.replicate 8 blankLine ++
      (ks.flatMap (charLines m) ++ glyphLines (lookup m [k])), ?_⟩
    simp [stripOf, charLines, List.replicate_succ]

theorem getElem?_stripOf_end (m : GlyphMap) (ks : List Key) {i : Nat}
    (hi : (stripOf m ks).length ≤ i + 9) (hlt : i < (stripOf m ks).length) :
    (stripOf m ks)[i]? = some blankLine := by
  obtain ⟨ls, h⟩ := exists_stripOf_eq_append_blank m ks
  rw [h, List.length_append, List.length_replicate] at hi hlt
  rw [h, List.getElem?_append_right (by omega), List.getElem?_replicate, if_pos (by omega)]

theorem getElem?_glyphRow (g : Glyph) (r : Nat) {i : Nat} (hi : i < 8) :
    (glyphRow g r)[i]? = g[8 * r + i]? :=
  (List.getElem?_take_of_lt hi).trans List.getElem?_drop

theorem getElem?_glyphLines {g : Glyph} {r : Nat} (hr : r < trimHeight g) :
    (glyphLines g)[r]? = some (glyphRow (trimPixels g) r) := by
  simp [glyphLines, hr]

theorem length_glyphLines (g : Glyph) : (glyphLines g).length = trimHeight g := by simp [glyphLines]

variable (m) (k : Key) (ks : List Key)

theorem getElem?_stripOf_cons_glyph {r : Nat} (hr : r < trimHeight (lookup m [k])) :
    (stripOf m (k :: ks))[8 + r]? = some (glyphRow (trimPixels (lookup m [k])) r) := by
  rw [stripOf_cons, List.getElem?_append_right (by simp), List.length_replicate,
    Nat.add_sub_cancel_left, List.getElem?_append_left (by rwa [length_glyphLines]),
    getElem?_glyphLines hr]

theorem getElem?_stripOf_cons_blank :
    (stripOf m (k :: ks))[8 + trimHeight (lookup m [k])]? = some blankLine := by
  rw [stripOf_cons, List.getElem?_append_right (by simp), List.length_replicate,
    Nat.add_sub_cancel_left, ← length_glyphLines, List.getElem?_append_right le_rfl, Nat.sub_self]
  rfl

theorem drop_stripOf_cons :
    (stripOf m (k :: ks)).drop (8 + trimHeight (lookup m [k]) + 1) = (stripOf m ks).drop 8 := by
  rw [stripOf_cons, ← length_glyphLines, ← List.drop_drop, ← List.drop_drop,
    List.drop_left' List.length_replicate, List.drop_left]
  rfl

end Strip

/-! ### Windows (44_text.md R206) -/

section Window

variable {strip : List Line} {i x y : Nat}

theorem length_windowOf (strip : List Line) (i : Nat) : (windowOf strip i).length = 64 :=
  length_gridOf _

theorem cellAt_windowOf (strip : List Line) (i : Nat) (hx : x < 8) (hy : y < 8) :
    cellAt (windowOf strip i) (x + 8 * y) = (strip.getD (i + y) []).getD x Pixel.black :=
  cellAt_gridOf_cell (fun x y => (strip.getD (i + y) []).getD x Pixel.black) hx hy

theorem getElem?_windowOf (strip : List Line) (i : Nat) (hx : x < 8) (hy : y < 8) :
    (windowOf strip i)[x + 8 * y]? = some ((strip.getD (i + y) []).getD x Pixel.black) := by
  rw [getElem?_of_length (length_windowOf strip i) (by omega), cellAt_windowOf strip i hx hy]

/-- Row `y` of window `i` is line `i + y`. -/
theorem cellAt_windowOf_of_line {q : Pixel} (hx : x < 8) (hy : y < 8)
    (h : (strip[i + y]?).bind (·[x]?) = some q) : cellAt (windowOf strip i) (x + 8 * y) = q := by
  obtain ⟨l, hl, hq⟩ := Option.bind_eq_some_iff.1 h
  simp [cellAt_windowOf strip i hx hy, List.getD, hl, hq]

/-- A window of blank lines is black. -/
theorem windowOf_eq_black (h : ∀ y, y < 8 → strip[i + y]? = some blankLine) :
    windowOf strip i = List.replicate 64 Pixel.black :=
  grid_eq_replicate (length_windowOf strip i) fun x y hx hy =>
    cellAt_windowOf_of_line hx hy (by simp [h y hy, blankLine, hx])

/-- The last window of a strip is black. -/
theorem windowOf_stripOf_last (m : GlyphMap) (ks : List Key) :
    windowOf (stripOf m ks) ((stripOf m ks).length - 9) = List.replicate 64 Pixel.black := by
  have hlen := length_stripOf m ks
  exact windowOf_eq_black fun y hy => getElem?_stripOf_end m ks (by omega) (by omega)

theorem cellAt_scrollFrame_of_line {q : Pixel} (hx : x < 8) (hy : y < 8)
    (h : (c.strip[c.window + y]?).bind (·[x]?) = some q) :
    cellAt (scrollFrame c) (x + 8 * y) = recolor c.text c.back q := by
  rw [scrollFrame, cellAt_map _ (length_windowOf _ _) (by omega), cellAt_windowOf_of_line hx hy h]

/-- A black window is drawn as background alone (44_text.md R202). -/
theorem scrollFrame_of_black (h : windowOf c.strip c.window = List.replicate 64 Pixel.black) :
    scrollFrame c = List.replicate 64 c.back := by
  rw [scrollFrame, h, List.map_replicate, recolor_black]

/-- A scroll's context at its last window, `N - 9` (44_text.md R206). -/
def Scroll.last (c : Scroll) : Scroll := { c with window := c.strip.length - 9 }

theorem Scroll.last_of_window (h : c.window = c.strip.length - 9) : c.last = c := by
  rw [Scroll.last, ← h]

/-- A message ends with background alone (44_text.md R212). -/
theorem scrollFrame_startScroll_last (a : MessageOperands) (s : State) :
    scrollFrame (startScroll a s).last = List.replicate 64 (pixelOf a.back) :=
  scrollFrame_of_black (windowOf_stripOf_last s.glyphs (keysOf a.chars))

end Window

/-! ### One window and one wait (44_text.md R207) -/

/-- FB once a scroll's window is written under the effective rotation. -/
def windowDrawn (c : Scroll) (s : State) : Memory :=
  drawn s.mem (scrollFrame c) (effRotation s.rot)

theorem step_window (hr : s.resetIn = false) (hc : s.ctl = .scrolling c) :
    step s = .next (writeFrame (scrollFrame c) (effRotation s.rot) s (afterWindow c)) := by
  rw [step_of_scrolling hr hc, stepScroll, onDevice_frame]

theorem step_window_of_ok (hr : s.resetIn = false) (hc : s.ctl = .scrolling c)
    (hok : nextEvent s = .ok) :
    step s = .next (afterWindow c (transacted (windowDrawn c s) s)) := by
  rw [step_window hr hc, writeFrame_of_ok hok]
  rfl

theorem afterWindow_wait (h : c.speed ≠ 0) (s : State) : afterWindow c s = beginWait c s :=
  if_neg h

theorem afterWindow_noWait (h : c.speed = 0) (s : State) : afterWindow c s = nextWindow c s :=
  if_pos h

theorem beginWait_eq (c : Scroll) (s : State) :
    beginWait c s = { s with ctl := .waiting c (s.now + c.speed.toNat) } := by
  rw [beginWait, Nat.mul_one]

theorem nextWindow_more (h : c.window + 9 < c.strip.length) (s : State) :
    nextWindow c s = { s with ctl := .scrolling { c with window := c.window + 1 } } :=
  if_pos h

theorem nextWindow_last (h : c.strip.length ≤ c.window + 9) (s : State) :
    nextWindow c s = respond [] s :=
  if_neg (Nat.not_lt.2 h)

/-! ### Runs -/

/-- Some number of steps from `s` ends in `t`. -/
def RunsTo (s t : State) : Prop := ∃ k, Host.Core.run Sys2Proof.core k s = .next t

theorem RunsTo.refl (s : State) : RunsTo s s := ⟨0, rfl⟩

theorem RunsTo.head {s' : State} (h : step s = .next s') (ht : RunsTo s' t) : RunsTo s t := by
  obtain ⟨k, hk⟩ := ht
  have hstep : Sys2Proof.core.step s = .next s' := h
  refine ⟨k + 1, ?_⟩
  simp only [Host.Core.run, hstep]
  exact hk

/-! ### A whole scroll (44_text.md R207, R212) -/

/-- What `n` windows and their waits of `time` microseconds in all change of `s`: FB's bytes, the device's
tape and the clock; the control state is left open. -/
structure Scrolled (n time : Nat) (s t : State) : Prop where
  registers : RegistersKept s t
  cmd : t.cmd = s.cmd
  rsp : t.rsp = s.rsp
  resetIn : t.resetIn = s.resetIn
  rspFull : t.rspFull = s.rspFull
  events : t.events = s.events.drop n
  now : s.now + time ≤ t.now
  bytes : bytesKeptOutside 0 128 s.mem t.mem

theorem Scrolled.trans {n n' time time' : Nat} {s' : State} (h : Scrolled n time s s')
    (h' : Scrolled n' time' s' t) : Scrolled (n + n') (time + time') s t where
  registers := h.registers.trans h'.registers
  cmd := h'.cmd.trans h.cmd
  rsp := h'.rsp.trans h.rsp
  resetIn := h'.resetIn.trans h.resetIn
  rspFull := h'.rspFull.trans h.rspFull
  events := by rw [h'.events, h.events, List.drop_drop]
  now := by have := h.now; have := h'.now; omega
  bytes a ha := (h'.bytes a ha).trans (h.bytes a ha)

/-- A change of the control state is no part of a scroll's effect. -/
theorem Scrolled.setCtl {n time : Nat} (h : Scrolled n time s t) (k : Control) :
    Scrolled n time s { t with ctl := k } :=
  { h with }

/-- The write of a window, by itself. -/
theorem scrolled_transacted {m : Memory} (hm : bytesKeptOutside 0 128 s.mem m) :
    Scrolled 1 0 s (transacted m s) where
  registers := ⟨rfl, rfl, rfl⟩
  cmd := rfl
  rsp := rfl
  resetIn := rfl
  rspFull := rfl
  events := List.drop_one.symm
  now := le_rfl
  bytes := hm

theorem scrolled_endWait (time : Nat) : Scrolled 0 time s (endWait (s.now + time) s) where
  registers := ⟨rfl, rfl, rfl⟩
  cmd := rfl
  rsp := rfl
  resetIn := rfl
  rspFull := rfl
  events := rfl
  now := (endWait_now_ge s (s.now + time)).1
  bytes _ _ := rfl

/-- One window, answered, and its wait: the window is in FB, and the driver goes on from there. -/
theorem exists_scrolled_window {rest : List Config.DeviceEvent} (hr : s.resetIn = false)
    (hc : s.ctl = .scrolling c) (he : s.events = .ok :: rest) :
    ∃ s', Scrolled 1 c.speed.toNat s s' ∧ s'.mem = windowDrawn c s ∧
      ∀ t, RunsTo (nextWindow c s') t → RunsTo s t := by
  have hok : nextEvent s = .ok := by rw [nextEvent, he]
  have hstep := step_window_of_ok hr hc hok
  have hwrite : Scrolled 1 0 s (transacted (windowDrawn c s) s) :=
    scrolled_transacted (bytesKept_drawn _ _ _)
  by_cases hspeed : c.speed = 0
  · rw [afterWindow_noWait hspeed] at hstep
    exact ⟨_, by simpa [hspeed] using hwrite, rfl, fun t => .head hstep⟩
  · rw [afterWindow_wait hspeed, beginWait_eq] at hstep
    have hwait := scrolled_endWait (s := { transacted (windowDrawn c s) s with
      ctl := .waiting c (s.now + c.speed.toNat) }) c.speed.toNat
    refine ⟨_, Nat.zero_add c.speed.toNat ▸ (hwrite.setCtl _).trans hwait, rfl, fun t ht => ?_⟩
    exact .head hstep (.head (step_of_waiting hr rfl) ht)

/-- From a window on, with `n` more after it and every write answered, a scroll runs to its response, its
last window in FB: by induction on `n`. -/
theorem exists_scrolled_to_end {n : Nat} {rest : List Config.DeviceEvent} (hr : s.resetIn = false)
    (hc : s.ctl = .scrolling c) (hn : c.strip.length = c.window + 9 + n)
    (he : s.events = List.replicate (n + 1) .ok ++ rest) :
    ∃ t m, RunsTo s (respond [] t) ∧ Scrolled (n + 1) ((n + 1) * c.speed.toNat) s t ∧
      t.mem = drawn m (scrollFrame c.last) (effRotation s.rot) := by
  induction n generalizing s c with
  | zero =>
    obtain ⟨s', hone, hmem, hruns⟩ := exists_scrolled_window hr hc he
    have hlast : c.last = c := Scroll.last_of_window (by omega)
    refine ⟨s', s.mem, hruns _ ?_, by simpa using hone, by rw [hlast]; exact hmem⟩
    rw [nextWindow_last (by omega)]
    exact .refl _
  | succ n ih =>
    obtain ⟨s', hone, -, hruns⟩ := exists_scrolled_window hr hc he
    have hnext := hone.setCtl (.scrolling { c with window := c.window + 1 })
    obtain ⟨t, m, hrun, hrest, hmem⟩ := ih (hnext.resetIn.trans hr) rfl
      (show c.strip.length = c.window + 1 + 9 + n by omega) (by rw [hnext.events, he]; rfl)
    refine ⟨t, m, hruns _ ?_, ?_, ?_⟩
    · rwa [nextWindow_more (by omega)]
    · rw [Nat.add_comm (n + 1) 1, Nat.add_mul 1, Nat.one_mul]
      exact hnext.trans hrest
    · rwa [hnext.registers.1] at hmem

end Sys2Proof.Machine
end

section
/-! PROOFS. The statements about text (44_text.md). -/

namespace Sys2Proof.Machine

/-! ### SHOW_LETTER -/

/-- Settles O53: by the first check that fails; past them, by the letter's grid cell by cell. -/
theorem showLetterWritesLetter : Obligations.ShowLetterWritesLetter := by
  unfold Obligations.ShowLetterWritesLetter
  refine fun s => ⟨fun _ => rfl, fun a => ⟨exec_showLetter_reserved, fun hrsv =>
    ⟨exec_showLetter_range hrsv, fun ht hb => ⟨exec_showLetter_length hrsv ht hb, fun hl =>
      ⟨exec_showLetter_noFont hrsv ht hb hl, fun e hf he ⟨hok, _⟩ => ?letter⟩⟩⟩⟩⟩
  case letter =>
    obtain rfl := eq_effRotation he
    refine ⟨_, exec_showLetter_drawn hrsv ht hb hl hf hok, fun x y hx hy => ?_,
      bytesKept_drawn _ _ _⟩
    rw [← cellAt_letterGrid a s hx hy]
    exact logicalCode_drawn s.mem _ _ hx hy

/-! ### SHOW_MESSAGE and its driver -/

/-- Settles O54: by the first check that fails. -/
theorem showMessageStartsScroll : Obligations.ShowMessageStartsScroll := by
  unfold Obligations.ShowMessageStartsScroll
  exact fun s => ⟨fun _ => rfl, fun a => ⟨exec_showMessage_reserved, fun hrsv =>
    ⟨exec_showMessage_range hrsv, fun ht hb => ⟨exec_showMessage_noFont hrsv ht hb,
      exec_showMessage_started hrsv ht hb⟩⟩⟩⟩

/-- Settles O55: by what the window's one write is answered, then by `speed` and what is left. -/
theorem scrollStepWritesWindow : Obligations.ScrollStepWritesWindow := by
  unfold Obligations.ScrollStepWritesWindow
  intro s c e hr hc he
  obtain rfl := eq_effRotation he
  refine ⟨fun hok => ⟨windowDrawn c s, bytesKept_drawn _ _ _, fun x y q hx hy hq => ?cell,
    fun hspeed => ?wait, fun hspeed hmore => ?more, fun hspeed hlast => ?last⟩,
    fun st (hfail : WriteFails s st) => ?failed⟩
  case cell =>
    rw [← recolor, ← cellAt_scrollFrame_of_line hx hy hq]
    exact logicalCode_drawn s.mem _ _ hx hy
  case wait =>
    rw [step_window_of_ok hr hc hok, afterWindow_wait hspeed, beginWait_eq]
    rfl
  case more =>
    rw [step_window_of_ok hr hc hok, afterWindow_noWait hspeed, nextWindow_more hmore]
  case last =>
    rw [step_window_of_ok hr hc hok, afterWindow_noWait hspeed, nextWindow_last hlast]
    rfl
  case failed =>
    obtain ⟨m, hm, hkept⟩ := writeFrame_of_fails hfail (scrollFrame c) (effRotation s.rot)
      (afterWindow c)
    exact ⟨m, by rw [step_window hr hc, hm], hkept⟩

/-- Settles O56: the wait ends at the time `endWait` gives, and the driver goes on. -/
theorem waitEndsAfterDeadline : Obligations.WaitEndsAfterDeadline := by
  unfold Obligations.WaitEndsAfterDeadline
  intro s c deadline hr hc
  obtain ⟨hdeadline, hnow⟩ := endWait_now_ge s deadline
  refine ⟨(endWait deadline s).now, hdeadline, hnow, fun hmore => ?more, fun hlast => ?last⟩
  case more =>
    rw [step_of_waiting hr hc, stepWait, nextWindow_more hmore]
    rfl
  case last =>
    rw [step_of_waiting hr hc, stepWait, nextWindow_last hlast]
    rfl

/-- Settles O59: the scroll runs to its last window, and that one is black. -/
theorem messageScrollsToItsEnd : Obligations.MessageScrollsToItsEnd := by
  unfold Obligations.MessageScrollsToItsEnd
  intro s a rest hr hroom hf hrsv ht hb he
  have hlen := length_stripOf s.glyphs (keysOf a.chars)
  set strip := stripOf s.glyphs (keysOf a.chars)
  have hwindows : strip.length - 9 + 1 = strip.length - 8 := by omega
  obtain ⟨t, m, ⟨k, hrun⟩, hscrolled, hmem⟩ :=
    exists_scrolled_to_end (s := { s with ctl := .scrolling (startScroll a s) })
      (n := strip.length - 9) (rest := rest) hr rfl
      (show strip.length = 0 + 9 + (strip.length - 9) by omega) (by rw [hwindows]; exact he)
  rw [hwindows] at hscrolled
  obtain ⟨hrot, hglyphs, hloaded⟩ := hscrolled.registers
  have hend : respond [] t = answered [0x00000000] t :=
    putResponse_room t _ (hscrolled.rspFull.trans hroom)
  rw [hend] at hrun
  refine ⟨_, k, _, exec_showMessage_started hrsv ht hb hf, hrun, rfl, ?rsp, hrot, hglyphs,
    hloaded.trans hf, hscrolled.cmd, ?events, hscrolled.now, fun p hp => ?background,
    hscrolled.bytes⟩
  case rsp => rw [answered_rsp, hscrolled.rsp]
  case events => rw [answered_events, hscrolled.events, he, List.drop_left' List.length_replicate]
  case background =>
    rw [answered_mem, hmem, scrollFrame_startScroll_last]
    exact codeAt_drawn_replicate m _ _ hp

/-! ### The strip and its windows -/

/-- Settles O57: the strip's two blank ends, and its first character's lines before the rest. -/
theorem stripLengthIsSumOfHeights : Obligations.StripLengthIsSumOfHeights := by
  unfold Obligations.StripLengthIsSumOfHeights
  refine fun m ks hm => ⟨length_stripOf m ks, fun l => length_of_mem_stripOf hm,
    fun i => getElem?_stripOf_start m ks, fun i => getElem?_stripOf_end m ks,
    fun k => ⟨fun r c hr hc => ?glyph, getElem?_stripOf_cons_blank m k ks,
      drop_stripOf_cons m k ks⟩⟩
  case glyph =>
    rw [getElem?_stripOf_cons_glyph m k ks hr]
    exact getElem?_glyphRow _ r hc

/-- Settles O58: row `y` of window `i` is line `i + y`. -/
theorem windowsShiftByOneLine : Obligations.WindowsShiftByOneLine := by
  unfold Obligations.WindowsShiftByOneLine
  intro strip i x hx hi hlines
  refine ⟨fun y hy => ?moved, ?newRow⟩
  case moved =>
    rw [getElem?_windowOf strip _ hx (by omega), getElem?_windowOf strip _ hx (by omega),
      show i + 1 + y = i + (y + 1) by omega]
  case newRow =>
    have hlen : strip[i + 8].length = 8 := hlines _ (List.getElem_mem hi)
    rw [getElem?_windowOf strip _ hx (by decide)]
    simp [List.getD, hi, hlen, hx]

end Sys2Proof.Machine
end

section
/-! PROOFS. Which payloads a parser refuses for their length, and what a command or a window that
answers an error leaves: the rules the statements about 60_exceptions.md are proved from. -/

namespace Sys2Proof.Machine

variable {s s' t : State} {i : Instr}

/-! ### Refused lengths (60_exceptions.md R252) -/

theorem refusesLength_oneOr64 {α : Type} (f : Word → α) (ws : List Word) :
    refusesLength (oneOr64 f ws) = true ↔ ws.length ≠ 1 ∧ ws.length ≠ 64 := by
  unfold oneOr64
  split
  · simp only [refusesLength, Bool.false_eq_true, false_iff]
    omega
  · next hl => simpa [refusesLength] using hl

theorem refusesLength_parsePixels (ws : List Word) :
    refusesLength (parsePixels ws) = true ↔ ws.length ≠ 64 := by
  unfold parsePixels
  split
  · next hl => simp [refusesLength, hl]
  · next hl => simp [refusesLength, hl]

theorem refusesLength_noOperand (ws : List Word) :
    refusesLength (noOperand ws) = true ↔ ws.length ≠ 0 := by
  cases ws <;> simp [noOperand, refusesLength]

theorem refusesLength_oneOperand {α : Type} (f : Word → α) (ws : List Word) :
    refusesLength (oneOperand f ws) = true ↔ ws.length ≠ 1 := by
  match ws with
  | [] | [_] | _ :: _ :: _ => simp [oneOperand, refusesLength]

theorem refusesLength_parseSetPixel (ws : List Word) :
    refusesLength (parseSetPixel ws) = true ↔ ws.length ≠ 2 := by
  match ws with
  | [] | [_] | [_, _] | _ :: _ :: _ :: _ => simp [parseSetPixel, refusesLength]

theorem refusesLength_parseClear (ws : List Word) :
    refusesLength (parseClear ws) = true ↔ ws.length ≠ 0 ∧ ws.length ≠ 1 := by
  match ws with
  | [] | [_] | _ :: _ :: _ => simp [parseClear, refusesLength]

/-- LOAD_FONT's COUNT is above the words that follow it, or missing. -/
theorem refusesLength_parseFont (ws : List Word) :
    refusesLength (parseFont ws) = true ↔ ∀ a, ws.head? = some a → ws.length - 1 < a.toNat := by
  cases ws with
  | nil => simp [parseFont, refusesLength]
  | cons count rest =>
    simp only [parseFont]
    split
    · next hl => simpa [refusesLength] using hl
    · next hl => simpa [refusesLength] using hl

theorem refusesLength_parseLetter (ws : List Word) :
    refusesLength (parseLetter ws) = true ↔ ws.length < 2 := by
  match ws with
  | [] | [_] | _ :: _ :: _ => simp [parseLetter, refusesLength]

theorem refusesLength_parseMessage (ws : List Word) :
    refusesLength (parseMessage ws) = true ↔ ws.length < 3 := by
  match ws with
  | [] | [_] | [_, _] | _ :: _ :: _ :: _ => simp [parseMessage, refusesLength]

theorem exists_badLength_of_refused {α : Type} {p : Payload α} (h : refusesLength p = true) :
    ∃ ws, p = .badLength ws := by
  cases p with
  | accepted a => cases h
  | badLength ws => exact ⟨ws, rfl⟩

/-- A refused length is looked at first, and answered with nothing else done (60_exceptions.md R252,
R259 step 3). -/
theorem exec_of_lengthRefused (h : lengthRefused i = true) (s : State) :
    exec i s = .next (raise .badLength s) := by
  cases i
  case glyph cs => cases h
  case glyphTrim cs => cases h
  all_goals
    obtain ⟨ws, rfl⟩ := exists_badLength_of_refused h
    rfl

/-! ### Responses that are an error -/

/-- `CLASS` is the low byte of a status word (30_encoding.md R79). -/
theorem class_of_statusWord (cls cause : BitVec 8) (n : Nat) :
    (statusWord cls cause n).extractLsb' 0 8 = cls := by
  rw [statusWord, BitVec.extractLsb'_append_eq_of_add_le (by decide),
    BitVec.extractLsb'_append_eq_of_add_le (by decide), BitVec.extractLsb'_eq_self]

/-- From `s` to `t` one word has gone on RSP, a status that is not OK. -/
def AnswersError (s t : State) : Prop :=
  ∃ st, t.rsp = s.rsp ++ [st] ∧ st.extractLsb' 0 8 ≠ 0

namespace AnswersError

theorem false_of_length_le (ha : AnswersError s t) (h : t.rsp.length ≤ s.rsp.length) : False := by
  obtain ⟨st, hrsp, -⟩ := ha
  simp [hrsp] at h

theorem false_of_respond {ws : List Word} (ha : AnswersError s (respond ws s'))
    (hroom : s'.rspFull = false) (hrsp : s'.rsp = s.rsp) : False := by
  obtain ⟨st, hst, hne⟩ := ha
  rw [respond_eq, putResponse_room s' _ hroom, answered_rsp, hrsp] at hst
  obtain ⟨rfl, -⟩ := List.cons.inj (List.append_cancel_left hst)
  exact hne (class_of_statusWord 0 0 _)

/-- A window that was written goes on to a wait, to another window or to OK (44_text.md R207). -/
theorem false_of_afterWindow {c : Scroll} (ha : AnswersError s (afterWindow c s'))
    (hroom : s'.rspFull = false) (hrsp : s'.rsp = s.rsp) : False := by
  obtain ⟨-, h⟩ | ⟨-, h⟩ := afterWindow_cases c s' <;> rw [h] at ha
  · obtain ⟨-, h⟩ | ⟨-, h⟩ := nextWindow_cases c s' <;> rw [h] at ha
    · exact ha.false_of_length_le (by simp [hrsp])
    · exact ha.false_of_respond hroom hrsp
  · exact ha.false_of_length_le (by simp [hrsp])

end AnswersError

/-- An error ended it: at once, or as a DeviceError once transactions were made. -/
def EndsInError (s t : State) : Prop :=
  ∃ s' e, Transacts s s' ∧ t = raise e s' ∧ (s' = s ∨ e.classCode = 4)

/-- Of a command's ends only an error answers one. -/
theorem Ends.endsInError (h : Ends i s t) (hroom : s.rspFull = false) (ha : AnswersError s t) :
    EndsInError s t := by
  obtain herror | ⟨s', ws, hx, rfl, -⟩ | ⟨s', d, rf, p, hx, -, rfl⟩ | ⟨f, -, -, rfl⟩ |
    ⟨s', m, -, -, rfl, -⟩ | ⟨p, c, -, rfl, -⟩ := h
  · exact herror
  · obtain ⟨-, -, -, -, -, hrsp, -, hfull, -⟩ := hx.frame
    exact (ha.false_of_respond (hfull.trans hroom) hrsp).elim
  · obtain ⟨-, -, -, -, -, hrsp, -, hfull, -⟩ := hx.frame
    exact (ha.false_of_respond (hfull.trans hroom) hrsp).elim
  · exact (ha.false_of_respond hroom rfl).elim
  · exact (ha.false_of_length_le (by simp)).elim
  · exact (ha.false_of_length_le le_rfl).elim

/-- A window answers an error only when its one write failed (60_exceptions.md R256). -/
theorem endsInError_of_window {c : Scroll} (hr : s.resetIn = false) (hc : s.ctl = .scrolling c)
    (h : step s = .next t) (hroom : s.rspFull = false) (ha : AnswersError s t) :
    EndsInError s t := by
  have failed (he : nextEvent s ≠ .reset) : Transacts s (transacted (scrambled s 0 128) s) :=
    (Transacts.refl s).step he (fun hm => wf_scrambled hm (by decide)) (bytesKept_scrambled s 0 128)
  obtain rfl := Host.Outcome.next.inj ((step_window hr hc).symm.trans h)
  obtain ⟨-, hw⟩ | ⟨he, hw⟩ | ⟨he, hw⟩ | ⟨-, hw⟩ :=
    writeFrame_cases (scrollFrame c) (effRotation s.rot) s (afterWindow c) <;> rw [hw] at ha ⊢
  · exact (ha.false_of_afterWindow hroom rfl).elim
  · exact ⟨_, _, failed (by simp [he]), rfl, .inr rfl⟩
  · exact ⟨_, _, failed (by simp [he]), rfl, .inr rfl⟩
  · exact (ha.false_of_length_le (by simp)).elim

/-- An error writes no register, takes nothing more from CMD and leaves the engine idle
(60_exceptions.md R250). -/
theorem EndsInError.frame (h : EndsInError s t) (hroom : s.rspFull = false) :
    RegistersKept s t ∧ t.ctl = .idle ∧ t.cmd = s.cmd := by
  obtain ⟨s', e, hx, rfl, -⟩ := h
  have hkept : RegistersKept s (raise e s') := (RegistersKept.transacts hx).trans (.putResponse _ s')
  obtain ⟨-, -, -, -, hcmd, -, -, hfull, -⟩ := hx.frame
  rw [raise_eq, putResponse_room s' _ (hfull.trans hroom)] at hkept ⊢
  exact ⟨hkept, rfl, hcmd⟩

/-- An error that is no DeviceError comes before any transaction. -/
theorem EndsInError.untouched (h : EndsInError s t) (hroom : s.rspFull = false) {st : Word}
    (hst : t.rsp = s.rsp ++ [st]) (hne : st.extractLsb' 0 8 ≠ 4) :
    t.mem = s.mem ∧ t.events = s.events ∧ t.draws = s.draws := by
  obtain ⟨s', e, hx, rfl, rfl | hdevice⟩ := h
  · simp [raise_eq]
  · obtain ⟨-, -, -, -, -, hrsp, -, hfull, -⟩ := hx.frame
    rw [raise_eq, putResponse_room s' _ (hfull.trans hroom), answered_rsp, hrsp] at hst
    obtain rfl := List.singleton_inj.1 (List.append_cancel_left hst)
    exact absurd ((class_of_statusWord _ _ _).trans hdevice) hne

end Sys2Proof.Machine
end

section
/-! PROOFS. The statements about errors (60_exceptions.md). -/

namespace Sys2Proof.Machine

/-- Settles O6: by the opcode, from what its parser refuses; a refused length ends the command. -/
theorem wrongLengthIsBadLength : Obligations.WrongLengthIsBadLength := by
  unfold Obligations.WrongLengthIsBadLength
  refine fun h ws i hd => ⟨?lengths, fun s hi => exec_of_lengthRefused hi s⟩
  case lengths =>
    unfold decode at hd
    split at hd
    · next ho => simp [← eq_of_plainCommand hd, ho, lengthRefused, refusesLength_oneOr64]
    · next ho => simp [← eq_of_plainCommand hd, ho, lengthRefused, refusesLength_oneOr64]
    · next ho => simp [← eq_of_plainCommand hd, ho, lengthRefused, refusesLength_oneOperand]
    · next ho => simp [← eq_of_plainCommand hd, ho, lengthRefused, refusesLength_parsePixels]
    · next ho => simp [← eq_of_plainCommand hd, ho, lengthRefused, refusesLength_noOperand]
    · next ho => simp [← eq_of_plainCommand hd, ho, lengthRefused, refusesLength_parseSetPixel]
    · next ho => simp [← eq_of_plainCommand hd, ho, lengthRefused, refusesLength_oneOperand]
    · next ho => simp [← eq_of_redrawCommand hd, ho, lengthRefused, refusesLength_noOperand]
    · next ho => simp [← eq_of_redrawCommand hd, ho, lengthRefused, refusesLength_noOperand]
    · next ho => simp [← eq_of_plainCommand hd, ho, lengthRefused, refusesLength_parseClear]
    · next ho => simp [← eq_of_redrawCommand hd, ho, lengthRefused, refusesLength_oneOperand]
    · next ho => simp [← eq_of_plainCommand hd, ho, lengthRefused, refusesLength_noOperand]
    · next ho => simp [← eq_of_plainCommand hd, ho, lengthRefused, refusesLength_parseFont]
    · next ho => simp [← eq_of_plainCommand hd, ho, lengthRefused]
    · next ho => simp [← eq_of_plainCommand hd, ho, lengthRefused]
    · next ho => simp [← eq_of_plainCommand hd, ho, lengthRefused, refusesLength_parseLetter]
    · next ho => simp [← eq_of_plainCommand hd, ho, lengthRefused, refusesLength_parseMessage]
    · cases hd

/-- Settles O14: a command or window that answers an error ended in one (`EndsInError`), and an error
writes no register. -/
theorem failedCommandWritesNoRegister : Obligations.FailedCommandWritesNoRegister := by
  unfold Obligations.FailedCommandWritesNoRegister
  intro s t st hroom hst hne h
  have ha : AnswersError s t := ⟨st, hst, hne⟩
  have herror : EndsInError s t := by
    obtain ⟨i, h⟩ | ⟨hr, ⟨c, hc⟩, h⟩ := h
    · exact (exec_cases i s t h).endsInError hroom ha
    · exact endsInError_of_window hr hc h hroom ha
  obtain ⟨⟨hrot, hglyphs, hfont⟩, hctl, hcmd⟩ := herror.frame hroom
  exact ⟨hrot, hfont, hglyphs, hctl, hcmd, herror.untouched hroom hst⟩

end Sys2Proof.Machine
end

section
/-! PROOFS. What a reset leaves, asserted by the host or landing on a device transaction: the rules the
statements about 70_reset_and_hazards.md are proved from. -/

namespace Sys2Proof.Machine

variable {s : State} {i : Instr}

/-! ### The reset input (70_reset_and_hazards.md R300) -/

theorem engineReset_eq (s : State) :
    engineReset s = { State.reset with
      mem := s.mem, resetIn := s.resetIn, now := s.now, events := s.events, draws := s.draws } := rfl

theorem hostReset_assert (s : State) :
    hostReset true s = { engineReset s with resetIn := true } := rfl

theorem hostReset_release (h : s.resetIn = true) :
    hostReset false s = { engineReset s with resetIn := false } :=
  if_pos (by simpa using h)

theorem hostSend_of_reset (h : s.resetIn = true) (ws : List Word) : hostSend ws s = s :=
  if_pos h

/-! ### A reset that lands on a device transaction (70_reset_and_hazards.md R303) -/

theorem engineReset_transacted (m : Memory) (s : State) :
    engineReset (transacted m s) = resetAfter 1 m s :=
  (congrArg engineReset (transacted_afterEvents 0 s.mem m s)).trans (engineReset_afterEvents 1 m s)

/-- The first transaction after an answered one is the second. -/
theorem resetAfter_takeEvent (m : Memory) (s : State) :
    resetAfter 1 m (takeEvent s) = resetAfter 2 m s := by
  simp [resetAfter]

section InFlight

variable (he : nextEvent s = .reset)
include he

/-- A reset ends a read: what was to follow it does not happen, and FB is as it was. -/
theorem memRead_of_reset (addr n : Nat) (k : List Byte → State → State) :
    memRead addr n s k = resetAfter 1 s.mem s := by
  simp only [memRead, he, takeEvent_eq, engineReset_transacted]

theorem readFrame_of_reset (d : Rotation) (k : Grid → State → State) :
    readFrame d s k = resetAfter 1 s.mem s :=
  memRead_of_reset he _ _ _

theorem flipFrame_of_reset (mirror : Grid → Grid) (rf : Bool) :
    flipFrame mirror rf s = resetAfter 1 s.mem s :=
  readFrame_of_reset he _ _

/-- A reset ends a write: what was to follow it does not happen, and only the bytes of its range are
lost. -/
theorem memWrite_of_reset (addr : Nat) (v : List Byte) (k : State → State) :
    ∃ m, memWrite addr v s k = resetAfter 1 m s ∧ bytesKeptOutside addr v.length s.mem m := by
  refine ⟨scrambled s addr v.length, ?_, bytesKept_scrambled s addr v.length⟩
  simp only [memWrite, he, takeEvent_with_mem, engineReset_transacted]

theorem writeFrame_of_reset (l : Grid) (d : Rotation) (k : State → State) :
    ∃ m, writeFrame l d s k = resetAfter 1 m s ∧ bytesKeptOutside 0 128 s.mem m := by
  simpa [writeFrame] using memWrite_of_reset he 0 (frameBytes l d) k

/-- A command or a scroll's window that has come to its frame write is abandoned there. -/
theorem abandoned_at_writeFrame {o : Out} {l : Grid} {d : Rotation} {k : State → State}
    (ho : o = .next (writeFrame l d s k)) :
    ∃ m, o = .next (resetAfter 1 m s) ∧ bytesKeptOutside 0 128 s.mem m := by
  obtain ⟨m, hm, hkept⟩ := writeFrame_of_reset he l d k
  exact ⟨m, by rw [ho, hm], hkept⟩

end InFlight

/-- A reset that lands on the write of a redraw lands on the command's second transaction. -/
theorem Redraws.abandoned_at_write (hi : Redraws i) (ho : nextEvent s = .ok)
    (he : nextEvent (takeEvent s) = .reset) :
    ∃ m, exec i s = .next (resetAfter 2 m s) ∧ bytesKeptOutside 0 128 s.mem m := by
  obtain ⟨l, d, k, hwrite⟩ := hi.exec_of_ok ho
  obtain ⟨m, hm, hkept⟩ := abandoned_at_writeFrame he hwrite
  exact ⟨m, by rw [hm, resetAfter_takeEvent], hkept⟩

end Sys2Proof.Machine
end

section
/-! PROOFS. The statements about reset (70_reset_and_hazards.md). -/

namespace Sys2Proof.Machine

/-- Settles O46: a command that has come to a transaction ends there; that a reset landed on one at all
is among the ends of a command. -/
theorem resetInFlightAbandonsCommand : Obligations.ResetInFlightAbandonsCommand := by
  unfold Obligations.ResetInFlightAbandonsCommand
  refine fun s => ⟨fun he => ⟨fun a c ha hx hy hc hok => ?setPixel, fun c hc => ?clear,
    fun ps hps => ?setPixels, fun l hrsv ht hb hl hf => ?showLetter, fun i hi => ?read,
    fun c hr hc => ?window⟩, fun ho he i (hi : Redraws i) => hi.abandoned_at_write ho he,
    fun i t h hreset => ?anyCommand⟩
  case setPixel =>
    rw [exec_setPixel_valid ha hx hy hc hok]
    simpa [cellBytes] using memWrite_of_reset he _ (cellBytes (encode565 (pixelOf c))) (respond [])
  case clear => exact abandoned_at_writeFrame he (exec_clear_valid hc s)
  case setPixels => exact abandoned_at_writeFrame he (exec_setPixels_valid hps s)
  case showLetter => exact abandoned_at_writeFrame he (exec_showLetter_valid hrsv ht hb hl hf)
  case read =>
    obtain rfl | ⟨a, ha, hx, hy, rfl⟩ | ⟨rf, rfl⟩ | ⟨rf, rfl⟩ | ⟨w, d, hw, hd, rfl⟩ := hi
    · rw [exec_getPixels_valid, readFrame_of_reset he]
    · rw [exec_getPixel_valid ha hx hy, memRead_of_reset he]
    · rw [exec_flipH_valid, flipFrame_of_reset he]
    · rw [exec_flipV_valid, flipFrame_of_reset he]
    · rw [exec_setRot_redraw hw hd, readFrame_of_reset he]
  case window => exact abandoned_at_writeFrame he (step_window hr hc)
  case anyCommand =>
    have hlands : ResetLands s t := (exec_cases i s t h).reset_or_noReset.resolve_right hreset
    obtain ⟨-, n, m, hbefore, hat, ht, -, hkept⟩ := hlands.spec
    exact ⟨n, m, hbefore, hat, ht, hkept⟩

/-- Settles O47: a step under reset and both host actions make a reset of the engine, and the words sent
between the two go nowhere. -/
theorem resetInputHoldsResetValues : Obligations.ResetInputHoldsResetValues := by
  unfold Obligations.ResetInputHoldsResetValues
  refine fun s => ⟨fun hr => ?step, ?assert, fun ws => ?release⟩
  case step => rw [step_of_reset hr, engineReset_eq, hr]
  case assert => rw [hostReset_assert, engineReset_eq]
  case release =>
    have hr : (hostReset true s).resetIn = true := rfl
    rw [hostSend_of_reset hr, hostReset_release hr, hostReset_assert, engineReset_eq]
    rfl

end Sys2Proof.Machine
end
